-- ==== Sys2Proof/Word.lean ====
section
/-! DEFINITION. The words of the machine: bits, bytes, command words. -/

namespace Sys2Proof

/-- A bit of a frame, or a one-bit flag: `false` is 0 (DOMINANT) and `true` is 1 (RECESSIVE).
00_scope.md R10. -/
abbrev Bit := Bool

/-- The dominant bus state, 0. 00_scope.md R10. -/
abbrev dominant : Bit := false

/-- The recessive bus state, 1. 00_scope.md R10. -/
abbrev recessive : Bit := true

/-- A data byte. -/
abbrev Byte := BitVec 8

/-- A command word of the block's command port. 30_encoding.md R95. -/
abbrev Command := BitVec 64

/-- `mask_N = 2^N - 1`, as a value of width `w`. 00_scope.md R11. -/
def maskBits (w N : Nat) : BitVec w := BitVec.ofNat w (2 ^ N - 1)

end Sys2Proof
end

