-- ==== Sys2Proof/Config.lean ====
section
/-! DEFINITION. The parameters of this hardware (00_scope.md R8) and the one free value. -/

namespace Sys2Proof.Config

/-- `STUFF_TRIGGER`: identical bits after which a stuff bit follows. 00_scope.md R8. -/
abbrev stuffTrigger : Nat := 5

/-- `RESYNC_RUN`: consecutive recessive raw bits that end a HARD_FAIL scan. 00_scope.md R8. -/
abbrev resyncRun : Nat := 10

/-- `CAN_CRC_POLY`: the generator without its x^15 term. 00_scope.md R8, 90_conflicts.md C1. -/
abbrev canCrcPoly : BitVec 32 := 0x4599#32

/-- `CAN_CRC_WIDTH`. 00_scope.md R8. -/
abbrev canCrcWidth : Nat := 15

/-- `BASE_ID_BITS`. 00_scope.md R8. -/
abbrev baseIdBits : Nat := 11

/-- `EXT_ID_BITS`. 00_scope.md R8. -/
abbrev extIdBits : Nat := 18

/-- `ID_MAX_STD`: the largest identifier of the standard format. 00_scope.md R8. -/
abbrev idMaxStd : Nat := 0x7FF

/-- `MAX_DATA_BYTES`: DLC 9 to 15 clamps to it. 00_scope.md R8. -/
abbrev maxDataBytes : Nat := 8

/-- `EOF_BITS`. 00_scope.md R8. -/
abbrev eofBits : Nat := 7

/-- `IFS_BITS`. 00_scope.md R8. -/
abbrev ifsBits : Nat := 3

/-- `CRC_MAX_WIDTH`: the widest polynomial, and the widest CRC field. 00_scope.md R8. -/
abbrev crcMaxWidth : Nat := 32

/-- FREE VALUE (DESIGN CHOICE, log 6): which of the five class codes of 30_encoding.md R108 a `DEC_BIT`
answers when it finds the decoder in stage `ENDED`. 42_decoder.md R172 and R194 give that path every
effect and state no class. Applied to the counter `State.free`. -/
opaque unreachableClass : Nat → Fin 5

end Sys2Proof.Config
end

