-- ==== Sys2Proof/Machine/Types.lean ====
section
/-! DEFINITION. The registers of each unit, the records the decoder emits and the responses of the
command port, as plain data. -/

namespace Sys2Proof.Machine

/-! ### Engines -/

/-- A CRC engine. 10_state.md R22. -/
structure CrcState where
  /-- Generator coefficients below the top term. -/
  poly : BitVec 32
  /-- Degree of the generator. -/
  width : BitVec 6
  /-- Remainder register, below `2^width` between commands. -/
  reg : BitVec 33
  /-- Bits fed, finalize padding included; wraps. -/
  nbits : BitVec 32
  /-- Result of the last finalize. -/
  value : BitVec 32
deriving DecidableEq, Repr

/-- A stuffing engine. 10_state.md R24. -/
structure StuffState where
  /-- Length of the current run of 0s. -/
  run0 : BitVec 3
  /-- Length of the current run of 1s. -/
  run1 : BitVec 3
  /-- Stuff bits of value 0 removed or inserted; wraps. -/
  tot0 : BitVec 16
  /-- Stuff bits of value 1 removed or inserted; wraps. -/
  tot1 : BitVec 16
  /-- Stuffing rules apply. -/
  en : Bool
  /-- Sticky: a stuff violation has been seen. -/
  viol : Bool
deriving DecidableEq, Repr

/-- The reset value of every CRC engine. 10_state.md R23. -/
def CrcState.fresh : CrcState :=
  { poly := Config.canCrcPoly, width := 15, reg := 0, nbits := 0, value := 0 }

/-- The reset value of every stuffing engine. 10_state.md R26. -/
def StuffState.fresh : StuffState :=
  { run0 := 0, run1 := 0, tot0 := 0, tot1 := 0, en := true, viol := false }

/-- What the decode direction answers for a bit. 41_stuffing.md R144. -/
inductive StuffClass where
  | data | stuff | violation
deriving DecidableEq, Repr

/-- The class numbers of `STF_DESTUFF`'s payload. 30_encoding.md R108. -/
def StuffClass.code : StuffClass → BitVec 2
  | .data => 1 | .stuff => 2 | .violation => 3

/-- A bit of the encode direction: its value and whether it is a stuff bit. 41_stuffing.md R148. -/
structure StuffBit where
  bit : Bit
  isStuff : Bool
deriving DecidableEq, Repr

/-! ### Positions, symbols, stages, entries -/

/-- A position in the input text, 24 bits each way. 10_state.md R39. -/
structure Pos where
  line : BitVec 24
  col : BitVec 24
deriving DecidableEq, Repr

/-- A raw symbol. 30_encoding.md R85. -/
structure RawSymbol where
  value : Bit
  annot : Bool
  pos : Pos
deriving DecidableEq, Repr

/-- The 18 values of `DEC.stage`. 10_state.md R33. -/
inductive Stage where
  | sof | arbitrationId | rtrOrSrr | ide | extendedId | rtr | r1 | r0 | dlc | data | crc
  | crcDelimiter | ackSlot | ackDelimiter | eof | ifs | ended | hardFail
deriving DecidableEq, Repr

/-- The stage codes. 10_state.md R33. -/
def Stage.code : Stage → BitVec 5
  | .sof => 0 | .arbitrationId => 1 | .rtrOrSrr => 2 | .ide => 3 | .extendedId => 4 | .rtr => 5
  | .r1 => 6 | .r0 => 7 | .dlc => 8 | .data => 9 | .crc => 10 | .crcDelimiter => 11
  | .ackSlot => 12 | .ackDelimiter => 13 | .eof => 14 | .ifs => 15 | .ended => 16
  | .hardFail => 17

/-- The violation and diagnostic codes of 60_exceptions.md R270, R271, R272 and R274. -/
inductive EntryCode where
  | stuffRun0 | stuffRun1 | eofDominant | ifsDominant | streamEndedMidFrame
  | rtrWithNonzeroDlc | crcDelimDominant | crcMismatch | ackSlotDominant | ackDelimDominant
  | roundtripMismatch | internalUnreachable
  | stuffAnnotMissing | stuffAnnotSpurious
deriving DecidableEq, Repr

/-- The code numbers. 60_exceptions.md R270, R271, R272, R274. -/
def EntryCode.code : EntryCode → BitVec 8
  | .stuffRun0 => 0x01 | .stuffRun1 => 0x02 | .eofDominant => 0x03 | .ifsDominant => 0x04
  | .streamEndedMidFrame => 0x05
  | .rtrWithNonzeroDlc => 0x10 | .crcDelimDominant => 0x11 | .crcMismatch => 0x12
  | .ackSlotDominant => 0x13 | .ackDelimDominant => 0x14
  | .roundtripMismatch => 0x20 | .internalUnreachable => 0x21
  | .stuffAnnotMissing => 0x30 | .stuffAnnotSpurious => 0x31

/-- An entry of a violation or diagnostic list; `pos = none` is `NONE`. 30_encoding.md R106. -/
structure Entry where
  code : EntryCode
  stage : Stage
  pos : Option Pos
deriving DecidableEq, Repr

/-- The four classes of entry codes. 60_exceptions.md R275. -/
inductive EntryClass where
  | fatal | soft | internal | diagnostic
deriving DecidableEq, Repr

/-- The outcome tag of a frame. 30_encoding.md R105. -/
inductive FrameOutcome where
  | success | softFailure | fatalFailure | internalError
deriving DecidableEq, Repr

/-- The outcome codes. 30_encoding.md R105. -/
def FrameOutcome.code : FrameOutcome → BitVec 2
  | .success => 0 | .softFailure => 1 | .fatalFailure => 2 | .internalError => 3

/-- The resynchronisation point. 10_state.md R38. -/
inductive Resync where
  | none
  | atPos (pos : Pos)
  | endOfStream
deriving DecidableEq, Repr

/-! ### Decoder -/

/-- A field register: the value, filled from the least significant end, and the received-bit count.
10_state.md R35. -/
structure FieldReg (w c : Nat) where
  v : BitVec w
  n : BitVec c
deriving DecidableEq, Repr

/-- A field register at reset. 10_state.md R35. -/
def FieldReg.zero {w c : Nat} : FieldReg w c := { v := 0, n := 0 }

/-- The field registers `DEC.F`. 10_state.md R35. -/
structure FieldRegs where
  base : FieldReg 11 4
  rtrSrr : FieldReg 1 1
  ide : FieldReg 1 1
  ext : FieldReg 18 5
  rtr : FieldReg 1 1
  r1 : FieldReg 1 1
  r0 : FieldReg 1 1
  dlc : FieldReg 4 3
  data : FieldReg 64 7
  crcRx : FieldReg 15 4
  crcDel : FieldReg 1 1
  ack : FieldReg 1 1
  ackDel : FieldReg 1 1
  /-- `DEC.eof.n`, the recessive EOF bits seen. -/
  eofN : BitVec 3
  /-- `DEC.ifs.n`, the recessive IFS bits seen. -/
  ifsN : BitVec 2
deriving DecidableEq, Repr

/-- All field registers at reset. 10_state.md R35. -/
def FieldRegs.zero : FieldRegs :=
  { base := .zero, rtrSrr := .zero, ide := .zero, ext := .zero, rtr := .zero, r1 := .zero,
    r0 := .zero, dlc := .zero, data := .zero, crcRx := .zero, crcDel := .zero, ack := .zero,
    ackDel := .zero, eofN := 0, ifsN := 0 }

/-- The frame decoder. 10_state.md R33 to R41. -/
structure DecState where
  stage : Stage
  fields : FieldRegs
  crcCalc : BitVec 15
  crcCalcValid : Bool
  crc : CrcState
  stf : StuffState
  raw : List RawSymbol
  dst : List Bit
  viol : List Entry
  diag : List Entry
  recRun : BitVec 4
  resync : Resync
  start : Option Pos
  last : Option Pos
  /-- The stream-level sequence number, the one register that is not frame-level. -/
  seq : BitVec 32
deriving DecidableEq, Repr

/-- The decoder at reset: fresh frame-level state and sequence number 0. 70_reset_and_hazards.md R292. -/
def DecState.fresh : DecState :=
  { stage := .sof, fields := .zero, crcCalc := 0, crcCalcValid := false, crc := .fresh,
    stf := .fresh, raw := [], dst := [], viol := [], diag := [], recRun := 0, resync := .none,
    start := none, last := none, seq := 0 }

/-! ### Encoder -/

/-- The encoder's staging registers. 10_state.md R51. -/
structure EncState where
  id : BitVec 29
  rtr : Bool
  len : BitVec 4
  data : Vector Byte 8
deriving DecidableEq, Repr

/-- The staging registers at reset. 10_state.md R51. -/
def EncState.fresh : EncState :=
  { id := 0, rtr := false, len := 0, data := Vector.replicate 8 0 }

/-- A logical message. 10_state.md R53. -/
structure Message where
  identifier : BitVec 29
  isExtended : Bool
  isRemoteRequest : Bool
  data : List Byte
deriving DecidableEq, Repr

/-- Segment labels; `d i` is `D<i>`. 30_encoding.md R94. -/
inductive Label where
  | sof | id | rtr | srr | ide | eid | r1 | r0 | dlc
  | d (i : Nat)
  | crc | crcDel | ack | ackDel | eof | ifs
deriving DecidableEq, Repr

/-- One field of the presentation with its stuffed bits. 30_encoding.md R94. -/
structure Segment where
  label : Label
  bits : List StuffBit
deriving DecidableEq, Repr

/-- The FrameFields values the encoder writes; `none` is a field the format does not have.
30_encoding.md R109. -/
structure FrameFields where
  base : BitVec 11
  rtrSrr : Bit
  ide : Bit
  ext : Option (BitVec 18)
  rtr : Option Bit
  r1 : Option Bit
  r0 : Bit
  dlc : BitVec 4
  data : List Byte
  crc : BitVec 15
deriving DecidableEq, Repr

/-- The result of an encode. 30_encoding.md R109; text is a list of characters (log 9). -/
structure EncodeResult where
  fields : FrameFields
  bits : List StuffBit
  text01 : List Char
  textxy : List Char
  segments : List Segment
  tot0 : BitVec 16
  tot1 : BitVec 16
deriving DecidableEq, Repr

/-! ### Responses -/

/-- A frame record. 30_encoding.md R104. -/
structure FrameRecord where
  seq : BitVec 32
  start : Option Pos
  raw : List RawSymbol
  dst : List Bit
  fields : FieldRegs
  crcCalc : BitVec 15
  crcCalcValid : Bool
  message : Message
  outcome : FrameOutcome
  primary : Option Entry
  violations : List Entry
  diagnostics : List Entry
  resync : Resync
  presentation : Option (List Segment)
deriving DecidableEq, Repr

/-- The snapshot of `STATUS`, in the order of 45_control.md R261. -/
structure Snapshot where
  crcu : CrcState
  stfu : StuffState
  stage : Stage
  seq : BitVec 32
  recRun : BitVec 4
  resync : Resync
  start : Option Pos
  last : Option Pos
  fields : FieldRegs
  crcCalc : BitVec 15
  crcCalcValid : Bool
  decCrc : CrcState
  decStf : StuffState
  rawLen : Nat
  dstLen : Nat
  violLen : Nat
  diagLen : Nat
  enc : EncState
deriving DecidableEq, Repr

/-- The class of a `DEC_BIT` response. 30_encoding.md R108. -/
inductive BitClass where
  | idleSkip | data | stuff | violation | resyncScan
deriving DecidableEq, Repr

/-- The class codes, 0 to 4. 30_encoding.md R108. -/
def BitClass.code : BitClass → BitVec 3
  | .idleSkip => 0 | .data => 1 | .stuff => 2 | .violation => 3 | .resyncScan => 4

/-- The status codes of a response. 30_encoding.md R107. -/
inductive Status where
  | ok | illegalOpcode | reservedNonzero | badOperand
deriving DecidableEq, Repr

/-- The status numbers. 30_encoding.md R107. -/
def Status.code : Status → BitVec 4
  | .ok => 0 | .illegalOpcode => 1 | .reservedNonzero => 2 | .badOperand => 3

/-- The payload of a response. 30_encoding.md R108. -/
inductive Payload where
  | empty
  | snapshot (s : Snapshot)
  | crcWidth (width : BitVec 6)
  | crcValue (value : BitVec 32)
  | destuffed (cls : StuffClass)
  | stuffed (out : List StuffBit)
  | decBit (cls : BitClass) (stage : Stage) (record : Option FrameRecord)
  | decEos (record : Option FrameRecord)
  | encoded (result : EncodeResult)
deriving DecidableEq, Repr

/-- A response of the command port. 30_encoding.md R107. -/
structure Response where
  status : Status
  payload : Payload
deriving DecidableEq, Repr

end Sys2Proof.Machine
end

