-- ==== Sys2Proof/Machine/State.lean ====
section
/-! DEFINITION. The state of the block, its reset value, and the (unused) ways a step could stop. -/

namespace Sys2Proof.Machine

/-- The whole block (00_scope.md R6) with its command port. -/
structure State where
  /-- `CRCU`, the standalone CRC engine. -/
  crcu : CrcState
  /-- `STFU`, the standalone stuffing engine. -/
  stfu : StuffState
  /-- `DEC`, the frame decoder. -/
  dec : DecState
  /-- `ENC`, the encoder's staging registers. -/
  enc : EncState
  /-- The command words placed at the port and not yet taken, oldest first (log 1). -/
  cmds : List Command
  /-- The responses given, oldest first, one per command taken (log 2). -/
  responses : List Response
  /-- The model's own counter of free values drawn (log 6). -/
  free : Nat
deriving DecidableEq, Repr

/-- Why a machine stops. The block has no trap, and every command completes (60_exceptions.md R268, R283),
so there is no reason: the type is empty (log 11). -/
inductive Fault where
deriving DecidableEq, Repr

/-- Why an instruction is given no meaning. -/
inductive Refusal where
  /-- Raised by an arm of `exec` whose instruction has no meaning yet; no arm raises it. Safe: the run
  stops where the hardware goes on. -/
  | notModelled (mnemonic : String)
deriving DecidableEq, Repr

/-- The block at power-on, equal to the state after `RESET`: 70_reset_and_hazards.md R290 to R292. The port
holds no command and no response (log 1, log 2), and the model's counter is 0 (log 6). -/
def State.reset : State :=
  { crcu := .fresh, stfu := .fresh, dec := .fresh, enc := .fresh, cmds := [], responses := [],
    free := 0 }

end Sys2Proof.Machine
end

