-- ==== Sys2Proof/Machine/Operands.lean ====
section
/-! DEFINITION. Operand forms: field bits in wire order, field registers, identifiers, lengths, data
bytes, the logical message, and the legal ranges of command operands. -/

namespace Sys2Proof.Machine

/-- `bits_MSB(v, N)`: bits `N-1` down to 0 of `v`, the first transmitted first. 00_scope.md R12. -/
def bitsMsb {w : Nat} (v : BitVec w) : Nat → List Bit
  | 0 => []
  | k + 1 => v.getLsbD k :: bitsMsb v k

/-- `(v << 1) | b`. 10_state.md R35. -/
def shiftIn {w : Nat} (v : BitVec w) (b : Bit) : BitVec w :=
  (v <<< 1) ||| (BitVec.ofBool b).setWidth w

/-- `shift(F, v)`: the bit enters at the least significant end and is counted. 42_decoder.md R176. -/
def FieldReg.shift {w c : Nat} (f : FieldReg w c) (b : Bit) : FieldReg w c :=
  { v := shiftIn f.v b, n := f.n + 1 }

/-- A one-bit field that holds 1. -/
def FieldReg.isOne {c : Nat} (f : FieldReg 1 c) : Bool := f.v.getLsbD 0

/-- A one-bit field that was received and holds 1. 42_decoder.md R191. -/
def FieldReg.gotOne {c : Nat} (f : FieldReg 1 c) : Bool := f.n = 1 && f.isOne

/-- The effective length `min(d, 8)`. 30_encoding.md R83. -/
def dlcEff (d : BitVec 4) : Nat := min d.toNat Config.maxDataBytes

/-- The base-ID field of an extended identifier, `id[28:18]`. 20_memory.md R65, 43_encoder.md R222. -/
def baseIdOf (id : BitVec 29) : BitVec 11 := ((id &&& 0x1FFC0000#29) >>> 18).setWidth 11

/-- The extended-ID field, `id[17:0]`. 20_memory.md R65, 43_encoder.md R222. -/
def extIdOf (id : BitVec 29) : BitVec 18 := (id &&& 0x3FFFF#29).setWidth 18

/-- `(base << 18) | ext`. 42_decoder.md R191. -/
def joinId (base : BitVec 11) (ext : BitVec 18) : BitVec 29 :=
  (base.setWidth 29 <<< 18) ||| ext.setWidth 29

/-- The decoder's remote-request bit, the true RTR of the format received. 42_decoder.md R180. -/
def FieldRegs.remote (f : FieldRegs) : Bool := if f.ide.isOne then f.rtr.isOne else f.rtrSrr.isOne

/-- Byte `i` of `k` complete bytes of the data register, `r` further bits having been received:
`(v >> (r + 8*(k-1-i))) & 0xFF`. 42_decoder.md R191. -/
def dataByte (v : BitVec 64) (k r i : Nat) : Byte := (v >>> (r + 8 * (k - 1 - i))).setWidth 8

/-- The complete data bytes among `n` received data bits. 42_decoder.md R191. -/
def dataBytes (v : BitVec 64) (n : Nat) : List Byte :=
  (List.range (n / 8)).map (dataByte v (n / 8) (n % 8))

/-- `message()`: the logical message of the field registers as they stand. 42_decoder.md R191. -/
def FieldRegs.message (f : FieldRegs) : Message :=
  let ext := f.ide.gotOne
  { identifier := if ext then joinId f.base.v f.ext.v else f.base.v.setWidth 29
    isExtended := ext
    isRemoteRequest := if ext then f.rtr.gotOne else f.rtrSrr.gotOne
    data := dataBytes f.data.v f.data.n.toNat }

/-- The staged data `[ENC.data[0], ..., ENC.data[ENC.len - 1]]`. 43_encoder.md R225. -/
def EncState.message (e : EncState) : List Byte := e.data.toList.take e.len.toNat

/-! ### Legal ranges (60_exceptions.md R267) -/

/-- `CRC_INIT`'s `BAD_OPERAND`: `poly = 0`. 40_crc.md R122. -/
def badPoly (poly : BitVec 32) : Bool := poly = 0

/-- `CRC_FIELD`'s `BAD_OPERAND`: `width = 0 or width > 32`. 40_crc.md R126. -/
def badWidth (width : BitVec 6) : Bool := width = 0 || Config.crcMaxWidth < width.toNat

/-- `ENC_HDR`'s `BAD_OPERAND`: `len > 8`. 43_encoder.md R221. -/
def badLen (len : BitVec 4) : Bool := Config.maxDataBytes < len.toNat

end Sys2Proof.Machine
end

