-- ==== Sys2Proof/Machine/Engines.lean ====
section
/-! DEFINITION. The CRC engine (40_crc.md) and the stuffing engine (41_stuffing.md) as functions on their
states, used by the standalone instances, the decoder and the encoder alike. -/

namespace Sys2Proof.Machine

/-! ### CRC engine -/

/-- `clz32(p)`: the leading zero bits of `p`. 40_crc.md R121. -/
def clz32 (p : BitVec 32) : Nat := ((bitsMsb p 32).takeWhile fun b => !b).length

/-- `crc_new(p)`. 40_crc.md R121. -/
def crcNew (p : BitVec 32) : CrcState :=
  { poly := p, width := BitVec.ofNat 6 (32 - clz32 p), reg := 0, nbits := 0, value := 0 }

/-- The remainder register after one division step by the generator `x^W + poly`. 40_crc.md R123. -/
def crcDivide (poly : BitVec 32) (W : Nat) (reg : BitVec 33) (b : Bit) : BitVec 33 :=
  let t := shiftIn reg b
  if t.getLsbD W then t ^^^ ((1#33 <<< W) ||| poly.setWidth 33) else t

/-- `crc_step(s, b)`. 40_crc.md R123. -/
def crcStep (s : CrcState) (b : Bit) : CrcState :=
  { s with reg := crcDivide s.poly s.width.toNat s.reg b, nbits := s.nbits + 1 }

/-- Bits fed in order. -/
def crcFeed (s : CrcState) (bits : List Bit) : CrcState := bits.foldl crcStep s

/-- `crc_field(s, v, N)`. 40_crc.md R125. -/
def crcField {w : Nat} (s : CrcState) (v : BitVec w) (N : Nat) : CrcState := crcFeed s (bitsMsb v N)

/-- `crc_finalize(s)`; the value returned is the new `value` register. 40_crc.md R127. -/
def crcFinalize (s : CrcState) : CrcState :=
  let padded := crcFeed s (List.replicate s.width.toNat false)
  { padded with value := padded.reg.setWidth 32 &&& maskBits 32 s.width.toNat }

/-! ### Stuffing engine -/

/-- `run_b`. 41_stuffing.md R142. -/
def StuffState.run (s : StuffState) (b : Bit) : BitVec 3 := if b then s.run1 else s.run0

/-- `run_b <- n`. -/
def StuffState.setRun (s : StuffState) (b : Bit) (n : BitVec 3) : StuffState :=
  if b then { s with run1 := n } else { s with run0 := n }

/-- `tot_b <- tot_b + 1 (mod 2^16)`. 41_stuffing.md R144. -/
def StuffState.bumpTot (s : StuffState) (b : Bit) : StuffState :=
  if b then { s with tot1 := s.tot1 + 1 } else { s with tot0 := s.tot0 + 1 }

/-- `seed(s, b)`. 41_stuffing.md R142. -/
def StuffState.seed (s : StuffState) (b : Bit) : StuffState :=
  if b then { s with run0 := 0, run1 := 1 } else { s with run0 := 1, run1 := 0 }

/-- A fresh engine has counted no bit. 10_state.md R25, 41_stuffing.md R142. -/
def StuffState.uncounted (s : StuffState) : Bool := s.run0 = 0 && s.run1 = 0

/-- `run_b <- run_b + 1`, held at `STUFF_TRIGGER`: a run counter never exceeds 5 (10_state.md R24,
70_reset_and_hazards.md R295). The hold takes effect only where the directions are mixed (log 5). -/
def StuffState.countRun (s : StuffState) (b : Bit) : StuffState :=
  s.setRun b (if (s.run b).toNat < Config.stuffTrigger then s.run b + 1
    else BitVec.ofNat 3 Config.stuffTrigger)

/-- The run of `b` has reached `STUFF_TRIGGER`. -/
def StuffState.full (s : StuffState) (b : Bit) : Bool := (s.run b).toNat = Config.stuffTrigger

/-- `stf_destuff(s, b)`. 41_stuffing.md R144, R146. -/
def stfDestuff (s : StuffState) (b : Bit) : StuffClass × StuffState :=
  if s.en = false then (.data, s)
  else if s.viol then (.violation, s)
  else if s.uncounted then (.data, s.seed b)
  else if s.run b = 0 then
    if s.full (!b) then (.stuff, (s.seed b).bumpTot b) else (.data, s.seed b)
  else if s.full b then (.violation, { s with viol := true })
  else (.data, s.countRun b)

/-- `stf_stuff(s, b)`. 41_stuffing.md R148. -/
def stfStuff (s : StuffState) (b : Bit) : List StuffBit × StuffState :=
  if s.en = false then ([⟨b, false⟩], s)
  else
    let t := if s.uncounted || s.run b = 0 then s.seed b else s.countRun b
    if t.full b then ([⟨b, false⟩, ⟨!b, true⟩], (t.seed (!b)).bumpTot (!b)) else ([⟨b, false⟩], t)

/-- `stf_stuff` over a sequence from a given engine: the bits emitted and the engine left. -/
def stuffBits (s : StuffState) : List Bit → List StuffBit × StuffState
  | [] => ([], s)
  | b :: bs =>
    let r := stfStuff s b
    let rest := stuffBits r.2 bs
    (r.1 ++ rest.1, rest.2)

/-- `stuff_seq(x)`. 41_stuffing.md R155. -/
def stuffSeq (x : List Bit) : List StuffBit := (stuffBits .fresh x).1

/-- `stf_destuff` over a sequence from a given engine: the class of each bit and the engine left. -/
def destuffClasses (s : StuffState) : List Bit → List StuffClass × StuffState
  | [] => ([], s)
  | b :: bs =>
    let r := stfDestuff s b
    let rest := destuffClasses r.2 bs
    (r.1 :: rest.1, rest.2)

/-- The bits classed `DATA`, or `none` if any bit is a violation, from a given engine. -/
def destuffBits (s : StuffState) : List Bit → Option (List Bit)
  | [] => some []
  | b :: bs =>
    match stfDestuff s b with
    | (.data, t) => (destuffBits t bs).map (b :: ·)
    | (.stuff, t) => destuffBits t bs
    | (.violation, _) => none

/-- `destuff_seq(y)`; `none` is `VIOLATION`. 41_stuffing.md R155. -/
def destuffSeq (y : List Bit) : Option (List Bit) := destuffBits .fresh y

end Sys2Proof.Machine
end

