-- ==== Sys2Proof/Machine/Datapath.lean ====
section
/-! DEFINITION. The encode function (43_encoder.md R220 to R234), used by `ENC_RUN` and by the round-trip
verifier, and the verifier's comparison (44_roundtrip.md R247). -/

namespace Sys2Proof.Machine

/-- A field on its way to the wire: its label and its value at its width. -/
structure WireField where
  label : Label
  width : Nat
  value : BitVec 32
deriving DecidableEq, Repr

/-- A field of width `n` with its value. -/
def wireField {n : Nat} (label : Label) (v : BitVec n) : WireField :=
  { label := label, width := n, value := v.setWidth 32 }

/-- A one-bit field. -/
def wireBit (label : Label) (b : Bit) : WireField := wireField label (BitVec.ofBool b)

/-- The bits of a field in wire order. 20_memory.md R63. -/
def WireField.bits (f : WireField) : List Bit := bitsMsb f.value f.width

/-- Format selection: a standard frame exactly for an identifier of at most 0x7FF. 43_encoder.md R222. -/
def isStandardId (id : BitVec 29) : Bool := id.toNat ≤ Config.idMaxStd

/-- The data sent: none for a remote request. 43_encoder.md R233. -/
def sentBytes (rtr : Bool) (data : List Byte) : List Byte := if rtr then [] else data

/-- The DLC written: 0 for a remote request, else the data length. 43_encoder.md R224. -/
def sentDlc (rtr : Bool) (data : List Byte) : BitVec 4 :=
  if rtr then 0 else BitVec.ofNat 4 data.length

/-- The field values, less the CRC. 43_encoder.md R222, R224. -/
def headerFields (id : BitVec 29) (rtr : Bool) (data : List Byte) : FrameFields :=
  if isStandardId id then
    { base := id.setWidth 11, rtrSrr := rtr, ide := dominant, ext := none, rtr := none, r1 := none,
      r0 := dominant, dlc := sentDlc rtr data, data := sentBytes rtr data, crc := 0 }
  else
    { base := baseIdOf id, rtrSrr := recessive, ide := recessive, ext := some (extIdOf id),
      rtr := some rtr, r1 := some dominant, r0 := dominant, dlc := sentDlc rtr data,
      data := sentBytes rtr data, crc := 0 }

/-- The data segments `D<i>`, `D<i+1>`, .... 43_encoder.md R229. -/
def dataWire (i : Nat) : List Byte → List WireField
  | [] => []
  | b :: bs => wireField (.d i) b :: dataWire (i + 1) bs

/-- The fields from SOF through the last data byte, in wire order. 43_encoder.md R226,
30_encoding.md R78, R79. -/
def FrameFields.wire (f : FrameFields) : List WireField :=
  [wireBit .sof dominant, wireField .id f.base, wireBit (if f.ide then .srr else .rtr) f.rtrSrr,
    wireBit .ide f.ide]
  ++ (f.ext.map (wireField .eid)).toList
  ++ (f.rtr.map (wireBit .rtr)).toList
  ++ (f.r1.map (wireBit .r1)).toList
  ++ [wireBit .r0 f.r0, wireField .dlc f.dlc]
  ++ dataWire 0 f.data

/-- The frame CRC: the fields fed at their own widths to a fresh engine, then finalized.
43_encoder.md R226, 40_crc.md R131. -/
def frameCrc (fs : List WireField) : BitVec 15 :=
  (crcFinalize (fs.foldl (fun c f => crcField c f.value f.width)
    (crcNew Config.canCrcPoly))).value.setWidth 15

/-- The stuffing pass, a segment for each field. 43_encoder.md R227. -/
def stuffFields (s : StuffState) : List WireField → List Segment × StuffState
  | [] => ([], s)
  | f :: fs =>
    let r := stuffBits s f.bits
    let rest := stuffFields r.2 fs
    (⟨f.label, r.1⟩ :: rest.1, rest.2)

/-- A segment of `n` unstuffed recessive bits. -/
def recessiveSegment (label : Label) (n : Nat) : Segment :=
  ⟨label, List.replicate n ⟨recessive, false⟩⟩

/-- The tail of every frame. 43_encoder.md R228. -/
def tailSegments : List Segment :=
  [recessiveSegment .crcDel 1, recessiveSegment .ack 1, recessiveSegment .ackDel 1,
    recessiveSegment .eof Config.eofBits, recessiveSegment .ifs Config.ifsBits]

/-- A bit in the `{0,1}` form. 30_encoding.md R93. -/
def StuffBit.char01 (b : StuffBit) : Char := if b.bit then '1' else '0'

/-- A bit in the annotated form: a stuff bit is `x` or `y`. 30_encoding.md R93. -/
def StuffBit.charxy (b : StuffBit) : Char :=
  if b.isStuff then (if b.bit then 'y' else 'x') else b.char01

/-- The text of a label. 30_encoding.md R94. -/
def Label.text : Label → List Char
  | .sof => "SOF".toList | .id => "ID".toList | .rtr => "RTR".toList | .srr => "SRR".toList
  | .ide => "IDE".toList | .eid => "EID".toList | .r1 => "R1".toList | .r0 => "R0".toList
  | .dlc => "DLC".toList | .d i => 'D' :: Nat.toDigits 10 i | .crc => "CRC".toList
  | .crcDel => "CRC_DEL".toList | .ack => "ACK".toList | .ackDel => "ACK_DEL".toList
  | .eof => "EOF".toList | .ifs => "IFS".toList

/-- `encode(id, rtr, data)`. 43_encoder.md R220, R226 to R231; 30_encoding.md R109. -/
def encodeFrame (id : BitVec 29) (rtr : Bool) (data : List Byte) : EncodeResult :=
  let header := headerFields id rtr data
  let fields := { header with crc := frameCrc header.wire }
  let stuffed := stuffFields .fresh (fields.wire ++ [wireField .crc fields.crc])
  let segments := stuffed.1 ++ tailSegments
  let bits := segments.flatMap Segment.bits
  { fields := fields
    bits := bits
    text01 := bits.map StuffBit.char01
    textxy := bits.map StuffBit.charxy
    segments := segments
    tot0 := stuffed.2.tot0
    tot1 := stuffed.2.tot1 }

/-- `verify(msg, raw)`: whether the re-encoded bit values are the received ones, of equal number, and the
segments. 44_roundtrip.md R247, R249. -/
def verify (msg : Message) (raw : List RawSymbol) : Bool × List Segment :=
  let enc := encodeFrame msg.identifier msg.isRemoteRequest msg.data
  (enc.bits.map StuffBit.bit = raw.map RawSymbol.value, enc.segments)

end Sys2Proof.Machine
end

