-- ==== Sys2Proof/Machine/Flags.lean ====
section
/-! DEFINITION. The block's flags and what is computed from them: the in-frame condition, the class of an
entry, the outcome of a frame and its primary violation. -/

namespace Sys2Proof.Machine

/-- The decoder is in a frame exactly when its stage is not `SOF`. 10_state.md R42, R54. -/
def DecState.inFrame (d : DecState) : Bool := d.stage != .sof

/-- The stages whose bits are fed to the frame CRC. 42_decoder.md R176. -/
def Stage.crcCovered : Stage → Bool
  | .sof | .arbitrationId | .rtrOrSrr | .ide | .extendedId | .rtr | .r1 | .r0 | .dlc | .data => true
  | .crc | .crcDelimiter | .ackSlot | .ackDelimiter | .eof | .ifs | .ended | .hardFail => false

/-- The class of a code, from its range. 60_exceptions.md R275. -/
def EntryCode.cls (c : EntryCode) : EntryClass :=
  if c.code.toNat ≤ 0x0F then .fatal
  else if c.code.toNat ≤ 0x1F then .soft
  else if c.code.toNat ≤ 0x2F then .internal
  else .diagnostic

/-- Whether an entry has a class. -/
def Entry.hasClass (k : EntryClass) (e : Entry) : Bool := e.code.cls = k

/-- The code of a stuff violation names the polarity of the run. 41_stuffing.md R147, 42_decoder.md R175. -/
def stuffRunCode (v : Bit) : EntryCode := if v then .stuffRun1 else .stuffRun0

/-- `outcome_of(viol)`. 60_exceptions.md R276. -/
def outcomeOf (viol : List Entry) : FrameOutcome :=
  if viol.any (Entry.hasClass .internal) then .internalError
  else if viol.any (Entry.hasClass .fatal) then .fatalFailure
  else if viol ≠ [] then .softFailure
  else .success

/-- `primary_of(viol, outcome)`. 60_exceptions.md R277; a frame has at most one fatal entry (R278). -/
def primaryOf (viol : List Entry) : FrameOutcome → Option Entry
  | .success => none
  | .softFailure => viol.head?
  | .fatalFailure => viol.find? (Entry.hasClass .fatal)
  | .internalError => viol.find? (Entry.hasClass .internal)

end Sys2Proof.Machine
end

