-- ==== Sys2Proof/Machine/Ops.lean ====
section
/-! DEFINITION. The named operations: responses and rejection, violation and diagnostic entries, HARD_FAIL
entry and return, and the end of a frame. -/

namespace Sys2Proof.Machine

/-- What a step answers. -/
abbrev StepResult := Host.Outcome State Fault Refusal

/-! ### The command port -/

/-- A response is appended at the port. 30_encoding.md R107, 20_memory.md R69. -/
def State.answer (s : State) (r : Response) : State := { s with responses := s.responses ++ [r] }

/-- `respond(fields)`: the command ends with status `OK`. 00_scope.md R13. -/
def respond (payload : Payload) (s : State) : StepResult := .next (s.answer ⟨.ok, payload⟩)

/-- `reject(status)`: no state change, an empty payload. 60_exceptions.md R266. -/
def reject (status : Status) (s : State) : StepResult := .next (s.answer ⟨status, .empty⟩)

/-! ### Frame lifecycle and entries -/

/-- `frame_init()`: everything but `DEC.seq` fresh. 42_decoder.md R170. -/
def frameInit (d : DecState) : DecState := { DecState.fresh with seq := d.seq }

/-- `violate(code, stage, pos)`. 00_scope.md R13. -/
def violate (d : DecState) (code : EntryCode) (stage : Stage) (pos : Option Pos) : DecState :=
  { d with viol := d.viol ++ [⟨code, stage, pos⟩] }

/-- `diag(code, stage, pos)`. 00_scope.md R13. -/
def diagnose (d : DecState) (code : EntryCode) (stage : Stage) (pos : Option Pos) : DecState :=
  { d with diag := d.diag ++ [⟨code, stage, pos⟩] }

/-! ### HARD_FAIL entry and return -/

/-- `enter_hard_fail()`, the block's only "trap": stage, scan count and stuffing switch change, and every
other register keeps the frame as it stood. 42_decoder.md R192, 60_exceptions.md R281. -/
def enterHardFail (d : DecState) : DecState :=
  { d with stage := .hardFail, recRun := 0, stf := { d.stf with en := false } }

/-- A fatal violation on a symbol: the entry is recorded, then HARD_FAIL is entered.
42_decoder.md R175, R187, R188. -/
def failFrame (d : DecState) (code : EntryCode) (stage : Stage) (pos : Pos) : DecState :=
  enterHardFail (violate d code stage (some pos))

/-- The violations, the outcome and the presentation of a frame that ends: the verifier runs exactly on
success, and a mismatch is an internal error. 42_decoder.md R190, 44_roundtrip.md R246, R248. -/
def frameVerdict (d : DecState) : List Entry × FrameOutcome × Option (List Segment) :=
  match outcomeOf d.viol with
  | .success =>
    let r := verify d.fields.message d.raw
    if r.1 then (d.viol, .success, some r.2)
    else (d.viol ++ [⟨.roundtripMismatch, .ended, d.last⟩], .internalError, none)
  | .softFailure => (d.viol, .softFailure, none)
  | .fatalFailure => (d.viol, .fatalFailure, none)
  | .internalError => (d.viol, .internalError, none)

/-- The record of a frame that ends. 42_decoder.md R190, 30_encoding.md R104. -/
def frameRecord (d : DecState) : FrameRecord :=
  let verdict := frameVerdict d
  { seq := d.seq + 1
    start := d.start
    raw := d.raw
    dst := d.dst
    fields := d.fields
    crcCalc := d.crcCalc
    crcCalcValid := d.crcCalcValid
    message := d.fields.message
    outcome := verdict.2.1
    primary := primaryOf verdict.1 verdict.2.1
    violations := verdict.1
    diagnostics := d.diag
    resync := d.resync
    presentation := verdict.2.2 }

/-- `finish()`: the record is emitted and the next frame's state is fresh. 42_decoder.md R190. -/
def finish (d : DecState) : DecState × FrameRecord :=
  ({ frameInit d with seq := d.seq + 1 }, frameRecord d)

/-- The frame ends with the resynchronisation point found; the return from HARD_FAIL.
42_decoder.md R189, R196; 60_exceptions.md R282. -/
def finishAt (d : DecState) (resync : Resync) : DecState × FrameRecord :=
  finish { d with resync := resync, stage := .ended }

/-- `scan(v, pos)`: ten recessive raw bits in a row end the frame. 42_decoder.md R189. -/
def scan (d : DecState) (v : Bit) (pos : Pos) : DecState × Option FrameRecord :=
  let d := { d with recRun := if v then d.recRun + 1 else 0 }
  if d.recRun.toNat = Config.resyncRun then
    let r := finishAt d (.atPos pos)
    (r.1, some r.2)
  else (d, none)

end Sys2Proof.Machine
end

