-- ==== Sys2Proof/Machine/Control.lean ====
section
/-! DEFINITION. The family CTL: `NOP`, `RESET`, `STATUS` (45_control.md). -/

namespace Sys2Proof.Machine

/-- `NOP`. 45_control.md R256. -/
def execNop (s : State) : StepResult := respond .empty s

/-- `RESET`: every unit to its reset state; the command port is no register and is kept (log 3).
45_control.md R258. -/
def execReset (s : State) : StepResult :=
  respond .empty
    { s with
      crcu := crcNew Config.canCrcPoly
      stfu := .fresh
      dec := { frameInit s.dec with seq := 0 }
      enc := .fresh }

/-- The snapshot, in the order of 45_control.md R261. -/
def snapshot (s : State) : Snapshot :=
  { crcu := s.crcu
    stfu := s.stfu
    stage := s.dec.stage
    seq := s.dec.seq
    recRun := s.dec.recRun
    resync := s.dec.resync
    start := s.dec.start
    last := s.dec.last
    fields := s.dec.fields
    crcCalc := s.dec.crcCalc
    crcCalcValid := s.dec.crcCalcValid
    decCrc := s.dec.crc
    decStf := s.dec.stf
    rawLen := s.dec.raw.length
    dstLen := s.dec.dst.length
    violLen := s.dec.viol.length
    diagLen := s.dec.diag.length
    enc := s.enc }

/-- `STATUS`. 45_control.md R260. -/
def execStatus (s : State) : StepResult := respond (.snapshot (snapshot s)) s

end Sys2Proof.Machine
end

