-- ==== Sys2Proof/Machine/Crc.lean ====
section
/-! DEFINITION. The family CRCU: `CRC_INIT`, `CRC_BIT`, `CRC_FIELD`, `CRC_FINAL` (40_crc.md). -/

namespace Sys2Proof.Machine

/-- `CRC_INIT poly`. 40_crc.md R122. -/
def execCrcInit (poly : BitVec 32) (s : State) : StepResult :=
  if badPoly poly then reject .badOperand s
  else respond (.crcWidth (crcNew poly).width) { s with crcu := crcNew poly }

/-- `CRC_BIT b`. 40_crc.md R124. -/
def execCrcBit (b : Bit) (s : State) : StepResult :=
  respond .empty { s with crcu := crcStep s.crcu b }

/-- `CRC_FIELD width, value`. 40_crc.md R126. -/
def execCrcField (width : BitVec 6) (value : BitVec 32) (s : State) : StepResult :=
  if badWidth width then reject .badOperand s
  else respond .empty { s with crcu := crcField s.crcu value width.toNat }

/-- `CRC_FINAL`. 40_crc.md R128. -/
def execCrcFinal (s : State) : StepResult :=
  respond (.crcValue (crcFinalize s.crcu).value) { s with crcu := crcFinalize s.crcu }

end Sys2Proof.Machine
end

