-- ==== Sys2Proof/Machine/Frame.lean ====
section
/-! DEFINITION. The frame-parsing state machine (42_decoder.md R171 to R194): what one raw symbol does. -/

namespace Sys2Proof.Machine

/-! ### Stage actions on a delivered bit -/

/-- Stage `ARBITRATION_ID`. 42_decoder.md R177. -/
def stageArbitrationId (d : DecState) (v : Bit) : DecState :=
  let f := d.fields.base.shift v
  { d with
    fields := { d.fields with base := f }
    stage := if f.n.toNat = Config.baseIdBits then .rtrOrSrr else .arbitrationId }

/-- Stage `RTR_OR_SRR`: nothing is checked. 42_decoder.md R178. -/
def stageRtrOrSrr (d : DecState) (v : Bit) : DecState :=
  { d with fields := { d.fields with rtrSrr := d.fields.rtrSrr.shift v }, stage := .ide }

/-- Stage `IDE`: the bit selects the format. 42_decoder.md R178. -/
def stageIde (d : DecState) (v : Bit) : DecState :=
  { d with
    fields := { d.fields with ide := d.fields.ide.shift v }
    stage := if v then .extendedId else .r0 }

/-- Stage `EXTENDED_ID`. 42_decoder.md R179. -/
def stageExtendedId (d : DecState) (v : Bit) : DecState :=
  let f := d.fields.ext.shift v
  { d with
    fields := { d.fields with ext := f }
    stage := if f.n.toNat = Config.extIdBits then .rtr else .extendedId }

/-- Stage `RTR`. 42_decoder.md R179. -/
def stageRtr (d : DecState) (v : Bit) : DecState :=
  { d with fields := { d.fields with rtr := d.fields.rtr.shift v }, stage := .r1 }

/-- Stage `R1`: recorded and not checked. 42_decoder.md R179. -/
def stageR1 (d : DecState) (v : Bit) : DecState :=
  { d with fields := { d.fields with r1 := d.fields.r1.shift v }, stage := .r0 }

/-- Stage `R0`: recorded and not checked. 42_decoder.md R179. -/
def stageR0 (d : DecState) (v : Bit) : DecState :=
  { d with fields := { d.fields with r0 := d.fields.r0.shift v }, stage := .dlc }

/-- Stage `DLC`: on the fourth bit the length is clamped and a remote request with a nonzero DLC is a soft
violation. 42_decoder.md R180, 90_conflicts.md C3. -/
def stageDlc (d : DecState) (v : Bit) (pos : Pos) : DecState :=
  let f := d.fields.dlc.shift v
  let d := { d with fields := { d.fields with dlc := f } }
  if f.n.toNat = 4 then
    let d := if d.fields.remote && 0 < f.v.toNat
      then violate d .rtrWithNonzeroDlc .dlc (some pos) else d
    { d with stage := if 0 < dlcEff f.v then .data else .crc }
  else d

/-- Stage `DATA`: `8 * min(dlc, 8)` bits, remote frames too. 42_decoder.md R181, 90_conflicts.md C4. -/
def stageData (d : DecState) (v : Bit) : DecState :=
  let f := d.fields.data.shift v
  { d with
    fields := { d.fields with data := f }
    stage := if f.n.toNat = 8 * dlcEff d.fields.dlc.v then .crc else .data }

/-- The first CRC bit finalizes and caches the computed CRC. 42_decoder.md R182. -/
def cacheCrc (d : DecState) : DecState :=
  if d.fields.crcRx.n = 0 then
    let c := crcFinalize d.crc
    { d with crc := c, crcCalc := c.value.setWidth 15, crcCalcValid := true }
  else d

/-- Stage `CRC`. 42_decoder.md R182. -/
def stageCrc (d : DecState) (v : Bit) : DecState :=
  let d := cacheCrc d
  let f := d.fields.crcRx.shift v
  { d with
    fields := { d.fields with crcRx := f }
    stage := if f.n.toNat = Config.canCrcWidth then .crcDelimiter else .crc }

/-- Stage `CRC_DELIMITER`: the delimiter check, the stuffing switch-off, the CRC comparison.
42_decoder.md R183, R184, R185. -/
def stageCrcDelimiter (d : DecState) (v : Bit) (pos : Pos) : DecState :=
  let d := { d with fields := { d.fields with crcDel := d.fields.crcDel.shift v } }
  let d := if v then d else violate d .crcDelimDominant .crcDelimiter (some pos)
  let d := { d with stf := { d.stf with en := false } }
  let d := if d.crcCalc ≠ d.fields.crcRx.v
    then violate d .crcMismatch .crcDelimiter (some pos) else d
  { d with stage := .ackSlot }

/-- Stage `ACK_SLOT`. 42_decoder.md R186. -/
def stageAckSlot (d : DecState) (v : Bit) (pos : Pos) : DecState :=
  let d := { d with fields := { d.fields with ack := d.fields.ack.shift v } }
  let d := if v then d else violate d .ackSlotDominant .ackSlot (some pos)
  { d with stage := .ackDelimiter }

/-- Stage `ACK_DELIMITER`. 42_decoder.md R186. -/
def stageAckDelimiter (d : DecState) (v : Bit) (pos : Pos) : DecState :=
  let d := { d with fields := { d.fields with ackDel := d.fields.ackDel.shift v } }
  let d := if v then d else violate d .ackDelimDominant .ackDelimiter (some pos)
  { d with stage := .eof }

/-- Stage `EOF`: a dominant bit is fatal. 42_decoder.md R187. -/
def stageEof (d : DecState) (v : Bit) (pos : Pos) : DecState :=
  if v then
    let n := d.fields.eofN + 1
    { d with
      fields := { d.fields with eofN := n }
      stage := if n.toNat = Config.eofBits then .ifs else .eof }
  else failFrame d .eofDominant .eof pos

/-- Stage `IFS`: a dominant bit is fatal, and the third recessive bit ends the frame. 42_decoder.md R188. -/
def stageIfs (d : DecState) (v : Bit) (pos : Pos) : DecState × Option FrameRecord :=
  if v then
    let n := d.fields.ifsN + 1
    let d := { d with fields := { d.fields with ifsN := n } }
    if n.toNat = Config.ifsBits then
      let r := finish { d with stage := .ended }
      (r.1, some r.2)
    else (d, none)
  else (failFrame d .ifsDominant .ifs pos, none)

/-- What the current stage does with a delivered bit. No bit is delivered in `ENDED` or `HARD_FAIL`.
42_decoder.md R176. -/
def stageAction (d : DecState) (v : Bit) (pos : Pos) : DecState × Option FrameRecord :=
  match d.stage with
  | .sof => ({ d with stage := .arbitrationId }, none)
  | .arbitrationId => (stageArbitrationId d v, none)
  | .rtrOrSrr => (stageRtrOrSrr d v, none)
  | .ide => (stageIde d v, none)
  | .extendedId => (stageExtendedId d v, none)
  | .rtr => (stageRtr d v, none)
  | .r1 => (stageR1 d v, none)
  | .r0 => (stageR0 d v, none)
  | .dlc => (stageDlc d v pos, none)
  | .data => (stageData d v, none)
  | .crc => (stageCrc d v, none)
  | .crcDelimiter => (stageCrcDelimiter d v pos, none)
  | .ackSlot => (stageAckSlot d v pos, none)
  | .ackDelimiter => (stageAckDelimiter d v pos, none)
  | .eof => (stageEof d v pos, none)
  | .ifs => stageIfs d v pos
  | .ended => (d, none)
  | .hardFail => (d, none)

/-- The destuffed bit is recorded, and fed to the CRC in the covered stages. 42_decoder.md R176. -/
def recordBit (d : DecState) (v : Bit) : DecState :=
  { d with
    dst := d.dst ++ [v]
    crc := if d.stage.crcCovered then crcStep d.crc v else d.crc }

/-- `deliver(v, pos)`. 42_decoder.md R176. -/
def deliver (d : DecState) (v : Bit) (pos : Pos) : DecState × Option FrameRecord :=
  stageAction (recordBit d v) v pos

/-! ### One raw symbol -/

/-- What a symbol does: the decoder after it, its class, and the record it completes. -/
structure SymbolResult where
  dec : DecState
  cls : BitClass
  record : Option FrameRecord
deriving DecidableEq, Repr

/-- A bit that is no stuff bit: an annotation on it is spurious, and it is delivered.
42_decoder.md R173, R174. -/
def acceptData (d : DecState) (v : Bit) (a : Bool) (pos : Pos) : SymbolResult :=
  let r := deliver (if a then diagnose d .stuffAnnotSpurious d.stage (some pos) else d) v pos
  ⟨r.1, .data, r.2⟩

/-- `sof_stage(v, a, pos)`. 42_decoder.md R173. -/
def sofStage (d : DecState) (v : Bit) (a : Bool) (pos : Pos) : SymbolResult :=
  if v then ⟨d, .idleSkip, none⟩
  else
    acceptData
      { d with
        start := some pos
        last := some pos
        raw := [⟨dominant, a, pos⟩]
        stf := (stfDestuff d.stf dominant).2 }
      dominant a pos

/-- `in_frame(v, a, pos)`: the stuffing engine decides on the value alone, and the annotation is compared
with its decision. 42_decoder.md R174, R175. -/
def inFrameSymbol (d : DecState) (v : Bit) (a : Bool) (pos : Pos) : SymbolResult :=
  if d.stf.en then
    let r := stfDestuff d.stf v
    let d := { d with stf := r.2 }
    match r.1 with
    | .violation => ⟨failFrame d (stuffRunCode v) d.stage pos, .violation, none⟩
    | .stuff =>
      ⟨if a then d else diagnose d .stuffAnnotMissing d.stage (some pos), .stuff, none⟩
    | .data => acceptData d v a pos
  else acceptData d v a pos

/-- `internal_unreachable(pos)`. 42_decoder.md R194. -/
def internalUnreachable (d : DecState) (pos : Pos) : DecState × FrameRecord :=
  finish (violate d .internalUnreachable .ended (some pos))

/-- A symbol inside a frame is kept and its position is the latest. 42_decoder.md R172. -/
def keepSymbol (d : DecState) (v : Bit) (a : Bool) (pos : Pos) : DecState :=
  { d with raw := d.raw ++ [⟨v, a, pos⟩], last := some pos }

/-- What `DEC_BIT` does to the decoder; `openClass` is the class of the one path whose class the spec does
not state (log 6). 42_decoder.md R172. -/
def decodeSymbol (d : DecState) (v : Bit) (a : Bool) (pos : Pos) (openClass : BitClass) :
    SymbolResult :=
  if d.stage = .ended then
    let r := internalUnreachable d pos
    ⟨r.1, openClass, some r.2⟩
  else if d.stage = .sof then sofStage d v a pos
  else if d.stage = .hardFail then
    let r := scan (keepSymbol d v a pos) v pos
    ⟨r.1, .resyncScan, r.2⟩
  else inFrameSymbol (keepSymbol d v a pos) v a pos

/-- What `DEC_EOS` does to the decoder, and the record it emits. 42_decoder.md R196. -/
def decodeEos (d : DecState) : DecState × Option FrameRecord :=
  if d.stage = .sof then ({ d with seq := 0 }, none)
  else
    let d := if d.stage = .hardFail then d else violate d .streamEndedMidFrame d.stage d.last
    let r := finishAt d .endOfStream
    ({ r.1 with seq := 0 }, some r.2)

end Sys2Proof.Machine
end

