-- ==== Sys2Proof/Machine/Decoder.lean ====
section
/-! DEFINITION. The family DEC: `DEC_BIT`, `DEC_EOS`, `DEC_ABORT` (42_decoder.md). -/

namespace Sys2Proof.Machine

/-- A class from its code of 30_encoding.md R108. -/
def BitClass.ofCode (k : Fin 5) : BitClass :=
  match k with
  | 0 => .idleSkip | 1 => .data | 2 => .stuff | 3 => .violation | 4 => .resyncScan

/-- The class that the spec does not state, drawn fresh (log 6). -/
def openClass (free : Nat) : BitClass := BitClass.ofCode (Config.unreachableClass free)

/-- The free-value counter advances when a value is drawn: a `DEC_BIT` in stage `ENDED` (log 6). -/
def drawCount (d : DecState) (free : Nat) : Nat := if d.stage = .ended then free + 1 else free

/-- `DEC_BIT value, annot, line, col`. 42_decoder.md R172. -/
def execDecBit (value annot : Bit) (line col : BitVec 24) (s : State) : StepResult :=
  let r := decodeSymbol s.dec value annot ⟨line, col⟩ (openClass s.free)
  respond (.decBit r.cls r.dec.stage r.record)
    { s with dec := r.dec, free := drawCount s.dec s.free }

/-- `DEC_EOS`. 42_decoder.md R196. -/
def execDecEos (s : State) : StepResult :=
  respond (.decEos (decodeEos s.dec).2) { s with dec := (decodeEos s.dec).1 }

/-- `DEC_ABORT`. 42_decoder.md R198. -/
def execDecAbort (s : State) : StepResult := respond .empty { s with dec := frameInit s.dec }

end Sys2Proof.Machine
end

