-- ==== Sys2Proof/Machine/Encoder.lean ====
section
/-! DEFINITION. The family ENC: `ENC_HDR`, `ENC_BYTE`, `ENC_RUN` (43_encoder.md). -/

namespace Sys2Proof.Machine

/-- `ENC_HDR id, rtr, len`: the staged bytes are kept. 43_encoder.md R221. -/
def execEncHdr (id : BitVec 29) (rtr : Bit) (len : BitVec 4) (s : State) : StepResult :=
  if badLen len then reject .badOperand s
  else respond .empty { s with enc := { s.enc with id := id, rtr := rtr, len := len } }

/-- `ENC.data[index] <- byte`. 43_encoder.md R223. -/
def stageByte (e : EncState) (index : BitVec 3) (byte : Byte) : EncState :=
  { e with data := e.data.set index.toNat byte index.isLt }

/-- `ENC_BYTE index, byte`. 43_encoder.md R223. -/
def execEncByte (index : BitVec 3) (byte : Byte) (s : State) : StepResult :=
  respond .empty { s with enc := stageByte s.enc index byte }

/-- `ENC_RUN`: nothing is written. 43_encoder.md R225. -/
def execEncRun (s : State) : StepResult :=
  respond (.encoded (encodeFrame s.enc.id s.enc.rtr s.enc.message)) s

end Sys2Proof.Machine
end

