-- ==== Sys2Proof/Machine/Stuffing.lean ====
section
/-! DEFINITION. The family STFU: `STF_RESET`, `STF_DESTUFF`, `STF_STUFF`, `STF_ENABLE` (41_stuffing.md). -/

namespace Sys2Proof.Machine

/-- `STF_RESET`. 41_stuffing.md R141. -/
def execStfReset (s : State) : StepResult := respond .empty { s with stfu := .fresh }

/-- `STF_DESTUFF b`: a violation is a result, not an error. 41_stuffing.md R143. -/
def execStfDestuff (b : Bit) (s : State) : StepResult :=
  respond (.destuffed (stfDestuff s.stfu b).1) { s with stfu := (stfDestuff s.stfu b).2 }

/-- `STF_STUFF b`. 41_stuffing.md R150. -/
def execStfStuff (b : Bit) (s : State) : StepResult :=
  respond (.stuffed (stfStuff s.stfu b).1) { s with stfu := (stfStuff s.stfu b).2 }

/-- `STF_ENABLE b`: only the flag changes. 41_stuffing.md R152. -/
def execStfEnable (b : Bit) (s : State) : StepResult :=
  respond .empty { s with stfu := { s.stfu with en := b } }

end Sys2Proof.Machine
end

