-- ==== Sys2Proof/Syntax.lean ====
section
/-! DEFINITION. The commands of the block, one constructor per row of spec/opcode_table.json. -/

namespace Sys2Proof

/-- A command with its operands, each at exactly the width its format gives it
(30_encoding.md R96 to R101). -/
inductive Instr where
  | nop
  | reset
  | status
  | crcInit (poly : BitVec 32)
  | crcBit (b : Bit)
  | crcField (width : BitVec 6) (value : BitVec 32)
  | crcFinal
  | stfReset
  | stfDestuff (b : Bit)
  | stfStuff (b : Bit)
  | stfEnable (b : Bit)
  | decBit (value annot : Bit) (line col : BitVec 24)
  | decEos
  | decAbort
  | encHdr (id : BitVec 29) (rtr : Bit) (len : BitVec 4)
  | encByte (index : BitVec 3) (byte : Byte)
  | encRun
deriving DecidableEq, Repr

end Sys2Proof
end

