-- ==== Sys2Proof/Machine/Dispatch.lean ====
section
/-! DEFINITION. One arm per command: the meaning it calls. -/

namespace Sys2Proof.Machine

def exec (i : Instr) (s : State) : Host.Outcome State Fault Refusal :=
  match i with
  | .nop => Sys2Proof.Machine.execNop s
  | .reset => Sys2Proof.Machine.execReset s
  | .status => Sys2Proof.Machine.execStatus s
  | .crcInit poly => Sys2Proof.Machine.execCrcInit poly s
  | .crcBit b => Sys2Proof.Machine.execCrcBit b s
  | .crcField width value => Sys2Proof.Machine.execCrcField width value s
  | .crcFinal => Sys2Proof.Machine.execCrcFinal s
  | .stfReset => Sys2Proof.Machine.execStfReset s
  | .stfDestuff b => Sys2Proof.Machine.execStfDestuff b s
  | .stfStuff b => Sys2Proof.Machine.execStfStuff b s
  | .stfEnable b => Sys2Proof.Machine.execStfEnable b s
  | .decBit value annot line col => Sys2Proof.Machine.execDecBit value annot line col s
  | .decEos => Sys2Proof.Machine.execDecEos s
  | .decAbort => Sys2Proof.Machine.execDecAbort s
  | .encHdr id rtr len => Sys2Proof.Machine.execEncHdr id rtr len s
  | .encByte index byte => Sys2Proof.Machine.execEncByte index byte s
  | .encRun => Sys2Proof.Machine.execEncRun s

end Sys2Proof.Machine
end

