-- ==== Sys2Proof/Decode.lean ====
section
/-! DEFINITION. Command words to commands (30_encoding.md R95 to R103) and back. -/

namespace Sys2Proof

/-- The 17 opcodes of 30_encoding.md R96. -/
inductive Opcode where
  | nop | reset | status
  | crcInit | crcBit | crcField | crcFinal
  | stfReset | stfDestuff | stfStuff | stfEnable
  | decBit | decEos | decAbort
  | encHdr | encByte | encRun
deriving DecidableEq, Repr

/-- The seven operand formats of 30_encoding.md R95. -/
inductive Format where
  | f0 | fb | fp | fw | fd | fh | fy
deriving DecidableEq, Repr

/-- Why a word is no command (60_exceptions.md R266, checks 1 and 2). -/
inductive DecodeError where
  /-- The opcode byte is not in the opcode map. -/
  | illegalOpcode
  /-- A reserved bit of the command's format is 1. -/
  | reservedNonzero
deriving DecidableEq, Repr

/-- The opcode byte `cmd[63:56]` of each command. 30_encoding.md R96. -/
def Opcode.code : Opcode → BitVec 8
  | .nop => 0x01 | .reset => 0x02 | .status => 0x03
  | .crcInit => 0x10 | .crcBit => 0x11 | .crcField => 0x12 | .crcFinal => 0x13
  | .stfReset => 0x18 | .stfDestuff => 0x19 | .stfStuff => 0x1A | .stfEnable => 0x1B
  | .decBit => 0x20 | .decEos => 0x21 | .decAbort => 0x22
  | .encHdr => 0x30 | .encByte => 0x31 | .encRun => 0x32

/-- The opcode map read the other way; every opcode not listed is illegal. 30_encoding.md R96, R103. -/
def Opcode.ofCode (c : BitVec 8) : Option Opcode :=
  match c.toNat with
  | 0x01 => some .nop | 0x02 => some .reset | 0x03 => some .status
  | 0x10 => some .crcInit | 0x11 => some .crcBit | 0x12 => some .crcField | 0x13 => some .crcFinal
  | 0x18 => some .stfReset | 0x19 => some .stfDestuff | 0x1A => some .stfStuff
  | 0x1B => some .stfEnable
  | 0x20 => some .decBit | 0x21 => some .decEos | 0x22 => some .decAbort
  | 0x30 => some .encHdr | 0x31 => some .encByte | 0x32 => some .encRun
  | _ => none

/-- The format column of 30_encoding.md R96. -/
def Opcode.format : Opcode → Format
  | .nop | .reset | .status | .crcFinal | .stfReset | .decEos | .decAbort | .encRun => .f0
  | .crcBit | .stfDestuff | .stfStuff | .stfEnable => .fb
  | .crcInit => .fp
  | .crcField => .fw
  | .decBit => .fd
  | .encHdr => .fh
  | .encByte => .fy

/-- The bits `hi` down to `lo`, set. -/
def bitRange (hi lo : Nat) : BitVec 64 := maskBits 64 (hi + 1 - lo) <<< lo

/-- The reserved bits of each format. 30_encoding.md R97 to R101. -/
def Format.reserved : Format → BitVec 64
  | .f0 => bitRange 55 0
  | .fb => bitRange 55 1
  | .fp => bitRange 55 32
  | .fw => bitRange 55 38
  | .fd => bitRange 7 2
  | .fh => bitRange 31 29 ||| bitRange 39 33 ||| bitRange 55 44
  | .fy => bitRange 55 11

/-- The field `cmd[lo+n-1:lo]`. -/
def cmdField (w : Command) (lo n : Nat) : BitVec n := w.extractLsb' lo n

/-- Operand extraction, format by format. 30_encoding.md R97 to R101. -/
def Opcode.operands (op : Opcode) (w : Command) : Instr :=
  match op with
  | .nop => .nop
  | .reset => .reset
  | .status => .status
  | .crcInit => .crcInit (cmdField w 0 32)
  | .crcBit => .crcBit (w.getLsbD 0)
  | .crcField => .crcField (cmdField w 32 6) (cmdField w 0 32)
  | .crcFinal => .crcFinal
  | .stfReset => .stfReset
  | .stfDestuff => .stfDestuff (w.getLsbD 0)
  | .stfStuff => .stfStuff (w.getLsbD 0)
  | .stfEnable => .stfEnable (w.getLsbD 0)
  | .decBit => .decBit (w.getLsbD 0) (w.getLsbD 1) (cmdField w 32 24) (cmdField w 8 24)
  | .decEos => .decEos
  | .decAbort => .decAbort
  | .encHdr => .encHdr (cmdField w 0 29) (w.getLsbD 32) (cmdField w 40 4)
  | .encByte => .encByte (cmdField w 8 3) (cmdField w 0 8)
  | .encRun => .encRun

/-- Decoding a command word: the opcode first, then the reserved bits (60_exceptions.md R266). Operand
ranges are the meanings' to check (R266, check 3; log 4). -/
def decode (w : Command) : Except DecodeError Instr :=
  match Opcode.ofCode (cmdField w 56 8) with
  | none => .error .illegalOpcode
  | some op =>
    if w &&& op.format.reserved = 0 then .ok (op.operands w) else .error .reservedNonzero

/-- The opcode of a command. -/
def Instr.opcode : Instr → Opcode
  | .nop => .nop
  | .reset => .reset
  | .status => .status
  | .crcInit _ => .crcInit
  | .crcBit _ => .crcBit
  | .crcField _ _ => .crcField
  | .crcFinal => .crcFinal
  | .stfReset => .stfReset
  | .stfDestuff _ => .stfDestuff
  | .stfStuff _ => .stfStuff
  | .stfEnable _ => .stfEnable
  | .decBit _ _ _ _ => .decBit
  | .decEos => .decEos
  | .decAbort => .decAbort
  | .encHdr _ _ _ => .encHdr
  | .encByte _ _ => .encByte
  | .encRun => .encRun

/-- The operand bits `cmd[55:0]` of a command, reserved bits 0, written from the most significant field
down. 30_encoding.md R97 to R101. -/
def Instr.operandBits : Instr → BitVec 56
  | .nop | .reset | .status | .crcFinal | .stfReset | .decEos | .decAbort | .encRun => 0#56
  | .crcBit b | .stfDestuff b | .stfStuff b | .stfEnable b => 0#55 ++ BitVec.ofBool b
  | .crcInit poly => 0#24 ++ poly
  | .crcField width value => 0#18 ++ width ++ value
  | .decBit value annot line col =>
    line ++ col ++ 0#6 ++ BitVec.ofBool annot ++ BitVec.ofBool value
  | .encHdr id rtr len => 0#12 ++ len ++ 0#7 ++ BitVec.ofBool rtr ++ 0#3 ++ id
  | .encByte index byte => 0#45 ++ index ++ byte

/-- The command word of a command. 30_encoding.md R95. -/
def encode (i : Instr) : Command := i.opcode.code ++ i.operandBits

/-- The command an opcode-table word of `nbits` bits decodes to. The table numbers a command's bits as
30_encoding.md R95 does, and a command is one 64-bit word; every bit from `nbits` up is 0. -/
def decodeTableWord (nbits w : Nat) : Option Instr :=
  match decode (BitVec.ofNat 64 (w % 2 ^ nbits)) with
  | .ok i => some i
  | .error _ => none

end Sys2Proof
end

