-- ==== Sys2Proof/Machine/Port.lean ====
section
/-! DEFINITION. Taking a command word at the port, and answering a word that is no command. -/

namespace Sys2Proof.Machine

/-- The status of a word that does not decode. 60_exceptions.md R266. -/
def statusOfError : DecodeError → Status
  | .illegalOpcode => .illegalOpcode
  | .reservedNonzero => .reservedNonzero

/-- The oldest pending command word, and the state with it taken. 20_memory.md R69. -/
def takeCommand (s : State) : Option (Command × State) :=
  match s.cmds with
  | [] => none
  | w :: rest => some (w, { s with cmds := rest })

/-- A command word placed so that it is the next one taken (log 1). -/
def placeFirst (s : State) (w : Command) : State := { s with cmds := w :: s.cmds }

/-- The 64-bit command word that an opcode-table word of `nbits` bits is: a command is one word, numbered
as the table numbers it, and every bit from `nbits` up is 0. 30_encoding.md R95, 20_memory.md R67. -/
def tableCommand (nbits w : Nat) : Command := BitVec.ofNat 64 (w % 2 ^ nbits)

end Sys2Proof.Machine
end

