-- ==== Sys2Proof/Machine/Step.lean ====
section
/-! DEFINITION. One step of the block. -/

namespace Sys2Proof.Machine

/-- The block takes the oldest pending command word, checks it and runs it to completion (00_scope.md R7,
60_exceptions.md R266). With no word pending it does nothing and holds all state
(70_reset_and_hazards.md R296; log 1). -/
def step (s : State) : Host.Outcome State Fault Refusal :=
  match takeCommand s with
  | none => .next s
  | some (w, t) =>
    match decode w with
    | .ok i => exec i t
    | .error e => reject (statusOfError e) t

/-- The state in which the next step takes exactly this command word: the port holds it first (log 1). -/
def State.withFetchWord (s : State) (nbits w : Nat) : State := placeFirst s (tableCommand nbits w)

end Sys2Proof.Machine
end

