-- ==== Sys2Proof/Machine/BitSource.lean ====
section
/-! DEFINITION. The Bit Source at the core's boundary (30_encoding.md R86 to R92): text to commands. It is
not part of the core (00_scope.md R5) and holds no state of the block (log 10). -/

namespace Sys2Proof.Machine

/-- The value and the annotation of a bit character. 30_encoding.md R86. -/
def bitChar (c : Char) : Option (Bit × Bool) :=
  match c with
  | '0' => some (false, false)
  | '1' => some (true, false)
  | 'x' | 'X' => some (false, true)
  | 'y' | 'Y' => some (true, true)
  | _ => none

/-- `\r` or `\n`. 30_encoding.md R87. -/
def isNewline (c : Char) : Bool := c = '\r' || c = '\n'

/-- Space, tab, vertical tab, form feed. 30_encoding.md R88. -/
def isSkipped (c : Char) : Bool :=
  c = ' ' || c = '\t' || c = Char.ofNat 0x0B || c = Char.ofNat 0x0C

/-- `DEC_BIT` for a symbol at a line and column, carried modulo 2^24. 30_encoding.md R90, R91. -/
def symbolCommand (s : Bit × Bool) (line col : Nat) : Instr :=
  .decBit s.1 s.2 (BitVec.ofNat 24 line) (BitVec.ofNat 24 col)

/-- The scan of the text from a line and column. Two different newline characters in a row are one
newline. 30_encoding.md R87 to R92. -/
def bitSourceFrom (line col : Nat) : List Char → List Instr
  | [] => [.decEos]
  | [c] =>
    if isNewline c then [.decEos]
    else
      match bitChar c with
      | some s => [symbolCommand s line col, .decEos]
      | none => [.decEos]
  | c :: c' :: rest =>
    if isNewline c then
      if isNewline c' && c' != c then bitSourceFrom (line + 1) 1 rest
      else bitSourceFrom (line + 1) 1 (c' :: rest)
    else
      match bitChar c with
      | some s => symbolCommand s line col :: bitSourceFrom line (col + 1) (c' :: rest)
      | none => bitSourceFrom line (if isSkipped c then col + 1 else col) (c' :: rest)

/-- The commands the Bit Source issues for a text. 30_encoding.md R91, R92. -/
def bitSource (text : List Char) : List Instr := bitSourceFrom 1 1 text

/-! ### Pseudo-commands (30_encoding.md R111) -/

/-- `DEC_TEXT "s"`. -/
def decText (text : List Char) : List Instr := bitSource text

/-- `DEC_BITS` from a column on: the column is the character's 1-based index in the string. -/
def decBitsFrom (col : Nat) : List Char → List Instr
  | [] => []
  | c :: rest =>
    match bitChar c with
    | some s => symbolCommand s 1 col :: decBitsFrom (col + 1) rest
    | none => decBitsFrom (col + 1) rest

/-- `DEC_BITS "s"`. -/
def decBits (text : List Char) : List Instr := decBitsFrom 1 text

/-- The `ENC_BYTE`s of a message from an index on, the index modulo 8 (log 10). -/
def encBytesFrom (i : Nat) : List Byte → List Instr
  | [] => []
  | b :: bs => .encByte (BitVec.ofNat 3 i) b :: encBytesFrom (i + 1) bs

/-- `ENC_MSG id, rtr, [b0, ..., bk-1]`, the expansion of 30_encoding.md R111 for `k` of at most 8. For more than 8
bytes the spec gives no expansion: DESIGN CHOICE (log 10), `len` is then `k` modulo 16 and an index is taken
modulo 8. -/
def encMsg (id : BitVec 29) (rtr : Bit) (data : List Byte) : List Instr :=
  .encHdr id rtr (BitVec.ofNat 4 data.length) :: (encBytesFrom 0 data ++ [.encRun])

/-- `CRC_BYTES [b0, ...]`. -/
def crcBytes (data : List Byte) : List Instr := data.map fun b => .crcField 8 (b.setWidth 32)

end Sys2Proof.Machine
end

