-- ==== Sys2Proof/Safety.lean ====
section
/-! DEFINITION. What a sound state of the block is, in the terms the claims use. -/

namespace Sys2Proof.Machine

/-- A CRC engine between commands: its width is the position of the generator's highest set bit and its
remainder and value lie below `2^width`. 10_state.md R22, 40_crc.md R121. -/
abbrev CrcState.Inv (s : CrcState) : Prop :=
  1 ≤ s.width.toNat ∧ 2 ^ (s.width.toNat - 1) ≤ s.poly.toNat ∧ s.poly.toNat < 2 ^ s.width.toNat ∧
    s.reg.toNat < 2 ^ s.width.toNat ∧ s.value.toNat < 2 ^ s.width.toNat

/-- At most one polarity has a run. 10_state.md R25. -/
abbrev StuffState.OneRun (s : StuffState) : Prop := s.run0 = 0 ∨ s.run1 = 0

/-- A stuffing engine between commands: at most one polarity has a run, and no run passes `STUFF_TRIGGER`.
10_state.md R24, R25; 70_reset_and_hazards.md R295. -/
abbrev StuffState.Bounded (s : StuffState) : Prop :=
  s.OneRun ∧ s.run0.toNat ≤ Config.stuffTrigger ∧ s.run1.toNat ≤ Config.stuffTrigger

/-- A field filled in stage `home` when the decoder is in stage `S`: empty before its stage, not yet full
in it, full after it. Stage codes are in forward order. 42_decoder.md R193. -/
abbrev filled (S home : Stage) (full n : Nat) : Prop :=
  if S.code.toNat < home.code.toNat then n = 0 else if S = home then n < full else n = full

/-- The received-bit counts of a decoder in stage `S` of the forward order. 42_decoder.md R193. -/
structure FieldRegs.CountsAt (S : Stage) (f : FieldRegs) : Prop where
  base : filled S .arbitrationId 11 f.base.n.toNat
  rtrSrr : filled S .rtrOrSrr 1 f.rtrSrr.n.toNat
  ide : filled S .ide 1 f.ide.n.toNat
  extended : f.ide.isOne = true →
    filled S .extendedId 18 f.ext.n.toNat ∧ filled S .rtr 1 f.rtr.n.toNat ∧
      filled S .r1 1 f.r1.n.toNat
  standard : f.ide.isOne = false →
    f.ext.n = 0 ∧ f.rtr.n = 0 ∧ f.r1.n = 0 ∧ S ≠ .extendedId ∧ S ≠ .rtr ∧ S ≠ .r1
  r0 : filled S .r0 1 f.r0.n.toNat
  dlc : filled S .dlc 4 f.dlc.n.toNat
  data : filled S .data (8 * dlcEff f.dlc.v) f.data.n.toNat
  crcRx : filled S .crc 15 f.crcRx.n.toNat
  crcDel : filled S .crcDelimiter 1 f.crcDel.n.toNat
  ack : filled S .ackSlot 1 f.ack.n.toNat
  ackDel : filled S .ackDelimiter 1 f.ackDel.n.toNat
  eof : filled S .eof 7 f.eofN.toNat
  ifs : filled S .ifs 3 f.ifsN.toNat

/-- The bits the field registers hold, in wire order: each value's received bits, first received first, and
the recessive bits counted in EOF and IFS. 10_state.md R35, 20_memory.md R63. -/
def FieldRegs.receivedBits (f : FieldRegs) : List Bit :=
  bitsMsb f.base.v f.base.n.toNat ++ bitsMsb f.rtrSrr.v f.rtrSrr.n.toNat ++
  bitsMsb f.ide.v f.ide.n.toNat ++ bitsMsb f.ext.v f.ext.n.toNat ++
  bitsMsb f.rtr.v f.rtr.n.toNat ++ bitsMsb f.r1.v f.r1.n.toNat ++ bitsMsb f.r0.v f.r0.n.toNat ++
  bitsMsb f.dlc.v f.dlc.n.toNat ++ bitsMsb f.data.v f.data.n.toNat ++
  bitsMsb f.crcRx.v f.crcRx.n.toNat ++ bitsMsb f.crcDel.v f.crcDel.n.toNat ++
  bitsMsb f.ack.v f.ack.n.toNat ++ bitsMsb f.ackDel.v f.ackDel.n.toNat ++
  List.replicate f.eofN.toNat recessive ++ List.replicate f.ifsN.toNat recessive

/-- The soft violations of a frame that has reached stage `S`, in their order: each check whose field is complete
and fails, and no other. 60_exceptions.md R271, R278; 42_decoder.md R180, R183, R184, R186. -/
def DecState.softEntries (S : Stage) (d : DecState) : List (EntryCode × Stage) :=
  let past := fun (home : Stage) => home.code.toNat < S.code.toNat
  (if past .dlc ∧ d.fields.remote = true ∧ 0 < d.fields.dlc.v.toNat
    then [(.rtrWithNonzeroDlc, .dlc)] else []) ++
  (if past .crcDelimiter ∧ d.fields.crcDel.isOne = false
    then [(.crcDelimDominant, .crcDelimiter)] else []) ++
  (if past .crcDelimiter ∧ d.crcCalc ≠ d.fields.crcRx.v
    then [(.crcMismatch, .crcDelimiter)] else []) ++
  (if past .ackSlot ∧ d.fields.ack.isOne = false then [(.ackSlotDominant, .ackSlot)] else []) ++
  (if past .ackDelimiter ∧ d.fields.ackDel.isOne = false
    then [(.ackDelimDominant, .ackDelimiter)] else [])

/-- A decoder between commands. -/
structure DecState.Inv (d : DecState) : Prop where
  /-- `ENDED` is transient. 10_state.md R34. -/
  notEnded : d.stage ≠ .ended
  /-- The private CRC engine keeps the CAN generator. 10_state.md R23. -/
  crc : d.crc.Inv ∧ d.crc.poly = Config.canCrcPoly
  /-- The private stuffing engine keeps its runs within the trigger. 10_state.md R25. -/
  stf : d.stf.Bounded
  /-- In stage `SOF` nothing of a frame has been received. 10_state.md R42. -/
  idle : d.stage = .sof → d = frameInit d
  /-- In a frame, the start and the latest position are those of the first and last raw symbols.
  10_state.md R37, R39. -/
  positions : d.stage ≠ .sof →
    d.start = d.raw.head?.map RawSymbol.pos ∧ d.last = d.raw.getLast?.map RawSymbol.pos ∧
      d.raw ≠ []
  /-- Outside `HARD_FAIL` the counts are those of the stage, the violations are the soft ones of the stage, and
  stuffing is on through the CRC delimiter stage. 42_decoder.md R185, R193; 60_exceptions.md R278. -/
  running : d.stage ≠ .hardFail →
    d.fields.CountsAt d.stage ∧ d.recRun = 0 ∧ d.stf.viol = false ∧
      d.stf.en = decide (d.stage.code.toNat ≤ Stage.crcDelimiter.code.toNat) ∧
      d.viol.map (fun e => (e.code, e.stage)) = d.softEntries d.stage
  /-- In `HARD_FAIL` stuffing is off, the scan is short of its run, the last violation is the one fatal
  entry, and the fields are as they stood in the stage it names. 42_decoder.md R175, R192;
  60_exceptions.md R278, R281. -/
  failed : d.stage = .hardFail →
    d.stf.en = false ∧ d.recRun.toNat < Config.resyncRun ∧
      ∃ soft e, d.viol = soft ++ [e] ∧ e.code.cls = .fatal ∧ d.fields.CountsAt e.stage ∧
        soft.map (fun e => (e.code, e.stage)) = d.softEntries e.stage
  /-- The resynchronisation point is set only as the frame ends. 42_decoder.md R189, R196. -/
  resync : d.resync = .none
  /-- The computed CRC is cached from the first CRC bit on. 42_decoder.md R182. -/
  cached : d.crcCalcValid = decide (d.fields.crcRx.n ≠ 0)
  /-- The destuffed bits of a running frame are its SOF and the bits its field registers hold.
  10_state.md R35, R37; 42_decoder.md R176. -/
  delivered : d.stage ≠ .sof → d.stage ≠ .hardFail →
    d.dst = dominant :: d.fields.receivedBits
  /-- Every delivered bit is a raw symbol. 10_state.md R37. -/
  destuffed : d.dst.length ≤ d.raw.length

/-- The block between commands. -/
structure State.Inv (s : State) : Prop where
  crcu : s.crcu.Inv
  /-- The standalone stuffing engine keeps its runs within the trigger, whichever directions ran.
  10_state.md R25, 70_reset_and_hazards.md R295. -/
  stfu : s.stfu.Bounded
  dec : s.dec.Inv
  /-- Every staged length is legal. 10_state.md R51. -/
  enc : s.enc.len.toNat ≤ Config.maxDataBytes

/-- The frame CRC covers the destuffed bits from SOF through the last data bit, and no other: while such
bits arrive, and until the first CRC bit, the engine has been fed exactly `DEC.dst`, and the cached CRC is that of
the covered bits. 30_encoding.md R82, 42_decoder.md R176, R182. -/
def DecState.CrcCovers (d : DecState) : Prop :=
  (d.stage.crcCovered = true → d.crc = crcFeed .fresh d.dst) ∧
    (d.stage = .crc → d.fields.crcRx.n = 0 → d.crc = crcFeed .fresh d.dst) ∧
    (d.fields.crcRx.n ≠ 0 → ∃ covered rest, d.dst = covered ++ rest ∧
      covered.length = (if d.fields.ide.isOne then 39 else 19) + 8 * dlcEff d.fields.dlc.v ∧
      d.crcCalc = ((crcFinalize (crcFeed .fresh covered)).value.setWidth 15))

/-- `DEC.dst` is what the stuffing engine leaves of `DEC.raw`: while stuffing is on, the private engine has
classified exactly the raw values of the frame and delivered the destuffed bits; once it is off in a running
frame, the raw slice is such a stuffed region, its CRC delimiter included, and an unstuffed tail.
10_state.md R37, 42_decoder.md R174, R185. -/
def DecState.RawDestuffs (d : DecState) : Prop :=
  d.stage ≠ .hardFail →
    ∃ region bits tail, d.raw.map RawSymbol.value = region ++ tail ∧
      destuffSeq region = some bits ∧ d.dst = bits ++ tail ∧
      d.stf = { (destuffClasses .fresh region).2 with en := d.stf.en } ∧
      (d.stf.en = true → tail = []) ∧
      (d.stf.en = false →
        bits.length = (if d.fields.ide.isOne then 55 else 35) + 8 * dlcEff d.fields.dlc.v ∧
          (destuffClasses .fresh region).1.getLast? = some .data)

end Sys2Proof.Machine
end

