-- ==== Sys2Proof/WellFormed.lean ====
section
/-! DEFINITION. Which commands have every operand in its legal range (60_exceptions.md R267). -/

namespace Sys2Proof

/-- `CRC_INIT` needs a nonzero polynomial. 40_crc.md R122. -/
def polyLegal (poly : BitVec 32) : Bool := poly != 0

/-- `CRC_FIELD` needs a width from 1 to 32. 40_crc.md R126. -/
def widthLegal (width : BitVec 6) : Bool :=
  1 ≤ width.toNat && width.toNat ≤ Config.crcMaxWidth

/-- `ENC_HDR` needs a length of at most 8. 43_encoder.md R221. -/
def lenLegal (len : BitVec 4) : Bool := len.toNat ≤ Config.maxDataBytes

/-- The three `BAD_OPERAND` conditions of 60_exceptions.md R267, negated. Every other operand's
encoding range is its legal range. -/
def Instr.wellFormed : Instr → Bool
  | .crcInit poly => polyLegal poly
  | .crcField width _ => widthLegal width
  | .encHdr _ _ len => lenLegal len
  | .nop | .reset | .status | .crcBit _ | .crcFinal | .stfReset | .stfDestuff _ | .stfStuff _
  | .stfEnable _ | .decBit .. | .decEos | .decAbort | .encByte .. | .encRun => true

end Sys2Proof
end

