-- ==== Sys2Proof/Certificates/Slice0/Obligations.lean ====
section
/-! DEFINITION. The statements about the block, one `Obligations.<Name>` each, and the vocabulary they share. -/

namespace Sys2Proof.Claims

open Sys2Proof.Machine

/-- Commands run one after another through `exec`. -/
def runAll : List Instr → State → Option State
  | [], s => some s
  | i :: is, s =>
    match exec i s with
    | .next t => runAll is t
    | .fault _ => none
    | .refused _ => none

/-- The opcode numbers of 30_encoding.md R96. -/
def legalOpcodes : List Nat :=
  [0x01, 0x02, 0x03, 0x10, 0x11, 0x12, 0x13, 0x18, 0x19, 0x1A, 0x1B, 0x20, 0x21, 0x22, 0x30, 0x31,
    0x32]

/-- The reserved bit ranges `[hi:lo]` of each opcode's format. 30_encoding.md R97 to R101. -/
def reservedRanges (op : Nat) : List (Nat × Nat) :=
  if op = 0x10 then [(55, 32)]
  else if op = 0x11 ∨ op = 0x19 ∨ op = 0x1A ∨ op = 0x1B then [(55, 1)]
  else if op = 0x12 then [(55, 38)]
  else if op = 0x20 then [(7, 2)]
  else if op = 0x30 then [(31, 29), (39, 33), (55, 44)]
  else if op = 0x31 then [(55, 11)]
  else [(55, 0)]

/-- The run of `b` set to `n`, the run of the other polarity to `m`. -/
def withRuns (e : StuffState) (b : Bit) (n m : BitVec 3) : StuffState :=
  { e with run0 := if b then m else n, run1 := if b then n else m }

/-- The stuff-bit total of `b` one higher, modulo 2^16. -/
def withTotal (e : StuffState) (b : Bit) : StuffState :=
  { e with tot0 := if b then e.tot0 else e.tot0 + 1, tot1 := if b then e.tot1 + 1 else e.tot1 }

/-- The run of `b`. -/
def runOf (e : StuffState) (b : Bit) : BitVec 3 := if b then e.run1 else e.run0

/-- `exec` of a `DEC_BIT` gives this decoder, this class and this record, and changes nothing else. -/
def DecBitGives (s : State) (v : Bit) (a : Bool) (p : Pos) (d : DecState) (cls : BitClass)
    (record : Option FrameRecord) : Prop :=
  exec (.decBit v a p.line p.col) s =
    .next { s with
      dec := d, responses := s.responses ++ [⟨.ok, .decBit cls d.stage record⟩] }

/-- The stages in which a symbol is classified and delivered. 42_decoder.md R174. -/
def Receiving (S : Stage) : Prop := S ≠ .sof ∧ S ≠ .ended ∧ S ≠ .hardFail

/-- The symbol is not a stuff bit and no violation: stuffing is off, or the engine classes it `DATA`. -/
def IsData (d : DecState) (v : Bit) : Prop := d.stf.en = false ∨ (stfDestuff d.stf v).1 = .data

/-- The decoder once a data symbol has been kept, classified, compared with its annotation and recorded, before
its stage acts on it. 42_decoder.md R172, R174, R176. -/
def received (d : DecState) (v : Bit) (a : Bool) (p : Pos) : DecState :=
  { d with
    raw := d.raw ++ [⟨v, a, p⟩]
    last := some p
    stf := if d.stf.en then (stfDestuff d.stf v).2 else d.stf
    diag := if a then d.diag ++ [⟨.stuffAnnotSpurious, d.stage, some p⟩] else d.diag
    dst := d.dst ++ [v]
    crc := if d.stage.code.toNat ≤ Stage.data.code.toNat then crcStep d.crc v else d.crc }

/-- `(v << 1) | b` and one more bit received. 10_state.md R35. -/
def shifted {w c : Nat} (f : FieldReg w c) (b : Bit) : FieldReg w c :=
  ⟨f.v <<< 1 ||| (BitVec.ofBool b).setWidth w, f.n + 1⟩

/-- The record of a frame that ends, its verdict given. 30_encoding.md R104, 42_decoder.md R190. -/
def recordOf (d : DecState) (outcome : FrameOutcome) (primary : Option Entry)
    (violations : List Entry) (presentation : Option (List Segment)) : FrameRecord :=
  { seq := d.seq + 1, start := d.start, raw := d.raw, dst := d.dst, fields := d.fields,
    crcCalc := d.crcCalc, crcCalcValid := d.crcCalcValid, message := d.fields.message,
    outcome := outcome, primary := primary, violations := violations, diagnostics := d.diag,
    resync := d.resync, presentation := presentation }

/-- The decoder after a frame has ended: everything fresh but the sequence number. 42_decoder.md R170, R190. -/
def nextFrame (seq : BitVec 32) : DecState :=
  { stage := .sof, fields := .zero, crcCalc := 0, crcCalcValid := false
    crc := ⟨0x4599, 15, 0, 0, 0⟩, stf := ⟨0, 0, 0, 0, true, false⟩
    raw := [], dst := [], viol := [], diag := [], recRun := 0, resync := .none
    start := none, last := none, seq := seq }

/-- The re-encoding of the decoded message has the raw bits' values. 44_roundtrip.md R247. -/
def Reencodes (d : DecState) : Prop :=
  (encodeFrame d.fields.message.identifier d.fields.message.isRemoteRequest
    d.fields.message.data).bits.map StuffBit.bit = d.raw.map RawSymbol.value

/-- The segments of the re-encoding. 44_roundtrip.md R248. -/
def reencodedSegments (d : DecState) : List Segment :=
  (encodeFrame d.fields.message.identifier d.fields.message.isRemoteRequest
    d.fields.message.data).segments

/-- The destuffed bits of the encoder's frame from SOF through the last data byte.
30_encoding.md R78, R79, R82. -/
def headerBits (id : BitVec 29) (rtr : Bool) (data : List Byte) : List Bit :=
  let bytes := if rtr then [] else data
  (if id.toNat ≤ 0x7FF then [false] ++ bitsMsb id 11 ++ [rtr, false]
    else [false] ++ bitsMsb (id >>> 18) 11 ++ [true, true] ++ bitsMsb id 18 ++ [rtr, false])
  ++ [false] ++ bitsMsb (BitVec.ofNat 4 bytes.length) 4 ++ bytes.flatMap fun b => bitsMsb b 8

/-- The segments of the encoder's frame less their stuff bits: each label's text and its field's bits, in wire order.
30_encoding.md R78, R79, R94; 43_encoder.md R228, R229. -/
def wireSegments (id : BitVec 29) (rtr : Bool) (data : List Byte) (crc : BitVec 15) :
    List (List Char × List Bit) :=
  let bytes := if rtr then [] else data
  [("SOF".toList, [false])] ++
  (if id.toNat ≤ 0x7FF then
    [("ID".toList, bitsMsb id 11), ("RTR".toList, [rtr]), ("IDE".toList, [false])]
  else
    [("ID".toList, bitsMsb (id >>> 18) 11), ("SRR".toList, [true]), ("IDE".toList, [true]),
      ("EID".toList, bitsMsb id 18), ("RTR".toList, [rtr]), ("R1".toList, [false])]) ++
  [("R0".toList, [false]), ("DLC".toList, bitsMsb (BitVec.ofNat 4 bytes.length) 4)] ++
  (bytes.mapIdx fun i b => ('D' :: Nat.toDigits 10 i, bitsMsb b 8)) ++
  [("CRC".toList, bitsMsb crc 15), ("CRC_DEL".toList, [true]), ("ACK".toList, [true]),
    ("ACK_DEL".toList, [true]), ("EOF".toList, List.replicate 7 true),
    ("IFS".toList, List.replicate 3 true)]

/-- The bit characters with their value and annotation. 30_encoding.md R86. -/
def charSymbols : List (Char × Bit × Bool) :=
  [('0', false, false), ('1', true, false), ('x', false, true), ('X', false, true), ('y', true, true),
    ('Y', true, true)]

/-- Line, column and an unpaired newline just read, after one more character of a text. 30_encoding.md R87 to R90. -/
def advance (s : Nat × Nat × Option Char) (c : Char) : Nat × Nat × Option Char :=
  if c = '\r' ∨ c = '\n' then
    if s.2.2 ≠ none ∧ s.2.2 ≠ some c then (s.1, s.2.1, none) else (s.1 + 1, 1, some c)
  else if c ∈ charSymbols.map Prod.fst ++ [' ', '\t', Char.ofNat 0x0B, Char.ofNat 0x0C] then
    (s.1, s.2.1 + 1, none)
  else (s.1, s.2.1, none)

/-- The `DEC_BIT` of a text's character `i`, if it is a bit character, at its position. -/
def charCommand (text : List Char) (i : Nat) : Option Instr :=
  let at' := (text.take i).foldl advance (1, 1, none)
  (text[i]?.bind fun c => charSymbols.lookup c).map fun v =>
    .decBit v.1 v.2 (BitVec.ofNat 24 at'.1) (BitVec.ofNat 24 at'.2.1)

/-- The `DEC_BIT` of a raw symbol. -/
def symbolInstr (x : RawSymbol) : Instr := .decBit x.value x.annot x.pos.line x.pos.col

/-- An entry less its position. -/
def entryShape (e : Entry) : EntryCode × Stage := (e.code, e.stage)

/-- A resynchronisation point less its position. -/
def resyncShape : Resync → Nat
  | .none => 0
  | .atPos _ => 1
  | .endOfStream => 2

/-- Two decoders that differ at most in annotations, positions and diagnostics. 30_encoding.md R85. -/
structure SameParse (d e : DecState) : Prop where
  stage : d.stage = e.stage
  fields : d.fields = e.fields
  crcCalc : d.crcCalc = e.crcCalc
  crcCalcValid : d.crcCalcValid = e.crcCalcValid
  crc : d.crc = e.crc
  stf : d.stf = e.stf
  raw : d.raw.map RawSymbol.value = e.raw.map RawSymbol.value
  dst : d.dst = e.dst
  viol : d.viol.map entryShape = e.viol.map entryShape
  recRun : d.recRun = e.recRun
  resync : resyncShape d.resync = resyncShape e.resync
  start : d.start.isSome = e.start.isSome
  last : d.last.isSome = e.last.isSome
  seq : d.seq = e.seq

/-- Two records that differ at most in annotations, positions and diagnostics. -/
structure SameRecord (q r : FrameRecord) : Prop where
  seq : q.seq = r.seq
  start : q.start.isSome = r.start.isSome
  resync : resyncShape q.resync = resyncShape r.resync
  crcCalc : q.crcCalc = r.crcCalc
  crcCalcValid : q.crcCalcValid = r.crcCalcValid
  raw : q.raw.map RawSymbol.value = r.raw.map RawSymbol.value
  dst : q.dst = r.dst
  fields : q.fields = r.fields
  message : q.message = r.message
  outcome : q.outcome = r.outcome
  primary : q.primary.map entryShape = r.primary.map entryShape
  violations : q.violations.map entryShape = r.violations.map entryShape
  presentation : q.presentation = r.presentation

end Sys2Proof.Claims

open Sys2Proof Sys2Proof.Machine Sys2Proof.Claims

/-! ### Encoding -/

/-- 30_encoding.md R95 to R101: no bit of a command's operands is dropped, at any value. -/
def Obligations.DecodeInvertsEncode : Prop := ∀ i : Instr, decode (encode i) = .ok i

/-- 30_encoding.md R95 to R102: every word that decodes is the one word of its command. -/
def Obligations.EncodeInvertsDecode : Prop := ∀ (w : Command) (i : Instr), decode w = .ok i → encode i = w

/-- Command words printed in the spec: 43_encoder.md R221, R223; 45_control.md R256; 95_test_vectors.md. -/
def Obligations.PrintedWordsDecode : Prop :=
  decode 0x0100000000000000 = .ok .nop ∧
  decode 0x1000000000004599 = .ok (.crcInit 0x4599) ∧
  decode 0x1200000800000031 = .ok (.crcField 8 0x31) ∧
  decode 0x1B00000000000000 = .ok (.stfEnable false) ∧
  decode 0x2000000100001203 = .ok (.decBit true true 1 18) ∧
  decode 0x3000020000000123 = .ok (.encHdr 0x123 false 2) ∧
  decode 0x30000801000007FF = .ok (.encHdr 0x7FF true 8) ∧
  decode 0x31000000000001CD = .ok (.encByte 1 0xCD)

/-- 60_exceptions.md R266, checks 1 and 2: the opcode is checked first, then the reserved bits. That nothing else stops a
word from decoding is the model's placement of check 3, the operands, in the command's meaning (log 4). -/
def Obligations.OpcodeIsCheckedBeforeReservedBits : Prop :=
  ∀ w : Command,
    (w.toNat / 2 ^ 56 ∉ legalOpcodes → decode w = .error .illegalOpcode) ∧
    (w.toNat / 2 ^ 56 ∈ legalOpcodes →
      (∃ r ∈ reservedRanges (w.toNat / 2 ^ 56), ∃ k, r.2 ≤ k ∧ k ≤ r.1 ∧ w.getLsbD k = true) →
      decode w = .error .reservedNonzero) ∧
    (w.toNat / 2 ^ 56 ∈ legalOpcodes →
      (∀ r ∈ reservedRanges (w.toNat / 2 ^ 56), ∀ k, r.2 ≤ k → k ≤ r.1 → w.getLsbD k = false) →
      ∃ i, decode w = .ok i)

/-! ### The command port and the step -/

/-- 00_scope.md R7, 20_memory.md R69: a step takes the oldest word and runs the command it decodes to. -/
def Obligations.StepRunsTheDecodedCommand : Prop :=
  ∀ (s : State) (w : Command) (rest : List Command) (i : Instr),
    s.cmds = w :: rest → decode w = .ok i → step s = exec i { s with cmds := rest }

/-- 60_exceptions.md R266: a word that is no command is answered with its status, and changes nothing else. -/
def Obligations.StepAnswersMalformedWords : Prop :=
  ∀ (s : State) (w : Command) (rest : List Command), s.cmds = w :: rest →
    (decode w = .error .illegalOpcode →
      step s = .next { s with
        cmds := rest, responses := s.responses ++ [⟨.illegalOpcode, .empty⟩] }) ∧
    (decode w = .error .reservedNonzero →
      step s = .next { s with
        cmds := rest, responses := s.responses ++ [⟨.reservedNonzero, .empty⟩] })

/-- The model's choice (log 1) on 70_reset_and_hazards.md R296: with no word pending a step holds all state. -/
def Obligations.StepWithoutCommandHoldsState : Prop := ∀ s : State, s.cmds = [] → step s = .next s

/-- 60_exceptions.md R268, 30_encoding.md R107: every command, on every state and operands, completes with one
response, `OK` exactly where its operands are legal, empty where it is not `OK`. -/
def Obligations.EveryCommandCompletesWithOneResponse : Prop :=
  ∀ (i : Instr) (s : State), ∃ t r,
    exec i s = .next t ∧ t.responses = s.responses ++ [r] ∧ t.cmds = s.cmds ∧
      r.status = (if i.wellFormed then .ok else .badOperand) ∧
      (r.status ≠ .ok → r.payload = .empty)

/-- 60_exceptions.md R266, R267: the three bad operands are rejected, a rejection changes nothing else, and no other
operand of any command is bad. -/
def Obligations.BadOperandsAreRejected : Prop :=
  (∀ s : State, exec (.crcInit 0) s =
    .next { s with responses := s.responses ++ [⟨.badOperand, .empty⟩] }) ∧
  (∀ (width : BitVec 6) (value : BitVec 32) (s : State), width.toNat = 0 ∨ 32 < width.toNat →
    exec (.crcField width value) s =
      .next { s with responses := s.responses ++ [⟨.badOperand, .empty⟩] }) ∧
  (∀ (id : BitVec 29) (rtr : Bit) (len : BitVec 4) (s : State), 8 < len.toNat →
    exec (.encHdr id rtr len) s =
      .next { s with responses := s.responses ++ [⟨.badOperand, .empty⟩] }) ∧
  ∀ (i : Instr) (s t : State) (payload : Payload),
    exec i s = .next t → t.responses = s.responses ++ [⟨.badOperand, payload⟩] →
    i = .crcInit 0 ∨
    (∃ width value, i = .crcField width value ∧ (width.toNat = 0 ∨ 32 < width.toNat)) ∨
    ∃ id rtr len, i = .encHdr id rtr len ∧ 8 < len.toNat

/-- 20_memory.md R69, 60_exceptions.md R268: as many steps as there are pending words take them all, and give one
response each, in order after the earlier ones. -/
def Obligations.PendingCommandsAllComplete : Prop :=
  ∀ s : State, ∃ t answers,
    Sys2Proof.core.run s.cmds.length s = .next t ∧ t.cmds = [] ∧
      t.responses = s.responses ++ answers ∧ answers.length = s.cmds.length

/-- 00_scope.md R6, 20_memory.md R68: a command of one unit leaves every other unit alone, and only `RESET` is of
all units. -/
def Obligations.CommandsStayInTheirUnit : Prop :=
  ∀ (i : Instr) (s t : State), exec i s = .next t → i ≠ .reset →
    (t.crcu ≠ s.crcu → i.opcode.code.toNat / 8 = 2) ∧
    (t.stfu ≠ s.stfu → i.opcode.code.toNat / 8 = 3) ∧
    (t.dec ≠ s.dec → i.opcode.code.toNat / 8 = 4) ∧
    (t.enc ≠ s.enc → i.opcode.code.toNat / 8 = 6)

/-! ### Reset and control -/

/-- 70_reset_and_hazards.md R291, R292: the power-on value of every register, and `RESET` leaves every register at
it. -/
def Obligations.ResetStateHoldsTheSpecValues : Prop :=
  State.reset.crcu = ⟨0x4599, 15, 0, 0, 0⟩ ∧
  State.reset.stfu = ⟨0, 0, 0, 0, true, false⟩ ∧
  State.reset.dec = nextFrame 0 ∧
  State.reset.enc.id = 0 ∧ State.reset.enc.rtr = false ∧ State.reset.enc.len = 0 ∧
  State.reset.enc.data.toList = [0, 0, 0, 0, 0, 0, 0, 0] ∧
  ∀ s : State, ∃ t, exec .reset s = .next t ∧ t.crcu = State.reset.crcu ∧
    t.stfu = State.reset.stfu ∧ t.dec = State.reset.dec ∧ t.enc = State.reset.enc

/-- 45_control.md R258: `RESET` gives every register its reset value; the port is kept (log 3). -/
def Obligations.ResetCommandRestoresResetState : Prop :=
  ∀ s : State, exec .reset s =
    .next { State.reset with
      cmds := s.cmds, responses := s.responses ++ [⟨.ok, .empty⟩], free := s.free }

/-- 45_control.md R256: `NOP` changes nothing. -/
def Obligations.NopChangesNothing : Prop :=
  ∀ s : State, exec .nop s = .next { s with responses := s.responses ++ [⟨.ok, .empty⟩] }

/-- 45_control.md R260, R261: `STATUS` reports every register and the lengths of the lists, and writes none. -/
def Obligations.StatusReportsEveryRegister : Prop :=
  ∀ s : State, ∃ q : Snapshot,
    exec .status s = .next { s with responses := s.responses ++ [⟨.ok, .snapshot q⟩] } ∧
    q.crcu = s.crcu ∧ q.stfu = s.stfu ∧ q.stage = s.dec.stage ∧ q.seq = s.dec.seq ∧
    q.recRun = s.dec.recRun ∧ q.resync = s.dec.resync ∧ q.start = s.dec.start ∧
    q.last = s.dec.last ∧ q.fields = s.dec.fields ∧ q.crcCalc = s.dec.crcCalc ∧
    q.crcCalcValid = s.dec.crcCalcValid ∧ q.decCrc = s.dec.crc ∧ q.decStf = s.dec.stf ∧
    q.rawLen = s.dec.raw.length ∧ q.dstLen = s.dec.dst.length ∧ q.violLen = s.dec.viol.length ∧
    q.diagLen = s.dec.diag.length ∧ q.enc = s.enc

/-! ### CRC engine -/

/-- 40_crc.md R121, R122: `CRC_INIT` infers the width as the position of the highest set bit, and the engine is
fresh. -/
def Obligations.CrcInitInfersWidth : Prop :=
  ∀ (poly : BitVec 32) (s : State), poly ≠ 0 → ∃ W : BitVec 6,
    1 ≤ W.toNat ∧ W.toNat ≤ 32 ∧ 2 ^ (W.toNat - 1) ≤ poly.toNat ∧ poly.toNat < 2 ^ W.toNat ∧
    exec (.crcInit poly) s =
      .next { s with
        crcu := ⟨poly, W, 0, 0, 0⟩, responses := s.responses ++ [⟨.ok, .crcWidth W⟩] }

/-- 40_crc.md R123, R124: `CRC_BIT` shifts the bit in and, where bit `W` comes out 1, subtracts the generator
`x^W + poly`; the remainder stays below `2^W`. -/
def Obligations.CrcBitDividesOneStep : Prop :=
  ∀ (b : Bit) (s : State), s.crcu.Inv → ∃ r : BitVec 33,
    exec (.crcBit b) s =
      .next { s with
        crcu := { s.crcu with reg := r, nbits := s.crcu.nbits + 1 }
        responses := s.responses ++ [⟨.ok, .empty⟩] } ∧
    (2 * s.crcu.reg.toNat + b.toNat < 2 ^ s.crcu.width.toNat →
      r.toNat = 2 * s.crcu.reg.toNat + b.toNat) ∧
    (2 ^ s.crcu.width.toNat ≤ 2 * s.crcu.reg.toNat + b.toNat →
      r.toNat = (2 * s.crcu.reg.toNat + b.toNat) ^^^ (2 ^ s.crcu.width.toNat + s.crcu.poly.toNat)) ∧
    r.toNat < 2 ^ s.crcu.width.toNat

/-- 40_crc.md R125, R126: `CRC_FIELD` is `CRC_BIT` of bits `width-1` down to 0 of the value, and adds `width` to
`nbits`. -/
def Obligations.CrcFieldFeedsMsbFirst : Prop :=
  ∀ (width : BitVec 6) (value : BitVec 32) (s : State), 1 ≤ width.toNat → width.toNat ≤ 32 →
    ∃ c : CrcState,
      exec (.crcField width value) s =
        .next { s with crcu := c, responses := s.responses ++ [⟨.ok, .empty⟩] } ∧
      (runAll ((List.range width.toNat).map fun k =>
        .crcBit (value.getLsbD (width.toNat - 1 - k))) s).map State.crcu = some c ∧
      c.nbits = s.crcu.nbits + width.setWidth 32 ∧
      c.poly = s.crcu.poly ∧ c.width = s.crcu.width ∧ c.value = s.crcu.value

/-- 40_crc.md R127, R128: `CRC_FINAL` feeds `width` zero bits, and its value is the remainder left, which is below
`2^width`. -/
def Obligations.CrcFinalPadsAndReturnsRemainder : Prop :=
  ∀ s : State, s.crcu.Inv → ∃ r : BitVec 33,
    exec .crcFinal s =
      .next { s with
        crcu := { s.crcu with
          reg := r
          nbits := s.crcu.nbits + s.crcu.width.setWidth 32
          value := r.setWidth 32 }
        responses := s.responses ++ [⟨.ok, .crcValue (r.setWidth 32)⟩] } ∧
    (runAll (List.replicate s.crcu.width.toNat (.crcBit false)) s).map (fun t => t.crcu.reg) =
      some r ∧
    r.toNat < 2 ^ s.crcu.width.toNat

open Polynomial in
/-- 40_crc.md R129 (derived there): the finalized value is the remainder of `M(x) * x^W` by
`G(x) = x^W + sum of p[i] x^i` over GF(2), the first bit fed being the highest power. -/
def Obligations.CrcIsPolynomialRemainder : Prop :=
  ∀ (p : BitVec 32) (m : List Bit), p ≠ 0 →
    let poly : Nat → (Nat → Bool) → (ZMod 2)[X] := fun n f =>
      ∑ i ∈ Finset.range n, if f i then X ^ i else 0
    let W := (crcNew p).width.toNat
    poly W (crcFinalize (crcFeed (crcNew p) m)).value.getLsbD =
      (poly m.length (fun i => m.getD (m.length - 1 - i) false) * X ^ W) %ₘ
        (X ^ W + poly 32 p.getLsbD)

/-- 40_crc.md R130: for 0x4599 the engine gives the shift-register CRC of CAN, fed with the message bits and no
padding. -/
def Obligations.CanCrcIsTheShiftRegisterForm : Prop :=
  ∀ m : List Bit,
    ((crcFinalize (crcFeed (crcNew 0x4599) m)).value.setWidth 15 : BitVec 15) =
      m.foldl (fun (r : BitVec 15) b =>
        if Bool.xor b (r.getLsbD 14) then (r <<< 1) ^^^ 0x4599 else r <<< 1) 0

/-- 40_crc.md R132 (derived there): the CRC of the XOR of two equal-length messages is the XOR of their CRCs. -/
def Obligations.CrcIsLinear : Prop :=
  ∀ (p : BitVec 32) (m n : List Bit), p ≠ 0 → m.length = n.length →
    (crcFinalize (crcFeed (crcNew p) (List.zipWith Bool.xor m n))).value =
      (crcFinalize (crcFeed (crcNew p) m)).value ^^^ (crcFinalize (crcFeed (crcNew p) n)).value

/-! ### Stuffing engine -/

/-- 41_stuffing.md R141, R152: `STF_RESET` writes all six registers, `STF_ENABLE` the enable flag only. -/
def Obligations.StfResetAndEnableWriteTheirRegisters : Prop :=
  (∀ s : State, exec .stfReset s =
    .next { s with
      stfu := { run0 := 0, run1 := 0, tot0 := 0, tot1 := 0, en := true, viol := false }
      responses := s.responses ++ [⟨.ok, .empty⟩] }) ∧
  (∀ (b : Bit) (s : State), exec (.stfEnable b) s =
    .next { s with
      stfu := { s.stfu with en := b }
      responses := s.responses ++ [⟨.ok, .empty⟩] })

/-- 41_stuffing.md R142, R143, R144: what `STF_DESTUFF` answers and writes; the counting of runs is for runs
within the bound of 10_state.md R25, which every step keeps (`EveryStepKeepsTheInvariant`). -/
def Obligations.StfDestuffClassifies : Prop :=
  ∀ (b : Bit) (s : State),
    let gives := fun (c : StuffClass) (e : StuffState) =>
      exec (.stfDestuff b) s =
        .next { s with stfu := e, responses := s.responses ++ [⟨.ok, .destuffed c⟩] }
    let e := s.stfu
    (e.en = false → gives .data e) ∧
    (e.en = true → e.viol = true → gives .violation e) ∧
    (e.en = true → e.viol = false → e.run0.toNat ≤ 5 → e.run1.toNat ≤ 5 →
      (runOf e b = 0 → runOf e (!b) = 5 → gives .stuff (withTotal (withRuns e b 1 0) b)) ∧
      (runOf e b = 0 → runOf e (!b) ≠ 5 → gives .data (withRuns e b 1 0)) ∧
      (runOf e b = 5 → gives .violation { e with viol := true }) ∧
      (runOf e b ≠ 0 → runOf e b ≠ 5 →
        gives .data (withRuns e b (runOf e b + 1) (runOf e (!b)))))

/-- 41_stuffing.md R148, R150: what `STF_STUFF` emits and writes, for a run that has not reached the trigger, as
no run of the encode direction alone has; `MixedDirectionsStayWithinTheTrigger` says what a run of 5 does. -/
def Obligations.StfStuffEmitsAndInserts : Prop :=
  ∀ (b : Bit) (s : State),
    let gives := fun (out : List StuffBit) (e : StuffState) =>
      exec (.stfStuff b) s =
        .next { s with stfu := e, responses := s.responses ++ [⟨.ok, .stuffed out⟩] }
    let e := s.stfu
    (e.en = false → gives [⟨b, false⟩] e) ∧
    (e.en = true →
      (runOf e b = 0 → gives [⟨b, false⟩] (withRuns e b 1 0)) ∧
      (runOf e b = 4 → gives [⟨b, false⟩, ⟨!b, true⟩] (withTotal (withRuns e (!b) 1 0) (!b))) ∧
      (runOf e b ≠ 0 → (runOf e b).toNat < 4 →
        gives [⟨b, false⟩] (withRuns e b (runOf e b + 1) (runOf e (!b)))))

/-- The model's reading (log 5) of 41_stuffing.md R153 under the bound of 10_state.md R25 and 70_reset_and_hazards.md
R295: where five equal bits have been destuffed, `STF_STUFF` of a sixth holds the counter at 5, so the stuff bit
is inserted; and in either direction a counted bit leaves a run, of one polarity only and of at most 5. -/
def Obligations.MixedDirectionsStayWithinTheTrigger : Prop :=
  ∀ (b : Bit) (s : State), s.stfu.Bounded → s.stfu.en = true →
    let e := s.stfu
    (runOf e b = 5 →
      exec (.stfStuff b) s =
        .next { s with
          stfu := withTotal (withRuns e (!b) 1 0) (!b)
          responses := s.responses ++ [⟨.ok, .stuffed [⟨b, false⟩, ⟨!b, true⟩]⟩] }) ∧
    (∀ t, exec (.stfStuff b) s = .next t →
      t.stfu.Bounded ∧ (t.stfu.run0 ≠ 0 ∨ t.stfu.run1 ≠ 0)) ∧
    (∀ t, e.viol = false → exec (.stfDestuff b) s = .next t →
      t.stfu.Bounded ∧ runOf t.stfu b ≠ 0)

/-- 41_stuffing.md R146: a violating bit leaves the runs as they were and the engine violated, and every later
`STF_DESTUFF` answers `VIOLATION` and changes no register. -/
def Obligations.StuffViolationIsSticky : Prop :=
  ∀ (b : Bit) (bs : List Bit) (s : State), (stfDestuff s.stfu b).1 = .violation →
    ∃ t, exec (.stfDestuff b) s = .next t ∧ t.stfu = { s.stfu with viol := true } ∧
      runAll (bs.map .stfDestuff) t =
        some { t with
          responses := t.responses ++ bs.map fun _ => ⟨.ok, .destuffed .violation⟩ }

/-- 41_stuffing.md R157 (derived there), §8 property 4 of the source: destuffing inverts stuffing for every bit
sequence, with no violation, and classes as `STUFF` exactly the inserted bits. -/
def Obligations.DestuffingInvertsStuffing : Prop :=
  ∀ x : List Bit,
    destuffSeq ((stuffSeq x).map StuffBit.bit) = some x ∧
    (destuffClasses .fresh ((stuffSeq x).map StuffBit.bit)).1 =
      (stuffSeq x).map fun b => if b.isStuff then .stuff else .data

/-- 41_stuffing.md R158 (derived there): a stuffed sequence never holds six identical bits in a row. -/
def Obligations.StuffedSequencesHaveNoRunOfSix : Prop :=
  ∀ (x front back : List Bit) (b : Bit),
    (stuffSeq x).map StuffBit.bit ≠ front ++ List.replicate 6 b ++ back

/-! ### Decoder: symbols outside a frame -/

/-- 42_decoder.md R173, R176, R177: in stage `SOF` a recessive symbol is skipped without a trace, and a dominant one,
annotated or not, starts a frame: its position is the start, it seeds the stuffing engine, it is the first raw
symbol and the first destuffed bit and is fed to the CRC. -/
def Obligations.SofStageSkipsIdleAndStartsFrames : Prop :=
  ∀ (a : Bool) (p : Pos) (s : State), s.dec.stage = .sof →
    DecBitGives s true a p s.dec .idleSkip none ∧
    (s.dec.stf = ⟨0, 0, 0, 0, true, false⟩ →
      DecBitGives s false a p
        { s.dec with
          stage := .arbitrationId
          start := some p
          last := some p
          raw := [⟨false, a, p⟩]
          dst := s.dec.dst ++ [false]
          stf := ⟨1, 0, 0, 0, true, false⟩
          crc := crcStep s.dec.crc false
          diag := if a then s.dec.diag ++ [⟨.stuffAnnotSpurious, .sof, some p⟩] else s.dec.diag }
        .data none)

/-! ### Decoder: stuffing inside a frame -/

/-- 42_decoder.md R174: a stuff bit is kept as a raw symbol and dropped: it is neither destuffed nor fed to the CRC,
and a missing annotation is a diagnostic. -/
def Obligations.StuffBitIsDropped : Prop :=
  ∀ (v a : Bool) (p : Pos) (s : State), Receiving s.dec.stage → s.dec.stf.en = true →
    (stfDestuff s.dec.stf v).1 = .stuff →
    DecBitGives s v a p
      { s.dec with
        raw := s.dec.raw ++ [⟨v, a, p⟩]
        last := some p
        stf := (stfDestuff s.dec.stf v).2
        diag := if a then s.dec.diag
          else s.dec.diag ++ [⟨.stuffAnnotMissing, s.dec.stage, some p⟩] }
      .stuff none

/-- 42_decoder.md R175, R192; 60_exceptions.md R281: a stuff violation is recorded with the polarity of its run, the
stage and the position, and enters `HARD_FAIL`; the bit is not delivered, the private engine is left violated
and switched off, and everything else stands as it was. -/
def Obligations.StuffViolationEntersHardFail : Prop :=
  ∀ (v a : Bool) (p : Pos) (s : State), Receiving s.dec.stage → s.dec.stf.en = true →
    (stfDestuff s.dec.stf v).1 = .violation →
    DecBitGives s v a p
      { s.dec with
        stage := .hardFail
        recRun := 0
        raw := s.dec.raw ++ [⟨v, a, p⟩]
        last := some p
        stf := { s.dec.stf with en := false, viol := true }
        viol := s.dec.viol ++
          [⟨if v then .stuffRun1 else .stuffRun0, s.dec.stage, some p⟩] }
      .violation none

/-! ### Decoder: stages -/

/-- 42_decoder.md R176 to R179: the header stages before DLC fill their field and move on, the IDE bit choosing the
format; SRR, r1 and r0 are not checked. -/
def Obligations.HeaderStagesFillTheirFields : Prop :=
  ∀ (v a : Bool) (p : Pos) (s : State), IsData s.dec v →
    let r := received s.dec v a p
    let f := s.dec.fields
    (s.dec.stage = .arbitrationId →
      DecBitGives s v a p
        { r with
          fields := { f with base := shifted f.base v }
          stage := if f.base.n + 1 = 11 then .rtrOrSrr else .arbitrationId } .data none) ∧
    (s.dec.stage = .rtrOrSrr →
      DecBitGives s v a p
        { r with fields := { f with rtrSrr := shifted f.rtrSrr v }, stage := .ide } .data none) ∧
    (s.dec.stage = .ide →
      DecBitGives s v a p
        { r with
          fields := { f with ide := shifted f.ide v }
          stage := if v then .extendedId else .r0 } .data none) ∧
    (s.dec.stage = .extendedId →
      DecBitGives s v a p
        { r with
          fields := { f with ext := shifted f.ext v }
          stage := if f.ext.n + 1 = 18 then .rtr else .extendedId } .data none) ∧
    (s.dec.stage = .rtr →
      DecBitGives s v a p
        { r with fields := { f with rtr := shifted f.rtr v }, stage := .r1 } .data none) ∧
    (s.dec.stage = .r1 →
      DecBitGives s v a p
        { r with fields := { f with r1 := shifted f.r1 v }, stage := .r0 } .data none) ∧
    (s.dec.stage = .r0 →
      DecBitGives s v a p
        { r with fields := { f with r0 := shifted f.r0 v }, stage := .dlc } .data none)

/-- 42_decoder.md R180: the first three DLC bits are shifted in; on the fourth the length is clamped to 8, a remote
request with a nonzero DLC is a soft violation, and DATA follows unless the length is 0. -/
def Obligations.DlcStageClampsAndChecksRemote : Prop :=
  ∀ (v a : Bool) (p : Pos) (s : State), IsData s.dec v → s.dec.stage = .dlc →
    let r := received s.dec v a p
    let f := s.dec.fields
    let dlc := shifted f.dlc v
    let remote := if f.ide.v = 1 then f.rtr.v = 1 else f.rtrSrr.v = 1
    (f.dlc.n + 1 ≠ 4 → DecBitGives s v a p { r with fields := { f with dlc := dlc } } .data none) ∧
    (f.dlc.n + 1 = 4 →
      DecBitGives s v a p
        { r with
          fields := { f with dlc := dlc }
          stage := if 0 < min dlc.v.toNat 8 then .data else .crc
          viol := if remote ∧ 0 < dlc.v.toNat
            then s.dec.viol ++ [⟨.rtrWithNonzeroDlc, .dlc, some p⟩] else s.dec.viol } .data none)

/-- 42_decoder.md R181: DATA takes `8 * min(dlc, 8)` bits, in a remote frame too. -/
def Obligations.DataStageTakesTheClampedLength : Prop :=
  ∀ (v a : Bool) (p : Pos) (s : State), IsData s.dec v → s.dec.stage = .data →
    let f := s.dec.fields
    DecBitGives s v a p
      { received s.dec v a p with
        fields := { f with data := shifted f.data v }
        stage := if (f.data.n + 1).toNat = 8 * min f.dlc.v.toNat 8 then .crc else .data }
      .data none

/-- 42_decoder.md R182: the first CRC bit finalizes the engine and caches its 15-bit value; the received CRC bits are
not fed to the engine. -/
def Obligations.CrcStageCachesOnFirstBit : Prop :=
  ∀ (v a : Bool) (p : Pos) (s : State), IsData s.dec v → s.dec.stage = .crc →
    let r := received s.dec v a p
    let f := s.dec.fields
    let stage : Stage := if f.crcRx.n + 1 = 15 then .crcDelimiter else .crc
    (f.crcRx.n = 0 →
      DecBitGives s v a p
        { r with
          fields := { f with crcRx := shifted f.crcRx v }
          stage := stage
          crc := crcFinalize s.dec.crc
          crcCalc := (crcFinalize s.dec.crc).value.setWidth 15
          crcCalcValid := true } .data none) ∧
    (f.crcRx.n ≠ 0 →
      DecBitGives s v a p
        { r with fields := { f with crcRx := shifted f.crcRx v }, stage := stage } .data none)

/-- 42_decoder.md R183, R184, R185; 60_exceptions.md R279: on the CRC delimiter, the delimiter check comes before the
CRC comparison, both soft, and stuffing is switched off. -/
def Obligations.CrcDelimiterChecksAndSwitchesStuffingOff : Prop :=
  ∀ (v a : Bool) (p : Pos) (s : State), IsData s.dec v → s.dec.stage = .crcDelimiter →
    let r := received s.dec v a p
    let f := s.dec.fields
    DecBitGives s v a p
      { r with
        fields := { f with crcDel := shifted f.crcDel v }
        stage := .ackSlot
        stf := { r.stf with en := false }
        viol := s.dec.viol ++
          (if v then [] else [⟨.crcDelimDominant, .crcDelimiter, some p⟩]) ++
          (if s.dec.crcCalc = f.crcRx.v then [] else [⟨.crcMismatch, .crcDelimiter, some p⟩]) }
      .data none

/-- 42_decoder.md R186: the ACK slot and the ACK delimiter are recorded; a dominant one is a soft violation. -/
def Obligations.AckStagesCheckRecessive : Prop :=
  ∀ (v a : Bool) (p : Pos) (s : State), IsData s.dec v →
    let r := received s.dec v a p
    let f := s.dec.fields
    (s.dec.stage = .ackSlot →
      DecBitGives s v a p
        { r with
          fields := { f with ack := shifted f.ack v }
          stage := .ackDelimiter
          viol := s.dec.viol ++ (if v then [] else [⟨.ackSlotDominant, .ackSlot, some p⟩]) }
        .data none) ∧
    (s.dec.stage = .ackDelimiter →
      DecBitGives s v a p
        { r with
          fields := { f with ackDel := shifted f.ackDel v }
          stage := .eof
          viol := s.dec.viol ++ (if v then [] else [⟨.ackDelimDominant, .ackDelimiter, some p⟩]) }
        .data none)

/-- 42_decoder.md R187, R188, R192: recessive EOF and IFS bits are counted; a dominant one is fatal, recorded with its
stage and position, and enters `HARD_FAIL`. -/
def Obligations.TailStagesCountRecessiveAndFailOnDominant : Prop :=
  ∀ (a : Bool) (p : Pos) (s : State),
    let f := s.dec.fields
    (s.dec.stage = .eof → IsData s.dec true →
      DecBitGives s true a p
        { received s.dec true a p with
          fields := { f with eofN := f.eofN + 1 }
          stage := if f.eofN + 1 = 7 then .ifs else .eof } .data none) ∧
    (s.dec.stage = .ifs → IsData s.dec true → f.ifsN + 1 ≠ 3 →
      DecBitGives s true a p
        { received s.dec true a p with fields := { f with ifsN := f.ifsN + 1 } } .data none) ∧
    (s.dec.stage = .eof ∨ s.dec.stage = .ifs → IsData s.dec false →
      DecBitGives s false a p
        { received s.dec false a p with
          stage := .hardFail
          recRun := 0
          stf := { (received s.dec false a p).stf with en := false }
          viol := s.dec.viol ++
            [⟨if s.dec.stage = .eof then .eofDominant else .ifsDominant, s.dec.stage, some p⟩] }
        .data none)

/-! ### Decoder: the end of a frame -/

/-- 42_decoder.md R188, R190; 44_roundtrip.md R246, R248; 60_exceptions.md R276, R277: the third recessive IFS bit ends
the frame. With no violation the message is re-encoded: on equality the outcome is Success with the
re-encoding's segments, on a mismatch InternalError. With violations, all soft, it is SoftFailure with the
first of them. The next frame's state is fresh and the sequence number has advanced. -/
def Obligations.ThirdIfsBitEmitsTheRecord : Prop :=
  ∀ (a : Bool) (p : Pos) (s : State), s.dec.Inv → s.dec.stage = .ifs → s.dec.fields.ifsN = 2 →
    let d : DecState := { received s.dec true a p with fields := { s.dec.fields with ifsN := 3 } }
    let mismatch : Entry := ⟨.roundtripMismatch, .ended, some p⟩
    (s.dec.viol = [] → Reencodes d →
      DecBitGives s true a p (nextFrame (s.dec.seq + 1)) .data
        (some (recordOf d .success none [] (some (reencodedSegments d))))) ∧
    (s.dec.viol = [] → ¬ Reencodes d →
      DecBitGives s true a p (nextFrame (s.dec.seq + 1)) .data
        (some (recordOf d .internalError (some mismatch) [mismatch] none))) ∧
    (s.dec.viol ≠ [] →
      DecBitGives s true a p (nextFrame (s.dec.seq + 1)) .data
        (some (recordOf d .softFailure s.dec.viol.head? s.dec.viol none)))

/-- 42_decoder.md R189, R190; 60_exceptions.md R276, R277, R282: in `HARD_FAIL` every raw bit is kept and none is
delivered; a dominant one restarts the count, a recessive one counts, and the tenth in a row ends the frame as
FatalFailure at its position, with the fatal entry as primary. -/
def Obligations.HardFailScansForTenRecessiveBits : Prop :=
  ∀ (v a : Bool) (p : Pos) (s : State), s.dec.Inv → s.dec.stage = .hardFail →
    let d : DecState := { s.dec with raw := s.dec.raw ++ [⟨v, a, p⟩], last := some p }
    (v = false → DecBitGives s v a p { d with recRun := 0 } .resyncScan none) ∧
    (v = true → s.dec.recRun ≠ 9 →
      DecBitGives s v a p { d with recRun := s.dec.recRun + 1 } .resyncScan none) ∧
    (v = true → s.dec.recRun = 9 →
      DecBitGives s v a p (nextFrame (s.dec.seq + 1)) .resyncScan
        (some (recordOf { d with resync := .atPos p } .fatalFailure s.dec.viol.getLast?
          s.dec.viol none)))

/-- 42_decoder.md R196: `DEC_EOS` between frames emits nothing, mid-frame it ends the frame as FatalFailure with
`STREAM_ENDED_MID_FRAME` at the last position, and in `HARD_FAIL` it ends the scan with no second violation; the
sequence number restarts. -/
def Obligations.EndOfStreamReportsUnfinishedFrames : Prop :=
  ∀ s : State, s.dec.Inv →
    let gives := fun (record : Option FrameRecord) =>
      exec .decEos s = .next { s with
        dec := nextFrame 0, responses := s.responses ++ [⟨.ok, .decEos record⟩] }
    let d : DecState := { s.dec with resync := .endOfStream }
    let ended : Entry := ⟨.streamEndedMidFrame, s.dec.stage, s.dec.last⟩
    (s.dec.stage = .sof → gives none) ∧
    (Receiving s.dec.stage →
      gives (some (recordOf d .fatalFailure (some ended) (s.dec.viol ++ [ended]) none))) ∧
    (s.dec.stage = .hardFail →
      gives (some (recordOf d .fatalFailure s.dec.viol.getLast? s.dec.viol none)))

/-- 42_decoder.md R198: `DEC_ABORT` re-creates the frame-level state, keeps the sequence number and emits nothing. -/
def Obligations.AbortDiscardsTheFrame : Prop :=
  ∀ s : State, exec .decAbort s =
    .next { s with dec := nextFrame s.dec.seq, responses := s.responses ++ [⟨.ok, .empty⟩] }

/-- 42_decoder.md R172, R194: a `DEC_BIT` that finds stage `ENDED` ends the frame as InternalError. The class it
answers is a free value of the model (log 6), so it is some class, and the model's counter advances. -/
def Obligations.EndedStageIsAnInternalError : Prop :=
  ∀ (v a : Bool) (p : Pos) (s : State), s.dec.stage = .ended →
    (∀ e ∈ s.dec.viol, e.code.cls ≠ .internal) →
    let unreachable : Entry := ⟨.internalUnreachable, .ended, some p⟩
    ∃ cls, exec (.decBit v a p.line p.col) s =
      .next { s with
        dec := nextFrame (s.dec.seq + 1)
        free := s.free + 1
        responses := s.responses ++ [⟨.ok, .decBit cls .sof
          (some (recordOf s.dec .internalError (some unreachable)
            (s.dec.viol ++ [unreachable]) none))⟩] }

/-- 60_exceptions.md R275, R276, R277: the outcome is internal before fatal before soft before Success, read from the
code numbers, and the primary entry is the first of its class. -/
def Obligations.OutcomeFollowsTheWorstEntry : Prop :=
  ∀ viol : List Entry,
    let has := fun (lo hi : Nat) => ∃ e ∈ viol, lo ≤ e.code.code.toNat ∧ e.code.code.toNat ≤ hi
    (has 0x20 0x2F → outcomeOf viol = .internalError) ∧
    (¬ has 0x20 0x2F → has 0x01 0x0F → outcomeOf viol = .fatalFailure) ∧
    (¬ has 0x20 0x2F → ¬ has 0x01 0x0F → viol ≠ [] → outcomeOf viol = .softFailure) ∧
    (viol = [] → outcomeOf viol = .success) ∧
    primaryOf viol .success = none ∧
    primaryOf viol .softFailure = viol.head? ∧
    (∀ e front back, viol = front ++ e :: back → 0x01 ≤ e.code.code.toNat →
      e.code.code.toNat ≤ 0x0F → (∀ e' ∈ front, 0x0F < e'.code.code.toNat) →
      primaryOf viol .fatalFailure = some e) ∧
    (∀ e front back, viol = front ++ e :: back → 0x20 ≤ e.code.code.toNat →
      e.code.code.toNat ≤ 0x2F →
      (∀ e' ∈ front, e'.code.code.toNat < 0x20 ∨ 0x2F < e'.code.code.toNat) →
      primaryOf viol .internalError = some e)

/-- 42_decoder.md R191, 20_memory.md R64: the data register, filled bit by bit with complete bytes and up to seven
further bits, gives back exactly the complete bytes, in order. -/
def Obligations.CompleteDataBytesComeBackInOrder : Prop :=
  ∀ (bytes : List Byte) (extra : List Bit), extra.length < 8 →
    8 * bytes.length + extra.length ≤ 64 →
    dataBytes (((bytes.flatMap fun b => bitsMsb b 8) ++ extra).foldl shiftIn 0)
      (8 * bytes.length + extra.length) = bytes

/-- 30_encoding.md R85, 44_roundtrip.md R249: annotations and positions never affect the parsing: two decoders that
agree but for them still agree after symbols of the same value, whatever the annotations and positions, and answer
the same class and the same record but for them. -/
def Obligations.AnnotationsAndPositionsDoNotAffectParsing : Prop :=
  ∀ (d e : DecState) (v a b : Bool) (p q : Pos) (cls : BitClass), SameParse d e →
    let x := decodeSymbol d v a p cls
    let y := decodeSymbol e v b q cls
    SameParse x.dec y.dec ∧ x.cls = y.cls ∧ x.record.isSome = y.record.isSome ∧
      ∀ r ∈ x.record, ∀ r' ∈ y.record, SameRecord r r'

/-! ### Encoder -/

/-- 43_encoder.md R221, R223: the staging commands write their registers and nothing else, `ENC_BYTE` one byte;
`ENC_HDR` rejects a length above 8. -/
def Obligations.StagingCommandsWriteTheirRegisters : Prop :=
  (∀ (id : BitVec 29) (rtr : Bit) (len : BitVec 4) (s : State), len.toNat ≤ 8 →
    exec (.encHdr id rtr len) s =
      .next { s with
        enc := { id := id, rtr := rtr, len := len, data := s.enc.data }
        responses := s.responses ++ [⟨.ok, .empty⟩] }) ∧
  (∀ (id : BitVec 29) (rtr : Bit) (len : BitVec 4) (s : State), 8 < len.toNat →
    exec (.encHdr id rtr len) s =
      .next { s with responses := s.responses ++ [⟨.badOperand, .empty⟩] }) ∧
  (∀ (index : BitVec 3) (byte : Byte) (s : State), ∃ data : Vector Byte 8,
    exec (.encByte index byte) s =
      .next { s with
        enc := { s.enc with data := data }, responses := s.responses ++ [⟨.ok, .empty⟩] } ∧
    ∀ (k : Nat) (h : k < 8), data[k] = if k = index.toNat then byte else s.enc.data[k])

/-- 43_encoder.md R225: `ENC_RUN` answers the encoding of the staged message, its first `len` bytes, and writes
nothing. -/
def Obligations.EncRunEncodesTheStagedMessage : Prop :=
  ∀ s : State, s.enc.len.toNat ≤ 8 → ∃ data : List Byte,
    exec .encRun s =
      .next { s with
        responses := s.responses ++ [⟨.ok, .encoded (encodeFrame s.enc.id s.enc.rtr data)⟩] } ∧
    data.length = s.enc.len.toNat ∧
    ∀ (k : Nat) (h : k < 8), k < s.enc.len.toNat → data[k]? = some s.enc.data[k]

/-- 43_encoder.md R222, R224, R233; 20_memory.md R65: the fields the encoder writes, in both formats; a remote request
carries no data; the two parts of an extended identifier join to it. -/
def Obligations.EncoderWritesTheFieldValues : Prop :=
  ∀ (id : BitVec 29) (rtr : Bool) (data : List Byte),
    let f := (encodeFrame id rtr data).fields
    let bytes := if rtr then [] else data
    f.r0 = false ∧ f.dlc = BitVec.ofNat 4 bytes.length ∧ f.data = bytes ∧
    (id.toNat ≤ 0x7FF →
      f.ide = false ∧ f.base.toNat = id.toNat ∧ f.rtrSrr = rtr ∧
        f.ext = none ∧ f.rtr = none ∧ f.r1 = none) ∧
    (0x7FF < id.toNat →
      f.ide = true ∧ f.rtrSrr = true ∧ f.rtr = some rtr ∧ f.r1 = some false ∧
        ∃ ext, f.ext = some ext ∧ id.toNat = f.base.toNat * 2 ^ 18 + ext.toNat)

/-- 30_encoding.md R78, R79, R81, R82, R93, R94; 43_encoder.md R226 to R229: the frame is the stuffing of the header, the
data and their CRC, followed by thirteen unstuffed recessive bits; its segments are the labelled fields in wire
order, a stuff bit in the segment of the bit it follows; the two texts render its bits. -/
def Obligations.EncodedFrameIsStuffedHeaderCrcAndTail : Prop :=
  ∀ (id : BitVec 29) (rtr : Bool) (data : List Byte),
    let header := headerBits id rtr data
    let r := encodeFrame id rtr data
    r.fields.crc.setWidth 32 = (crcFinalize (crcFeed (crcNew 0x4599) header)).value ∧
    r.bits = stuffSeq (header ++ bitsMsb r.fields.crc 15) ++
      List.replicate 13 ⟨true, false⟩ ∧
    r.bits = r.segments.flatMap Segment.bits ∧
    (r.segments.map fun g =>
        (g.label.text, (g.bits.filter fun x => !x.isStuff).map StuffBit.bit)) =
      wireSegments id rtr data r.fields.crc ∧
    (∀ g ∈ r.segments, g.bits.head?.map StuffBit.isStuff = some false) ∧
    r.text01 = (r.bits.map fun x => if x.bit then '1' else '0') ∧
    r.textxy = r.bits.map fun x =>
      if x.isStuff then (if x.bit then 'y' else 'x') else if x.bit then '1' else '0'

/-- 43_encoder.md R230 (derived there): the frame has its destuffed length and the stuff bits counted in the totals. -/
def Obligations.EncodedLengthCountsStuffBits : Prop :=
  ∀ (id : BitVec 29) (rtr : Bool) (data : List Byte), data.length ≤ 8 →
    let r := encodeFrame id rtr data
    r.bits.length = (if id.toNat ≤ 0x7FF then 47 else 67) + 8 * r.fields.data.length +
      r.tot0.toNat + r.tot1.toNat

/-- 30_encoding.md R86, R93: the annotated text of any bits reads back as the symbols of those bits, a stuff bit
annotated, at their columns. -/
def Obligations.AnnotatedTextReadsBack : Prop :=
  ∀ bits : List StuffBit,
    decBits (bits.map StuffBit.charxy) =
      bits.mapIdx fun k b => .decBit b.bit b.isStuff 1 (BitVec.ofNat 24 (k + 1))

/-- 30_encoding.md R86 to R91: for every text the Bit Source issues one `DEC_BIT` for each bit character, in order, with
its value, annotation and position, and then one `DEC_EOS`. -/
def Obligations.BitSourceEndsEveryStream : Prop :=
  ∀ text : List Char,
    bitSource text = (List.range text.length).filterMap (charCommand text) ++ [.decEos]

/-! ### Round trip -/

/-- 44_roundtrip.md R254, 43_encoder.md R232 (derived there), §8 property 1 of the source: decoding the bits of any
encoded message, with whatever annotations and positions, gives one record, Success, with the message sent and
the encoder's segments. -/
def Obligations.DecodingAnEncodedFrameGivesTheMessage : Prop :=
  ∀ (id : BitVec 29) (rtr : Bool) (data : List Byte) (symbols : List RawSymbol) (s : State),
    data.length ≤ 8 → s.dec = nextFrame s.dec.seq →
    symbols.map RawSymbol.value = (encodeFrame id rtr data).bits.map StuffBit.bit →
    ∃ (answers : List Response) (record : FrameRecord),
      runAll (symbols.map symbolInstr) s =
        some { s with
          dec := nextFrame (s.dec.seq + 1)
          responses := s.responses ++ answers ++ [⟨.ok, .decBit .data .sof (some record)⟩] } ∧
      (∀ r ∈ answers, ∃ cls stage, r = ⟨.ok, .decBit cls stage none⟩) ∧
      record.outcome = .success ∧ record.violations = [] ∧ record.seq = s.dec.seq + 1 ∧
      record.message = ⟨id, decide (0x7FF < id.toNat), rtr, if rtr then [] else data⟩ ∧
      record.presentation = some (encodeFrame id rtr data).segments ∧
      (symbols.map RawSymbol.annot = (encodeFrame id rtr data).bits.map StuffBit.isStuff →
        record.diagnostics = [])

/-- 44_roundtrip.md R251 (derived there): a frame that ends with no violation passes the verifier exactly when it is
canonical: an extended identifier above 0x7FF, a recessive SRR, dominant reserved bits, and a DLC of at most 8 in a
data frame. -/
def Obligations.VerifierPassesExactlyCanonicalFrames : Prop :=
  ∀ (a : Bool) (p : Pos) (s : State), s.dec.Inv → s.dec.CrcCovers → s.dec.RawDestuffs →
    s.dec.stage = .ifs → s.dec.fields.ifsN = 2 → s.dec.viol = [] →
    let f := s.dec.fields
    let remote := if f.ide.v = 1 then f.rtr.v = 1 else f.rtrSrr.v = 1
    (Reencodes (received s.dec true a p) ↔
      (f.ide.v = 1 → 0x7FF < (f.base.v ++ f.ext.v).toNat ∧ f.rtrSrr.v = 1 ∧ f.r1.v = 0) ∧
        f.r0.v = 0 ∧ (¬ remote → f.dlc.v.toNat ≤ 8))

/-! ### Invariants -/

/-- The invariant holds at reset. -/
def Obligations.ResetMeetsTheInvariants : Prop :=
  State.reset.Inv ∧ State.reset.dec.CrcCovers ∧ State.reset.dec.RawDestuffs

/-- 10_state.md R22, R25, R34, R42; 42_decoder.md R193; 60_exceptions.md R278: every step keeps the invariant of the
whole block. -/
def Obligations.EveryStepKeepsTheInvariant : Prop :=
  ∀ s t : State, s.Inv → step s = .next t → t.Inv

/-- 30_encoding.md R82, 42_decoder.md R176, R182: every step keeps it that the frame CRC covers exactly the destuffed
bits from SOF through the last data bit. -/
def Obligations.EveryStepKeepsTheCrcCoverage : Prop :=
  ∀ s t : State, s.Inv → s.dec.CrcCovers → step s = .next t → t.dec.CrcCovers

/-- 10_state.md R37, 42_decoder.md R174, R185: every step keeps it that the destuffed bits are what the stuffing
engine leaves of the raw slice, through the CRC delimiter, and the unstuffed tail. -/
def Obligations.EveryStepKeepsRawAndDestuffedTogether : Prop :=
  ∀ s t : State, s.Inv → s.dec.RawDestuffs → step s = .next t → t.dec.RawDestuffs
end

