-- ==== Sys2Proof/Laws/Encoding.lean ====
section
/-! SUPPORT. The opcode map both ways, and the fields of an encoded word. -/

namespace Sys2Proof

/-- The opcode map is one to one. 30_encoding.md R96. -/
theorem ofCode_code (op : Opcode) : Opcode.ofCode op.code = some op := by cases op <;> rfl

/-- A byte stands for an opcode only where it is its code. 30_encoding.md R96. -/
theorem code_of_ofCode {c : BitVec 8} {op : Opcode} (h : Opcode.ofCode c = some op) :
    op.code = c := by
  unfold Opcode.ofCode at h
  split at h <;> first
    | (cases h; apply BitVec.eq_of_toNat_eq; simp_all [Opcode.code])
    | cases h

/-- The opcode byte of an encoded word. -/
theorem cmdField_opcode_encode (i : Instr) : cmdField (encode i) 56 8 = i.opcode.code := by
  apply BitVec.eq_of_getLsbD_eq
  intro k hk
  simp only [cmdField, encode, BitVec.getLsbD_extractLsb', BitVec.getLsbD_append, hk, decide_true,
    Bool.true_and]
  rw [if_neg (by omega), Nat.add_sub_cancel_left]

/-- A bit of an encoded word below the opcode is the operand bit. -/
theorem getLsbD_encode (i : Instr) (k : Nat) (h : k < 56) :
    (encode i).getLsbD k = i.operandBits.getLsbD k := by
  rw [encode, BitVec.getLsbD_append, if_pos h]

/-- Which bits a bit range holds. -/
theorem getLsbD_bitRange (hi lo k : Nat) (h : hi < 64) :
    (bitRange hi lo).getLsbD k = (decide (lo ≤ k) && decide (k ≤ hi)) := by
  by_cases hk : k < 64
  · simp only [bitRange, maskBits, BitVec.getLsbD_shiftLeft, BitVec.getLsbD_ofNat, hk, decide_true,
      Bool.true_and, Nat.testBit_two_pow_sub_one]
    rw [Bool.eq_iff_iff]
    simp only [Bool.and_eq_true, Bool.not_eq_true', decide_eq_true_eq, decide_eq_false_iff_not]
    omega
  · rw [BitVec.getLsbD_of_ge _ _ (by omega)]
    symm
    simp only [Bool.and_eq_false_iff, decide_eq_false_iff_not]
    omega

end Sys2Proof
end

