-- ==== Sys2Proof/Laws/Operands.lean ====
section
/-! SUPPORT. What the operand forms compute: field bits, field registers, and the legal ranges. -/

namespace Sys2Proof.Machine

/-! ### Legal ranges -/

/-- `CRC_INIT` rejects exactly the ill-formed polynomial. -/
theorem badPoly_eq (poly : BitVec 32) : badPoly poly = !polyLegal poly := by
  simp only [badPoly, polyLegal, bne, Bool.not_not]
  rfl

/-- `CRC_FIELD` rejects the widths 0 and above 32. -/
theorem badWidth_iff (width : BitVec 6) :
    badWidth width = true ↔ width.toNat = 0 ∨ 32 < width.toNat := by
  simp only [badWidth, Config.crcMaxWidth, Bool.or_eq_true, decide_eq_true_eq]
  exact or_congr_left
    ⟨fun h => by rw [h]; rfl, fun h => BitVec.eq_of_toNat_eq (by rw [h]; rfl)⟩

/-- `CRC_FIELD` rejects exactly the ill-formed widths. -/
theorem badWidth_eq (width : BitVec 6) : badWidth width = !widthLegal width := by
  rw [Bool.eq_iff_iff, badWidth_iff]
  simp only [widthLegal, Config.crcMaxWidth, Bool.not_eq_true', Bool.and_eq_false_iff,
    decide_eq_false_iff_not]
  omega

/-- `ENC_HDR` rejects the lengths above 8. -/
theorem badLen_iff (len : BitVec 4) : badLen len = true ↔ 8 < len.toNat := by
  simp only [badLen, Config.maxDataBytes, decide_eq_true_eq]

/-- `ENC_HDR` rejects exactly the ill-formed lengths. -/
theorem badLen_eq (len : BitVec 4) : badLen len = !lenLegal len := by
  rw [Bool.eq_iff_iff, badLen_iff]
  simp only [lenLegal, Config.maxDataBytes, Bool.not_eq_true', decide_eq_false_iff_not]
  omega

/-! ### Field bits -/

theorem length_bitsMsb {w : Nat} (v : BitVec w) (n : Nat) : (bitsMsb v n).length = n := by
  induction n with
  | zero => rfl
  | succ n ih => simp [bitsMsb, ih]

/-- Bit `i` after a shift is the incoming bit, or the old bit one place down. -/
theorem getLsbD_shiftIn {w : Nat} (v : BitVec w) (b : Bit) (i : Nat) :
    (shiftIn v b).getLsbD i =
      (decide (i < w) && if i = 0 then b else v.getLsbD (i - 1)) := by
  cases i with
  | zero => simp [shiftIn, BitVec.getLsbD_or, BitVec.getLsbD_shiftLeft]
  | succ i =>
    simp [shiftIn, BitVec.getLsbD_or, BitVec.getLsbD_shiftLeft]

/-- Shifting a bit in appends it to the field's bits, while the field is not full. -/
theorem bitsMsb_shiftIn {w : Nat} (v : BitVec w) (b : Bit) (n : Nat) (h : n < w) :
    bitsMsb (shiftIn v b) (n + 1) = bitsMsb v n ++ [b] := by
  induction n with
  | zero => simp only [bitsMsb, getLsbD_shiftIn, h]; rfl
  | succ n ih =>
    rw [bitsMsb, ih (by omega), getLsbD_shiftIn]
    simp [bitsMsb, h]

/-- The bits of a field do not depend on its width beyond them. -/
theorem bitsMsb_congr {w x : Nat} (v : BitVec w) (u : BitVec x) (n : Nat)
    (h : ∀ k < n, v.getLsbD k = u.getLsbD k) : bitsMsb v n = bitsMsb u n := by
  induction n with
  | zero => rfl
  | succ n ih => simp [bitsMsb, h n (by omega), ih fun k hk => h k (by omega)]

/-- The value shifted in, as a number, while it fits. -/
theorem toNat_shiftIn {w : Nat} (v : BitVec w) (b : Bit) (h : 2 * v.toNat + b.toNat < 2 ^ w) :
    (shiftIn v b).toNat = 2 * v.toNat + b.toNat := by
  have e : shiftIn v b = BitVec.ofNat w (2 * v.toNat + b.toNat) := by
    apply BitVec.eq_of_getLsbD_eq
    intro i hi
    rw [getLsbD_shiftIn, BitVec.getLsbD_ofNat]
    simp only [hi, decide_true, Bool.true_and]
    cases i with
    | zero => cases b <;> simp
    | succ i =>
      simp only [Nat.succ_ne_zero, if_false, Nat.add_sub_cancel, Nat.testBit_succ]
      rw [show (2 * v.toNat + b.toNat) / 2 = v.toNat by cases b <;> simp; omega]
      rfl
  rw [e, BitVec.toNat_ofNat, Nat.mod_eq_of_lt h]

end Sys2Proof.Machine
end

