-- ==== Sys2Proof/Laws/State.lean ====
section
/-! SUPPORT. One lemma for each field under each named update of the state, so that no later proof unfolds a
record update. -/

namespace Sys2Proof.Machine

/-! ### The command port -/

@[simp] theorem answer_crcu (s : State) (r : Response) :
    (s.answer r).crcu = s.crcu := rfl

@[simp] theorem answer_stfu (s : State) (r : Response) :
    (s.answer r).stfu = s.stfu := rfl

@[simp] theorem answer_dec (s : State) (r : Response) :
    (s.answer r).dec = s.dec := rfl

@[simp] theorem answer_enc (s : State) (r : Response) :
    (s.answer r).enc = s.enc := rfl

@[simp] theorem answer_cmds (s : State) (r : Response) :
    (s.answer r).cmds = s.cmds := rfl

@[simp] theorem answer_free (s : State) (r : Response) :
    (s.answer r).free = s.free := rfl

@[simp] theorem answer_responses (s : State) (r : Response) :
    (s.answer r).responses = s.responses ++ [r] := rfl

/-! ### Decoder updates -/

@[simp] theorem frameInit_stage (d : DecState) :
    (frameInit d).stage = .sof := rfl

@[simp] theorem frameInit_fields (d : DecState) :
    (frameInit d).fields = .zero := rfl

@[simp] theorem frameInit_crcCalc (d : DecState) :
    (frameInit d).crcCalc = 0 := rfl

@[simp] theorem frameInit_crcCalcValid (d : DecState) :
    (frameInit d).crcCalcValid = false := rfl

@[simp] theorem frameInit_crc (d : DecState) :
    (frameInit d).crc = .fresh := rfl

@[simp] theorem frameInit_stf (d : DecState) :
    (frameInit d).stf = .fresh := rfl

@[simp] theorem frameInit_raw (d : DecState) :
    (frameInit d).raw = [] := rfl

@[simp] theorem frameInit_dst (d : DecState) :
    (frameInit d).dst = [] := rfl

@[simp] theorem frameInit_viol (d : DecState) :
    (frameInit d).viol = [] := rfl

@[simp] theorem frameInit_diag (d : DecState) :
    (frameInit d).diag = [] := rfl

@[simp] theorem frameInit_recRun (d : DecState) :
    (frameInit d).recRun = 0 := rfl

@[simp] theorem frameInit_resync (d : DecState) :
    (frameInit d).resync = .none := rfl

@[simp] theorem frameInit_start (d : DecState) :
    (frameInit d).start = none := rfl

@[simp] theorem frameInit_last (d : DecState) :
    (frameInit d).last = none := rfl

@[simp] theorem frameInit_seq (d : DecState) :
    (frameInit d).seq = d.seq := rfl

@[simp] theorem violate_stage (d : DecState) (c : EntryCode) (S : Stage) (p : Option Pos) :
    (violate d c S p).stage = d.stage := rfl

@[simp] theorem violate_fields (d : DecState) (c : EntryCode) (S : Stage) (p : Option Pos) :
    (violate d c S p).fields = d.fields := rfl

@[simp] theorem violate_crcCalc (d : DecState) (c : EntryCode) (S : Stage) (p : Option Pos) :
    (violate d c S p).crcCalc = d.crcCalc := rfl

@[simp] theorem violate_crcCalcValid (d : DecState) (c : EntryCode) (S : Stage) (p : Option Pos) :
    (violate d c S p).crcCalcValid = d.crcCalcValid := rfl

@[simp] theorem violate_crc (d : DecState) (c : EntryCode) (S : Stage) (p : Option Pos) :
    (violate d c S p).crc = d.crc := rfl

@[simp] theorem violate_stf (d : DecState) (c : EntryCode) (S : Stage) (p : Option Pos) :
    (violate d c S p).stf = d.stf := rfl

@[simp] theorem violate_raw (d : DecState) (c : EntryCode) (S : Stage) (p : Option Pos) :
    (violate d c S p).raw = d.raw := rfl

@[simp] theorem violate_dst (d : DecState) (c : EntryCode) (S : Stage) (p : Option Pos) :
    (violate d c S p).dst = d.dst := rfl

@[simp] theorem violate_viol (d : DecState) (c : EntryCode) (S : Stage) (p : Option Pos) :
    (violate d c S p).viol = d.viol ++ [⟨c, S, p⟩] := rfl

@[simp] theorem violate_diag (d : DecState) (c : EntryCode) (S : Stage) (p : Option Pos) :
    (violate d c S p).diag = d.diag := rfl

@[simp] theorem violate_recRun (d : DecState) (c : EntryCode) (S : Stage) (p : Option Pos) :
    (violate d c S p).recRun = d.recRun := rfl

@[simp] theorem violate_resync (d : DecState) (c : EntryCode) (S : Stage) (p : Option Pos) :
    (violate d c S p).resync = d.resync := rfl

@[simp] theorem violate_start (d : DecState) (c : EntryCode) (S : Stage) (p : Option Pos) :
    (violate d c S p).start = d.start := rfl

@[simp] theorem violate_last (d : DecState) (c : EntryCode) (S : Stage) (p : Option Pos) :
    (violate d c S p).last = d.last := rfl

@[simp] theorem violate_seq (d : DecState) (c : EntryCode) (S : Stage) (p : Option Pos) :
    (violate d c S p).seq = d.seq := rfl

@[simp] theorem diagnose_stage (d : DecState) (c : EntryCode) (S : Stage) (p : Option Pos) :
    (diagnose d c S p).stage = d.stage := rfl

@[simp] theorem diagnose_fields (d : DecState) (c : EntryCode) (S : Stage) (p : Option Pos) :
    (diagnose d c S p).fields = d.fields := rfl

@[simp] theorem diagnose_crcCalc (d : DecState) (c : EntryCode) (S : Stage) (p : Option Pos) :
    (diagnose d c S p).crcCalc = d.crcCalc := rfl

@[simp] theorem diagnose_crcCalcValid (d : DecState) (c : EntryCode) (S : Stage) (p : Option Pos) :
    (diagnose d c S p).crcCalcValid = d.crcCalcValid := rfl

@[simp] theorem diagnose_crc (d : DecState) (c : EntryCode) (S : Stage) (p : Option Pos) :
    (diagnose d c S p).crc = d.crc := rfl

@[simp] theorem diagnose_stf (d : DecState) (c : EntryCode) (S : Stage) (p : Option Pos) :
    (diagnose d c S p).stf = d.stf := rfl

@[simp] theorem diagnose_raw (d : DecState) (c : EntryCode) (S : Stage) (p : Option Pos) :
    (diagnose d c S p).raw = d.raw := rfl

@[simp] theorem diagnose_dst (d : DecState) (c : EntryCode) (S : Stage) (p : Option Pos) :
    (diagnose d c S p).dst = d.dst := rfl

@[simp] theorem diagnose_viol (d : DecState) (c : EntryCode) (S : Stage) (p : Option Pos) :
    (diagnose d c S p).viol = d.viol := rfl

@[simp] theorem diagnose_diag (d : DecState) (c : EntryCode) (S : Stage) (p : Option Pos) :
    (diagnose d c S p).diag = d.diag ++ [⟨c, S, p⟩] := rfl

@[simp] theorem diagnose_recRun (d : DecState) (c : EntryCode) (S : Stage) (p : Option Pos) :
    (diagnose d c S p).recRun = d.recRun := rfl

@[simp] theorem diagnose_resync (d : DecState) (c : EntryCode) (S : Stage) (p : Option Pos) :
    (diagnose d c S p).resync = d.resync := rfl

@[simp] theorem diagnose_start (d : DecState) (c : EntryCode) (S : Stage) (p : Option Pos) :
    (diagnose d c S p).start = d.start := rfl

@[simp] theorem diagnose_last (d : DecState) (c : EntryCode) (S : Stage) (p : Option Pos) :
    (diagnose d c S p).last = d.last := rfl

@[simp] theorem diagnose_seq (d : DecState) (c : EntryCode) (S : Stage) (p : Option Pos) :
    (diagnose d c S p).seq = d.seq := rfl

@[simp] theorem enterHardFail_stage (d : DecState) :
    (enterHardFail d).stage = .hardFail := rfl

@[simp] theorem enterHardFail_fields (d : DecState) :
    (enterHardFail d).fields = d.fields := rfl

@[simp] theorem enterHardFail_crcCalc (d : DecState) :
    (enterHardFail d).crcCalc = d.crcCalc := rfl

@[simp] theorem enterHardFail_crcCalcValid (d : DecState) :
    (enterHardFail d).crcCalcValid = d.crcCalcValid := rfl

@[simp] theorem enterHardFail_crc (d : DecState) :
    (enterHardFail d).crc = d.crc := rfl

@[simp] theorem enterHardFail_stf (d : DecState) :
    (enterHardFail d).stf = { d.stf with en := false } := rfl

@[simp] theorem enterHardFail_raw (d : DecState) :
    (enterHardFail d).raw = d.raw := rfl

@[simp] theorem enterHardFail_dst (d : DecState) :
    (enterHardFail d).dst = d.dst := rfl

@[simp] theorem enterHardFail_viol (d : DecState) :
    (enterHardFail d).viol = d.viol := rfl

@[simp] theorem enterHardFail_diag (d : DecState) :
    (enterHardFail d).diag = d.diag := rfl

@[simp] theorem enterHardFail_recRun (d : DecState) :
    (enterHardFail d).recRun = 0 := rfl

@[simp] theorem enterHardFail_resync (d : DecState) :
    (enterHardFail d).resync = d.resync := rfl

@[simp] theorem enterHardFail_start (d : DecState) :
    (enterHardFail d).start = d.start := rfl

@[simp] theorem enterHardFail_last (d : DecState) :
    (enterHardFail d).last = d.last := rfl

@[simp] theorem enterHardFail_seq (d : DecState) :
    (enterHardFail d).seq = d.seq := rfl

@[simp] theorem failFrame_stage (d : DecState) (c : EntryCode) (S : Stage) (p : Pos) :
    (failFrame d c S p).stage = .hardFail := rfl

@[simp] theorem failFrame_fields (d : DecState) (c : EntryCode) (S : Stage) (p : Pos) :
    (failFrame d c S p).fields = d.fields := rfl

@[simp] theorem failFrame_crcCalc (d : DecState) (c : EntryCode) (S : Stage) (p : Pos) :
    (failFrame d c S p).crcCalc = d.crcCalc := rfl

@[simp] theorem failFrame_crcCalcValid (d : DecState) (c : EntryCode) (S : Stage) (p : Pos) :
    (failFrame d c S p).crcCalcValid = d.crcCalcValid := rfl

@[simp] theorem failFrame_crc (d : DecState) (c : EntryCode) (S : Stage) (p : Pos) :
    (failFrame d c S p).crc = d.crc := rfl

@[simp] theorem failFrame_stf (d : DecState) (c : EntryCode) (S : Stage) (p : Pos) :
    (failFrame d c S p).stf = { d.stf with en := false } := rfl

@[simp] theorem failFrame_raw (d : DecState) (c : EntryCode) (S : Stage) (p : Pos) :
    (failFrame d c S p).raw = d.raw := rfl

@[simp] theorem failFrame_dst (d : DecState) (c : EntryCode) (S : Stage) (p : Pos) :
    (failFrame d c S p).dst = d.dst := rfl

@[simp] theorem failFrame_viol (d : DecState) (c : EntryCode) (S : Stage) (p : Pos) :
    (failFrame d c S p).viol = d.viol ++ [⟨c, S, some p⟩] := rfl

@[simp] theorem failFrame_diag (d : DecState) (c : EntryCode) (S : Stage) (p : Pos) :
    (failFrame d c S p).diag = d.diag := rfl

@[simp] theorem failFrame_recRun (d : DecState) (c : EntryCode) (S : Stage) (p : Pos) :
    (failFrame d c S p).recRun = 0 := rfl

@[simp] theorem failFrame_resync (d : DecState) (c : EntryCode) (S : Stage) (p : Pos) :
    (failFrame d c S p).resync = d.resync := rfl

@[simp] theorem failFrame_start (d : DecState) (c : EntryCode) (S : Stage) (p : Pos) :
    (failFrame d c S p).start = d.start := rfl

@[simp] theorem failFrame_last (d : DecState) (c : EntryCode) (S : Stage) (p : Pos) :
    (failFrame d c S p).last = d.last := rfl

@[simp] theorem failFrame_seq (d : DecState) (c : EntryCode) (S : Stage) (p : Pos) :
    (failFrame d c S p).seq = d.seq := rfl

@[simp] theorem keepSymbol_stage (d : DecState) (v : Bit) (a : Bool) (p : Pos) :
    (keepSymbol d v a p).stage = d.stage := rfl

@[simp] theorem keepSymbol_fields (d : DecState) (v : Bit) (a : Bool) (p : Pos) :
    (keepSymbol d v a p).fields = d.fields := rfl

@[simp] theorem keepSymbol_crcCalc (d : DecState) (v : Bit) (a : Bool) (p : Pos) :
    (keepSymbol d v a p).crcCalc = d.crcCalc := rfl

@[simp] theorem keepSymbol_crcCalcValid (d : DecState) (v : Bit) (a : Bool) (p : Pos) :
    (keepSymbol d v a p).crcCalcValid = d.crcCalcValid := rfl

@[simp] theorem keepSymbol_crc (d : DecState) (v : Bit) (a : Bool) (p : Pos) :
    (keepSymbol d v a p).crc = d.crc := rfl

@[simp] theorem keepSymbol_stf (d : DecState) (v : Bit) (a : Bool) (p : Pos) :
    (keepSymbol d v a p).stf = d.stf := rfl

@[simp] theorem keepSymbol_raw (d : DecState) (v : Bit) (a : Bool) (p : Pos) :
    (keepSymbol d v a p).raw = d.raw ++ [⟨v, a, p⟩] := rfl

@[simp] theorem keepSymbol_dst (d : DecState) (v : Bit) (a : Bool) (p : Pos) :
    (keepSymbol d v a p).dst = d.dst := rfl

@[simp] theorem keepSymbol_viol (d : DecState) (v : Bit) (a : Bool) (p : Pos) :
    (keepSymbol d v a p).viol = d.viol := rfl

@[simp] theorem keepSymbol_diag (d : DecState) (v : Bit) (a : Bool) (p : Pos) :
    (keepSymbol d v a p).diag = d.diag := rfl

@[simp] theorem keepSymbol_recRun (d : DecState) (v : Bit) (a : Bool) (p : Pos) :
    (keepSymbol d v a p).recRun = d.recRun := rfl

@[simp] theorem keepSymbol_resync (d : DecState) (v : Bit) (a : Bool) (p : Pos) :
    (keepSymbol d v a p).resync = d.resync := rfl

@[simp] theorem keepSymbol_start (d : DecState) (v : Bit) (a : Bool) (p : Pos) :
    (keepSymbol d v a p).start = d.start := rfl

@[simp] theorem keepSymbol_last (d : DecState) (v : Bit) (a : Bool) (p : Pos) :
    (keepSymbol d v a p).last = some p := rfl

@[simp] theorem keepSymbol_seq (d : DecState) (v : Bit) (a : Bool) (p : Pos) :
    (keepSymbol d v a p).seq = d.seq := rfl

@[simp] theorem recordBit_stage (d : DecState) (v : Bit) :
    (recordBit d v).stage = d.stage := rfl

@[simp] theorem recordBit_fields (d : DecState) (v : Bit) :
    (recordBit d v).fields = d.fields := rfl

@[simp] theorem recordBit_crcCalc (d : DecState) (v : Bit) :
    (recordBit d v).crcCalc = d.crcCalc := rfl

@[simp] theorem recordBit_crcCalcValid (d : DecState) (v : Bit) :
    (recordBit d v).crcCalcValid = d.crcCalcValid := rfl

@[simp] theorem recordBit_crc (d : DecState) (v : Bit) :
    (recordBit d v).crc = if d.stage.crcCovered then crcStep d.crc v else d.crc := rfl

@[simp] theorem recordBit_stf (d : DecState) (v : Bit) :
    (recordBit d v).stf = d.stf := rfl

@[simp] theorem recordBit_raw (d : DecState) (v : Bit) :
    (recordBit d v).raw = d.raw := rfl

@[simp] theorem recordBit_dst (d : DecState) (v : Bit) :
    (recordBit d v).dst = d.dst ++ [v] := rfl

@[simp] theorem recordBit_viol (d : DecState) (v : Bit) :
    (recordBit d v).viol = d.viol := rfl

@[simp] theorem recordBit_diag (d : DecState) (v : Bit) :
    (recordBit d v).diag = d.diag := rfl

@[simp] theorem recordBit_recRun (d : DecState) (v : Bit) :
    (recordBit d v).recRun = d.recRun := rfl

@[simp] theorem recordBit_resync (d : DecState) (v : Bit) :
    (recordBit d v).resync = d.resync := rfl

@[simp] theorem recordBit_start (d : DecState) (v : Bit) :
    (recordBit d v).start = d.start := rfl

@[simp] theorem recordBit_last (d : DecState) (v : Bit) :
    (recordBit d v).last = d.last := rfl

@[simp] theorem recordBit_seq (d : DecState) (v : Bit) :
    (recordBit d v).seq = d.seq := rfl

/-! ### Engines -/

@[simp] theorem crcStep_poly (s : CrcState) (b : Bit) :
    (crcStep s b).poly = s.poly := rfl

@[simp] theorem crcStep_width (s : CrcState) (b : Bit) :
    (crcStep s b).width = s.width := rfl

@[simp] theorem crcStep_value (s : CrcState) (b : Bit) :
    (crcStep s b).value = s.value := rfl

@[simp] theorem crcStep_nbits (s : CrcState) (b : Bit) :
    (crcStep s b).nbits = s.nbits + 1 := rfl

@[simp] theorem crcStep_reg (s : CrcState) (b : Bit) :
    (crcStep s b).reg = crcDivide s.poly s.width.toNat s.reg b := rfl

@[simp] theorem seed_tot0 (s : StuffState) (b : Bit) :
    (s.seed b).tot0 = s.tot0 := by cases b <;> rfl

@[simp] theorem setRun_tot0 (s : StuffState) (b : Bit) (n : BitVec 3) :
    (s.setRun b n).tot0 = s.tot0 := by cases b <;> rfl

@[simp] theorem seed_tot1 (s : StuffState) (b : Bit) :
    (s.seed b).tot1 = s.tot1 := by cases b <;> rfl

@[simp] theorem setRun_tot1 (s : StuffState) (b : Bit) (n : BitVec 3) :
    (s.setRun b n).tot1 = s.tot1 := by cases b <;> rfl

@[simp] theorem seed_en (s : StuffState) (b : Bit) :
    (s.seed b).en = s.en := by cases b <;> rfl

@[simp] theorem setRun_en (s : StuffState) (b : Bit) (n : BitVec 3) :
    (s.setRun b n).en = s.en := by cases b <;> rfl

@[simp] theorem seed_viol (s : StuffState) (b : Bit) :
    (s.seed b).viol = s.viol := by cases b <;> rfl

@[simp] theorem setRun_viol (s : StuffState) (b : Bit) (n : BitVec 3) :
    (s.setRun b n).viol = s.viol := by cases b <;> rfl

@[simp] theorem bumpTot_run0 (s : StuffState) (b : Bit) :
    (s.bumpTot b).run0 = s.run0 := by cases b <;> rfl

@[simp] theorem bumpTot_run1 (s : StuffState) (b : Bit) :
    (s.bumpTot b).run1 = s.run1 := by cases b <;> rfl

@[simp] theorem bumpTot_en (s : StuffState) (b : Bit) :
    (s.bumpTot b).en = s.en := by cases b <;> rfl

@[simp] theorem bumpTot_viol (s : StuffState) (b : Bit) :
    (s.bumpTot b).viol = s.viol := by cases b <;> rfl

@[simp] theorem seed_run (s : StuffState) (b : Bit) :
    (s.seed b).run b = 1 := by cases b <;> rfl

@[simp] theorem seed_run_not (s : StuffState) (b : Bit) :
    (s.seed b).run (!b) = 0 := by cases b <;> rfl

@[simp] theorem setRun_run (s : StuffState) (b : Bit) (n : BitVec 3) :
    (s.setRun b n).run b = n := by cases b <;> rfl

@[simp] theorem countRun_tot0 (s : StuffState) (b : Bit) :
    (s.countRun b).tot0 = s.tot0 := by cases b <;> rfl

@[simp] theorem countRun_tot1 (s : StuffState) (b : Bit) :
    (s.countRun b).tot1 = s.tot1 := by cases b <;> rfl

@[simp] theorem countRun_en (s : StuffState) (b : Bit) :
    (s.countRun b).en = s.en := by cases b <;> rfl

@[simp] theorem countRun_viol (s : StuffState) (b : Bit) :
    (s.countRun b).viol = s.viol := by cases b <;> rfl

@[simp] theorem countRun_run_not (s : StuffState) (b : Bit) :
    (s.countRun b).run (!b) = s.run (!b) := by cases b <;> rfl

@[simp] theorem setRun_run_not (s : StuffState) (b : Bit) (n : BitVec 3) :
    (s.setRun b n).run (!b) = s.run (!b) := by cases b <;> rfl

@[simp] theorem bumpTot_run (s : StuffState) (b c : Bit) :
    (s.bumpTot b).run c = s.run c := by cases b <;> cases c <;> rfl

/-! ### Field registers -/

@[simp] theorem shift_v {w c : Nat} (f : FieldReg w c) (b : Bit) :
    (f.shift b).v = shiftIn f.v b := rfl

@[simp] theorem shift_n {w c : Nat} (f : FieldReg w c) (b : Bit) :
    (f.shift b).n = f.n + 1 := rfl

end Sys2Proof.Machine
end

