-- ==== Sys2Proof/Laws/Engines.lean ====
section
/-! SUPPORT. What the CRC engine and the stuffing engine do: each function's cases and the invariants they
keep. -/

namespace Sys2Proof.Machine

/-! ### CRC engine -/

@[simp] theorem crcFeed_nil (s : CrcState) : crcFeed s [] = s := rfl

@[simp] theorem crcFeed_cons (s : CrcState) (b : Bit) (bs : List Bit) :
    crcFeed s (b :: bs) = crcFeed (crcStep s b) bs := rfl

theorem crcFeed_append (s : CrcState) (xs ys : List Bit) :
    crcFeed s (xs ++ ys) = crcFeed (crcFeed s xs) ys := List.foldl_append ..

@[simp] theorem crcFeed_poly (s : CrcState) (bs : List Bit) : (crcFeed s bs).poly = s.poly := by
  induction bs generalizing s with
  | nil => rfl
  | cons b bs ih => simp [ih]

@[simp] theorem crcFeed_width (s : CrcState) (bs : List Bit) :
    (crcFeed s bs).width = s.width := by
  induction bs generalizing s with
  | nil => rfl
  | cons b bs ih => simp [ih]

@[simp] theorem crcFeed_value (s : CrcState) (bs : List Bit) :
    (crcFeed s bs).value = s.value := by
  induction bs generalizing s with
  | nil => rfl
  | cons b bs ih => simp [ih]

/-- Every bit fed is counted. 40_crc.md R123. -/
theorem crcFeed_nbits (s : CrcState) (bs : List Bit) :
    (crcFeed s bs).nbits = s.nbits + BitVec.ofNat 32 bs.length := by
  induction bs generalizing s with
  | nil => simp
  | cons b bs ih =>
    rw [crcFeed_cons, ih, crcStep_nbits, List.length_cons, BitVec.add_assoc, Nat.add_comm,
      BitVec.ofNat_add]
    rfl

/-- The CAN generator infers the fresh engine. 40_crc.md R121, 10_state.md R23. -/
theorem crcNew_can : crcNew Config.canCrcPoly = .fresh := by decide

/-- The top term of the generator and its lower terms do not meet. 40_crc.md R121. -/
theorem two_pow_add_eq_xor {W x : Nat} (hx : x < 2 ^ W) : 2 ^ W + x = 2 ^ W ^^^ x := by
  apply Nat.eq_of_testBit_eq
  intro i
  rw [Nat.testBit_xor, Nat.testBit_two_pow]
  rcases Nat.lt_trichotomy i W with h | h | h
  · rw [Nat.testBit_two_pow_add_gt h]; simp [Nat.ne_of_gt h]
  · subst h; rw [Nat.testBit_two_pow_add_eq, Nat.testBit_lt_two_pow hx]; simp
  · have hi := Nat.pow_le_pow_right (n := 2) (by omega) (show W + 1 ≤ i by omega)
    rw [Nat.pow_succ] at hi
    rw [Nat.testBit_lt_two_pow (i := i) (by omega), Nat.testBit_lt_two_pow (i := i) (by omega)]
    simp [Nat.ne_of_lt h]

/-- The top term of the generator and its lower terms do not meet. 40_crc.md R121. -/
theorem two_pow_or_eq_add {W x : Nat} (hx : x < 2 ^ W) : 2 ^ W ||| x = 2 ^ W + x := by
  simpa using (Nat.two_pow_add_eq_or_of_lt hx 1).symm

/-- One division step as numbers, for a remainder and a generator below `2^W`. 40_crc.md R123. -/
theorem toNat_crcDivide (poly : BitVec 32) (W : Nat) (reg : BitVec 33) (b : Bit) (hW : W ≤ 32)
    (hp : poly.toNat < 2 ^ W) (hr : reg.toNat < 2 ^ W) :
    (crcDivide poly W reg b).toNat =
      if 2 ^ W ≤ 2 * reg.toNat + b.toNat then (2 * reg.toNat + b.toNat) ^^^ (2 ^ W + poly.toNat)
      else 2 * reg.toNat + b.toNat := by
  have h33 : 2 ^ (W + 1) ≤ 2 ^ 33 := Nat.pow_le_pow_right (by omega) (by omega)
  have hb : b.toNat ≤ 1 := Bool.toNat_le b
  have ht : (shiftIn reg b).toNat = 2 * reg.toNat + b.toNat :=
    toNat_shiftIn _ _ (by rw [Nat.pow_succ] at h33; omega)
  have hbit : (shiftIn reg b).getLsbD W = decide (2 ^ W ≤ 2 * reg.toNat + b.toNat) := by
    rw [BitVec.getLsbD, ht, Nat.testBit_eq_decide_div_mod_eq, Bool.eq_iff_iff]
    simp only [decide_eq_true_eq]
    have hq : (2 * reg.toNat + b.toNat) / 2 ^ W < 2 := Nat.div_lt_of_lt_mul (by omega)
    constructor
    · intro h
      have := Nat.div_mul_le_self (2 * reg.toNat + b.toNat) (2 ^ W)
      have h1 : (2 * reg.toNat + b.toNat) / 2 ^ W = 1 := by
        generalize (2 * reg.toNat + b.toNat) / 2 ^ W = q at h hq
        omega
      rw [h1] at this
      omega
    · intro h
      have := (Nat.one_le_div_iff (Nat.two_pow_pos W)).mpr h
      omega
  simp only [crcDivide, hbit, decide_eq_true_eq]
  split
  · rw [BitVec.toNat_xor, ht, BitVec.toNat_or, BitVec.toNat_shiftLeft, BitVec.toNat_setWidth]
    have e1 : (1#33).toNat <<< W % 2 ^ 33 = 2 ^ W := by
      rw [Nat.shiftLeft_eq]
      simp only [BitVec.toNat_ofNat]
      rw [show 1 % 2 ^ 33 = 1 by decide, Nat.one_mul]
      exact Nat.mod_eq_of_lt (Nat.pow_lt_pow_right (by omega) (by omega))
    have e2 : poly.toNat % 2 ^ 33 = poly.toNat :=
      Nat.mod_eq_of_lt (Nat.lt_of_lt_of_le poly.isLt (by decide))
    rw [e1, e2]
    congr 1
    exact two_pow_or_eq_add hp
  · exact ht

/-- The remainder stays below `2^W`. 40_crc.md R123. -/
theorem crcDivide_lt (poly : BitVec 32) (W : Nat) (reg : BitVec 33) (b : Bit) (hW : W ≤ 32)
    (hp : poly.toNat < 2 ^ W) (hr : reg.toNat < 2 ^ W) :
    (crcDivide poly W reg b).toNat < 2 ^ W := by
  rw [toNat_crcDivide poly W reg b hW hp hr]
  have hb : b.toNat ≤ 1 := Bool.toNat_le b
  split
  · rename_i h
    have e : 2 * reg.toNat + b.toNat = 2 ^ W + (2 * reg.toNat + b.toNat - 2 ^ W) := by omega
    have hx : 2 * reg.toNat + b.toNat - 2 ^ W < 2 ^ W := by omega
    rw [e]
    generalize 2 * reg.toNat + b.toNat - 2 ^ W = x at hx ⊢
    rw [two_pow_add_eq_xor hx, two_pow_add_eq_xor hp, show (2 ^ W ^^^ x) ^^^ (2 ^ W ^^^ poly.toNat) = x ^^^ poly.toNat by
      rw [Nat.xor_assoc, ← Nat.xor_assoc x, Nat.xor_comm x, Nat.xor_assoc, ← Nat.xor_assoc]
      simp]
    exact Nat.xor_lt_two_pow hx hp
  · omega

theorem CrcState.Inv.width_le {s : CrcState} (h : s.Inv) : s.width.toNat ≤ 32 := by
  obtain ⟨h1, h2, -, -, -⟩ := h
  by_contra hw
  have : 2 ^ 32 ≤ 2 ^ (s.width.toNat - 1) := Nat.pow_le_pow_right (by omega) (by omega)
  have := s.poly.isLt
  omega

/-- A step keeps the engine's invariant. 40_crc.md R123. -/
theorem CrcState.Inv.step {s : CrcState} (h : s.Inv) (b : Bit) : (crcStep s b).Inv :=
  ⟨h.1, h.2.1, h.2.2.1, crcDivide_lt _ _ _ _ h.width_le h.2.2.1 h.2.2.2.1, h.2.2.2.2⟩

theorem CrcState.Inv.feed {s : CrcState} (h : s.Inv) (bs : List Bit) : (crcFeed s bs).Inv := by
  induction bs generalizing s with
  | nil => exact h
  | cons b bs ih => exact ih (h.step b)

/-- Below `2^W`, masking changes nothing: the value of a finalize is the remainder. 40_crc.md R127. -/
theorem crcFinalize_value {s : CrcState} (h : s.Inv) :
    (crcFinalize s).value.toNat = (crcFeed s (List.replicate s.width.toNat false)).reg.toNat := by
  have hf := (h.feed (List.replicate s.width.toNat false)).2.2.2.1
  have hw := h.width_le
  rw [crcFeed_width] at hf
  have h32 : 2 ^ s.width.toNat ≤ 2 ^ 32 := Nat.pow_le_pow_right (by omega) hw
  simp only [crcFinalize, BitVec.toNat_and, BitVec.toNat_setWidth, maskBits, BitVec.toNat_ofNat]
  rw [Nat.mod_eq_of_lt (by omega),
    Nat.mod_eq_of_lt (Nat.lt_of_lt_of_le (Nat.sub_lt (Nat.two_pow_pos _) (by omega)) h32),
    Nat.and_two_pow_sub_one_eq_mod, Nat.mod_eq_of_lt hf]

/-- Finalizing keeps the engine's invariant. 40_crc.md R127. -/
theorem CrcState.Inv.finalize {s : CrcState} (h : s.Inv) : (crcFinalize s).Inv := by
  have hf := h.feed (List.replicate s.width.toNat false)
  refine ⟨hf.1, hf.2.1, hf.2.2.1, hf.2.2.2.1, ?_⟩
  rw [crcFinalize_value h]
  exact hf.2.2.2.1

@[simp] theorem crcFinalize_poly (s : CrcState) : (crcFinalize s).poly = s.poly := by
  simp [crcFinalize]

@[simp] theorem crcFinalize_width (s : CrcState) : (crcFinalize s).width = s.width := by
  simp [crcFinalize]

theorem CrcState.fresh_inv : CrcState.fresh.Inv := by
  unfold CrcState.Inv; decide

/-! ### Stuffing engine -/

/-- A run short of the trigger counts on by one. 41_stuffing.md R144, R148. -/
theorem countRun_below {s : StuffState} {b : Bit} (h : (s.run b).toNat < 5) :
    s.countRun b = s.setRun b (s.run b + 1) := by
  simp [StuffState.countRun, h]

/-- A run at the trigger stays there. 70_reset_and_hazards.md R295, log 5. -/
theorem countRun_held {s : StuffState} {b : Bit} (h : 5 ≤ (s.run b).toNat) :
    s.countRun b = s.setRun b 5 := by
  simp [StuffState.countRun, Nat.not_lt.mpr h]

/-- Everything `stf_destuff` can do. 41_stuffing.md R144. -/
theorem stfDestuff_cases (s : StuffState) (b : Bit) :
    (s.en = false ∧ stfDestuff s b = (.data, s)) ∨
    (s.en = true ∧ s.viol = true ∧ stfDestuff s b = (.violation, s)) ∨
    (s.en = true ∧ s.viol = false ∧
      ((s.run b = 0 ∧ s.full (!b) = true ∧
          stfDestuff s b = (.stuff, (s.seed b).bumpTot b)) ∨
        (s.run b = 0 ∧ s.full (!b) = false ∧ stfDestuff s b = (.data, s.seed b)) ∨
        (s.run b ≠ 0 ∧ s.full b = true ∧
          stfDestuff s b = (.violation, { s with viol := true })) ∨
        (s.run b ≠ 0 ∧ s.full b = false ∧
          stfDestuff s b = (.data, s.countRun b)))) := by
  unfold stfDestuff
  by_cases he : s.en = false
  · exact .inl ⟨he, by simp [he]⟩
  by_cases hv : s.viol = true
  · exact .inr (.inl ⟨by simpa using he, hv, by simp [he, hv]⟩)
  refine .inr (.inr ⟨by simpa using he, by simpa using hv, ?_⟩)
  rw [if_neg he, if_neg hv]
  by_cases hu : s.uncounted = true
  · have hr : s.run0 = 0 ∧ s.run1 = 0 := by simpa [StuffState.uncounted] using hu
    refine .inr (.inl ⟨by cases b <;> simp [StuffState.run, hr], ?_, by rw [if_pos hu]⟩)
    cases b <;> simp [StuffState.full, StuffState.run, hr]
  rw [if_neg hu]
  by_cases hr : s.run b = 0
  · rw [if_pos hr]
    by_cases hf : s.full (!b) = true
    · exact .inl ⟨hr, hf, if_pos hf⟩
    · exact .inr (.inl ⟨hr, by simpa using hf, if_neg hf⟩)
  · rw [if_neg hr]
    by_cases hf : s.full b = true
    · exact .inr (.inr (.inl ⟨hr, hf, if_pos hf⟩))
    · exact .inr (.inr (.inr ⟨hr, by simpa using hf, if_neg hf⟩))

/-- Everything `stf_stuff` can do. 41_stuffing.md R148. -/
theorem stfStuff_cases (s : StuffState) (b : Bit) :
    (s.en = false ∧ stfStuff s b = ([⟨b, false⟩], s)) ∨
    (s.en = true ∧
      ((s.run b = 0 ∧ stfStuff s b = ([⟨b, false⟩], s.seed b)) ∨
        (4 ≤ (s.run b).toNat ∧
          stfStuff s b = ([⟨b, false⟩, ⟨!b, true⟩], (s.seed (!b)).bumpTot (!b))) ∨
        (s.run b ≠ 0 ∧ (s.run b).toNat < 4 ∧
          stfStuff s b = ([⟨b, false⟩], s.setRun b (s.run b + 1))))) := by
  unfold stfStuff
  by_cases he : s.en = false
  · exact .inl ⟨he, by simp [he]⟩
  refine .inr ⟨by simpa using he, ?_⟩
  rw [if_neg he]
  by_cases hr : s.run b = 0
  · refine .inl ⟨hr, ?_⟩
    simp [hr, StuffState.full]
  have hu : s.uncounted = false := by
    cases b <;> simp_all [StuffState.uncounted, StuffState.run]
  simp only [hu, hr, Bool.false_or, decide_false, Bool.false_eq_true, if_false]
  by_cases h4 : 4 ≤ (s.run b).toNat
  · refine .inr (.inl ⟨h4, ?_⟩)
    have hf : (s.countRun b).full b = true := by
      simp only [StuffState.full, StuffState.countRun, setRun_run, decide_eq_true_eq]
      generalize s.run b = r at h4
      revert r; decide
    rw [if_pos hf]
    congr 1
    cases b <;> rfl
  · have e := countRun_below (s := s) (b := b) (by omega)
    refine .inr (.inr ⟨hr, by omega, ?_⟩)
    have hf : ¬ (s.setRun b (s.run b + 1)).full b = true := by
      simp only [StuffState.full, setRun_run, decide_eq_true_eq]
      generalize s.run b = r at h4
      revert r; decide
    rw [e, if_neg hf]

theorem seed_oneRun (s : StuffState) (b : Bit) : (s.seed b).OneRun := by
  cases b <;> simp [StuffState.OneRun, StuffState.seed]

theorem setRun_oneRun {s : StuffState} (h : s.OneRun) {b : Bit} (hb : s.run b ≠ 0)
    (n : BitVec 3) : (s.setRun b n).OneRun := by
  cases b <;> simp_all [StuffState.OneRun, StuffState.setRun, StuffState.run]

theorem countRun_oneRun {s : StuffState} (h : s.OneRun) {b : Bit} (hb : s.run b ≠ 0) :
    (s.countRun b).OneRun := setRun_oneRun h hb _

/-- The decode direction keeps it that one polarity at most has a run. 10_state.md R25. -/
theorem stfDestuff_oneRun {s : StuffState} (h : s.OneRun) (b : Bit) :
    (stfDestuff s b).2.OneRun := by
  rcases stfDestuff_cases s b with
    ⟨-, e⟩ | ⟨-, -, e⟩ | ⟨-, -, ⟨-, -, e⟩ | ⟨-, -, e⟩ | ⟨-, -, e⟩ | ⟨hr, -, e⟩⟩ <;> rw [e]
  · exact h
  · exact h
  · simpa [StuffState.OneRun] using seed_oneRun s b
  · exact seed_oneRun s b
  · exact h
  · exact countRun_oneRun h hr

/-- The encode direction keeps it too. 10_state.md R25. -/
theorem stfStuff_oneRun {s : StuffState} (h : s.OneRun) (b : Bit) : (stfStuff s b).2.OneRun := by
  rcases stfStuff_cases s b with ⟨-, e⟩ | ⟨-, ⟨-, e⟩ | ⟨-, e⟩ | ⟨hr, -, e⟩⟩ <;> rw [e]
  · exact h
  · exact seed_oneRun s b
  · simpa [StuffState.OneRun] using seed_oneRun s (!b)
  · exact setRun_oneRun h hr _

theorem seed_bounded (s : StuffState) (b : Bit) : (s.seed b).Bounded := by
  cases b <;> simp [StuffState.Bounded, StuffState.OneRun, StuffState.seed]

theorem setRun_bounded {s : StuffState} (h : s.Bounded) {b : Bit} (hb : s.run b ≠ 0) {n : BitVec 3}
    (hn : n.toNat ≤ 5) : (s.setRun b n).Bounded := by
  refine ⟨setRun_oneRun h.1 hb n, ?_⟩
  obtain ⟨-, h0, h1⟩ := h
  cases b
  · exact ⟨hn, h1⟩
  · exact ⟨h0, hn⟩

theorem countRun_bounded {s : StuffState} (h : s.Bounded) {b : Bit} (hb : s.run b ≠ 0) :
    (s.countRun b).Bounded := by
  refine setRun_bounded h hb ?_
  generalize s.run b = r
  revert r; decide

/-- The decode direction keeps the runs within the trigger. 10_state.md R25. -/
theorem stfDestuff_bounded {s : StuffState} (h : s.Bounded) (b : Bit) :
    (stfDestuff s b).2.Bounded := by
  rcases stfDestuff_cases s b with
    ⟨-, e⟩ | ⟨-, -, e⟩ | ⟨-, -, ⟨-, -, e⟩ | ⟨-, -, e⟩ | ⟨-, -, e⟩ | ⟨hr, -, e⟩⟩ <;> rw [e]
  · exact h
  · exact h
  · simpa [StuffState.Bounded, StuffState.OneRun] using seed_bounded s b
  · exact seed_bounded s b
  · exact h
  · exact countRun_bounded h hr

/-- The encode direction keeps them too, whichever direction ran before. 10_state.md R25, log 5. -/
theorem stfStuff_bounded {s : StuffState} (h : s.Bounded) (b : Bit) :
    (stfStuff s b).2.Bounded := by
  rcases stfStuff_cases s b with ⟨-, e⟩ | ⟨-, ⟨-, e⟩ | ⟨-, e⟩ | ⟨hr, hlt, e⟩⟩ <;> rw [e]
  · exact h
  · exact seed_bounded s b
  · simpa [StuffState.Bounded, StuffState.OneRun] using seed_bounded s (!b)
  · refine setRun_bounded h hr ?_
    generalize s.run b = r at hlt
    revert r; decide

end Sys2Proof.Machine
end

