-- ==== Sys2Proof/Laws/Exec.lean ====
section
/-! SUPPORT. Every command answers a next state with one more response, and so does every step that takes a
word. -/

namespace Sys2Proof.Machine

theorem respond_eq (payload : Payload) (s : State) :
    respond payload s = .next (s.answer ⟨.ok, payload⟩) := rfl

theorem reject_eq (status : Status) (s : State) :
    reject status s = .next (s.answer ⟨status, .empty⟩) := rfl

/-- A command writes registers, keeps the port, and is answered. 60_exceptions.md R268, 20_memory.md R69. -/
theorem exec_answers (i : Instr) (s : State) :
    ∃ (u : State) (r : Response), exec i s = .next (u.answer r) ∧ u.cmds = s.cmds ∧ u.responses = s.responses := by
  cases i <;>
    simp only [exec, execNop, execReset, execStatus, execCrcInit, execCrcBit, execCrcField, execCrcFinal,
      execStfReset, execStfDestuff, execStfStuff, execStfEnable, execDecBit, execDecEos, execDecAbort,
      execEncHdr, execEncByte, execEncRun, respond_eq, reject_eq] <;>
    (try split) <;> exact ⟨_, _, rfl, rfl, rfl⟩

/-- A step with a word pending takes it and answers it. 20_memory.md R69. -/
theorem step_answers (s : State) (w : Command) (rest : List Command) (h : s.cmds = w :: rest) :
    ∃ (u : State) (r : Response), step s = .next (u.answer r) ∧ u.cmds = rest ∧ u.responses = s.responses := by
  simp only [step, takeCommand, h]
  cases decode w with
  | ok i => exact exec_answers i { s with cmds := rest }
  | error e => exact ⟨_, _, rfl, rfl, rfl⟩

/-- Placing a word and stepping runs the command it decodes to, on the state as it was. -/
theorem step_placeFirst (s : State) (w : Command) (i : Instr) (h : decode w = .ok i) :
    step (placeFirst s w) = exec i s := by
  simp [step, takeCommand, placeFirst, h]

end Sys2Proof.Machine
end

