-- ==== Sys2Proof/Laws/Frame.lean ====
section
/-! SUPPORT. Everything a raw symbol can do to the decoder, case by case, so that no later proof unfolds the
dispatch of `decodeSymbol`. -/

namespace Sys2Proof.Machine

/-! ### The dispatch of a symbol (42_decoder.md R172 to R175) -/

theorem decodeSymbol_idle {d : DecState} (a : Bool) (p : Pos) (c : BitClass) (h : d.stage = .sof) :
    decodeSymbol d recessive a p c = ⟨d, .idleSkip, none⟩ := by
  simp [decodeSymbol, h, sofStage, recessive]

/-- A dominant symbol in stage `SOF` starts the frame. 42_decoder.md R173. -/
theorem decodeSymbol_start {d : DecState} (a : Bool) (p : Pos) (c : BitClass) (h : d.stage = .sof) :
    decodeSymbol d dominant a p c =
      acceptData
        { d with
          start := some p
          last := some p
          raw := [⟨dominant, a, p⟩]
          stf := (stfDestuff d.stf dominant).2 }
        dominant a p := by
  simp [decodeSymbol, h, sofStage, dominant]

/-- A symbol classed as data in a frame is kept and delivered. 42_decoder.md R174. -/
theorem decodeSymbol_data {d : DecState} (v a : Bool) (p : Pos) (c : BitClass) (hs : d.stage ≠ .sof)
    (he : d.stage ≠ .ended) (hf : d.stage ≠ .hardFail)
    (hd : d.stf.en = false ∨ (stfDestuff d.stf v).1 = .data) :
    decodeSymbol d v a p c =
      acceptData
        { keepSymbol d v a p with
          stf := if d.stf.en then (stfDestuff d.stf v).2 else d.stf } v a p := by
  cases hen : d.stf.en
  · simp [decodeSymbol, hs, he, hf, inFrameSymbol, keepSymbol, hen]
  · have hc : (stfDestuff d.stf v).1 = .data := hd.resolve_left (by simp [hen])
    simp [decodeSymbol, hs, he, hf, inFrameSymbol, keepSymbol, hen, hc]

/-- A stuff bit is kept and dropped. 42_decoder.md R174. -/
theorem decodeSymbol_stuff {d : DecState} (v a : Bool) (p : Pos) (c : BitClass) (hs : d.stage ≠ .sof)
    (he : d.stage ≠ .ended) (hf : d.stage ≠ .hardFail) (hen : d.stf.en = true)
    (hc : (stfDestuff d.stf v).1 = .stuff) :
    decodeSymbol d v a p c =
      ⟨let k := { keepSymbol d v a p with stf := (stfDestuff d.stf v).2 }
        if a then k else diagnose k .stuffAnnotMissing d.stage (some p), .stuff, none⟩ := by
  simp [decodeSymbol, hs, he, hf, inFrameSymbol, keepSymbol, hen, hc]

/-- A stuff violation abandons the frame. 42_decoder.md R175. -/
theorem decodeSymbol_violation {d : DecState} (v a : Bool) (p : Pos) (c : BitClass)
    (hs : d.stage ≠ .sof) (he : d.stage ≠ .ended) (hf : d.stage ≠ .hardFail)
    (hen : d.stf.en = true) (hc : (stfDestuff d.stf v).1 = .violation) :
    decodeSymbol d v a p c =
      ⟨failFrame { keepSymbol d v a p with stf := (stfDestuff d.stf v).2 } (stuffRunCode v) d.stage p,
        .violation, none⟩ := by
  simp [decodeSymbol, hs, he, hf, inFrameSymbol, keepSymbol, hen, hc]

/-- A symbol in `HARD_FAIL` is kept and scanned. 42_decoder.md R189. -/
theorem decodeSymbol_hardFail {d : DecState} (v a : Bool) (p : Pos) (c : BitClass)
    (h : d.stage = .hardFail) :
    decodeSymbol d v a p c =
      ⟨(scan (keepSymbol d v a p) v p).1, .resyncScan, (scan (keepSymbol d v a p) v p).2⟩ := by
  simp [decodeSymbol, h]

/-- A symbol in stage `ENDED`. 42_decoder.md R194. -/
theorem decodeSymbol_ended {d : DecState} (v a : Bool) (p : Pos) (c : BitClass)
    (h : d.stage = .ended) :
    decodeSymbol d v a p c =
      ⟨(internalUnreachable d p).1, c, some (internalUnreachable d p).2⟩ := by
  simp [decodeSymbol, h]

/-! ### The end of a frame (42_decoder.md R189, R190) -/

theorem finish_dec (d : DecState) : (finish d).1 = { frameInit d with seq := d.seq + 1 } := rfl

theorem finishAt_dec (d : DecState) (r : Resync) :
    (finishAt d r).1 = { frameInit d with seq := d.seq + 1 } := rfl

/-- The scan goes on, or ends the frame at its tenth recessive bit. 42_decoder.md R189. -/
theorem scan_cases (d : DecState) (v : Bit) (p : Pos) :
    (v = false ∧ scan d v p = ({ d with recRun := 0 }, none)) ∨
    (v = true ∧ d.recRun ≠ 9 ∧ scan d v p = ({ d with recRun := d.recRun + 1 }, none)) ∨
    (v = true ∧ d.recRun = 9 ∧ ∃ r, scan d v p = ({ frameInit d with seq := d.seq + 1 }, some r) ∧
      r = frameRecord { d with recRun := 10, resync := .atPos p, stage := .ended }) := by
  cases v
  · exact .inl ⟨rfl, by simp [scan, Config.resyncRun]⟩
  · refine .inr ?_
    by_cases h : d.recRun = 9
    · refine .inr ⟨rfl, h, _, ?_, rfl⟩
      simp [scan, h, Config.resyncRun, finishAt, finish, frameInit]
    · refine .inl ⟨rfl, h, ?_⟩
      have hn : ¬ (d.recRun + 1).toNat = 10 := fun e =>
        h (by have := BitVec.eq_of_toNat_eq (y := 10#4) e; bv_omega)
      simp only [scan, Config.resyncRun, if_true, hn, if_false]

/-! ### What a stage leaves alone (42_decoder.md R177 to R188) -/

/-- A stage action that ends no frame leaves the buffers, the diagnostics, the positions, the scan's result and
the sequence number alone. -/
theorem stageAction_kept (d : DecState) (v : Bit) (p : Pos) (h : (stageAction d v p).2 = none) :
    (stageAction d v p).1.raw = d.raw ∧ (stageAction d v p).1.dst = d.dst ∧
      (stageAction d v p).1.diag = d.diag ∧ (stageAction d v p).1.start = d.start ∧
      (stageAction d v p).1.last = d.last ∧ (stageAction d v p).1.resync = d.resync ∧
      (stageAction d v p).1.seq = d.seq := by
  unfold stageAction at h ⊢
  split at h <;>
    simp only [stageArbitrationId, stageRtrOrSrr, stageIde, stageExtendedId, stageRtr, stageR1,
      stageR0, stageDlc, stageData, stageCrc, cacheCrc, stageCrcDelimiter, stageAckSlot,
      stageAckDelimiter, stageEof, stageIfs, failFrame, enterHardFail, violate] at h ⊢ <;>
    (repeat' split) <;> simp_all

/-- Only the third recessive IFS bit ends a frame. 42_decoder.md R188. -/
theorem stageAction_ends (d : DecState) (v : Bit) (p : Pos) (r : FrameRecord)
    (h : (stageAction d v p).2 = some r) :
    d.stage = .ifs ∧ v = true ∧ d.fields.ifsN = 2 ∧
      stageAction d v p = ({ frameInit d with seq := d.seq + 1 }, some r) := by
  unfold stageAction at h ⊢
  split at h <;> try (simp at h)
  rename_i hs
  simp only [stageIfs] at h ⊢
  split at h
  · rename_i hv
    split at h
    · rename_i hn
      have e : d.fields.ifsN = 2 := by
        have := BitVec.eq_of_toNat_eq (y := 3#2) hn
        bv_omega
      refine ⟨hs, hv, e, ?_⟩
      simp only [hv, hn, if_true]
      simpa [finish, frameInit] using h
    · simp at h
  · simp at h

end Sys2Proof.Machine
end

