-- ==== Sys2Proof/Laws/PerInstr.lean ====
section
/-! SUPPORT. A family of facts with one lemma for each command: an encoded word carries its opcode and sets no
reserved bit. -/

namespace Sys2Proof.Laws.EncodedForm

/-- The word of a command has its opcode byte and no reserved bit. 30_encoding.md R95 to R102. -/
def Statement (i : Instr) : Prop :=
  cmdField (encode i) 56 8 = i.opcode.code ∧ encode i &&& i.opcode.format.reserved = 0

/-- The reserved bits of a format are clear in a word whose operand bits are clear there. -/
theorem of_operandBits (i : Instr)
    (h : ∀ k < 56, i.opcode.format.reserved.getLsbD k = true → i.operandBits.getLsbD k = false)
    (top : ∀ k, 56 ≤ k → i.opcode.format.reserved.getLsbD k = false) : Statement i := by
  refine ⟨cmdField_opcode_encode i, BitVec.eq_of_getLsbD_eq fun k hk => ?_⟩
  rw [BitVec.getLsbD_and, show (0 : BitVec 64).getLsbD k = false from BitVec.getLsbD_zero]
  by_cases hr : i.opcode.format.reserved.getLsbD k = true
  · by_cases h56 : k < 56
    · rw [getLsbD_encode i k h56, h k h56 hr, Bool.false_and]
    · simp [top k (by omega)]
  · simp [Bool.eq_false_iff.mpr hr]

theorem f0 (i : Instr) (hf : i.opcode.format = .f0) (ho : i.operandBits = 0) : Statement i :=
  of_operandBits i (by simp [ho]) (by
    intro k hk; simp only [hf, Format.reserved]; rw [getLsbD_bitRange _ _ _ (by omega)]; simp; omega)

theorem fb (i : Instr) (b : Bit) (hf : i.opcode.format = .fb)
    (ho : i.operandBits = 0#55 ++ BitVec.ofBool b) : Statement i :=
  of_operandBits i
    (by
      intro k hk hr
      simp only [hf, Format.reserved] at hr
      rw [getLsbD_bitRange _ _ _ (by omega)] at hr
      simp only [Bool.and_eq_true, decide_eq_true_eq] at hr
      rw [ho, BitVec.getLsbD_append, if_neg (by omega), BitVec.getLsbD_zero])
    (by
      intro k hk; simp only [hf, Format.reserved]; rw [getLsbD_bitRange _ _ _ (by omega)]
      simp; omega)

theorem nop : Statement .nop := f0 _ rfl rfl
theorem reset : Statement .reset := f0 _ rfl rfl
theorem status : Statement .status := f0 _ rfl rfl
theorem crcFinal : Statement .crcFinal := f0 _ rfl rfl
theorem stfReset : Statement .stfReset := f0 _ rfl rfl
theorem decEos : Statement .decEos := f0 _ rfl rfl
theorem decAbort : Statement .decAbort := f0 _ rfl rfl
theorem encRun : Statement .encRun := f0 _ rfl rfl
theorem crcBit (b : Bit) : Statement (.crcBit b) := fb _ b rfl rfl
theorem stfDestuff (b : Bit) : Statement (.stfDestuff b) := fb _ b rfl rfl
theorem stfStuff (b : Bit) : Statement (.stfStuff b) := fb _ b rfl rfl
theorem stfEnable (b : Bit) : Statement (.stfEnable b) := fb _ b rfl rfl

theorem crcInit (poly : BitVec 32) : Statement (.crcInit poly) :=
  of_operandBits _
    (by
      intro k hk hr
      simp only [Instr.opcode, Opcode.format, Format.reserved] at hr
      rw [getLsbD_bitRange _ _ _ (by omega)] at hr
      simp only [Bool.and_eq_true, decide_eq_true_eq] at hr
      rw [Instr.operandBits, BitVec.getLsbD_append, if_neg (by omega), BitVec.getLsbD_zero])
    (by
      intro k hk; simp only [Instr.opcode, Opcode.format, Format.reserved]
      rw [getLsbD_bitRange _ _ _ (by omega)]; simp; omega)

theorem crcField (width : BitVec 6) (value : BitVec 32) : Statement (.crcField width value) :=
  of_operandBits _
    (by
      intro k hk hr
      simp only [Instr.opcode, Opcode.format, Format.reserved] at hr
      rw [getLsbD_bitRange _ _ _ (by omega)] at hr
      simp only [Bool.and_eq_true, decide_eq_true_eq] at hr
      rw [Instr.operandBits, BitVec.getLsbD_append, if_neg (by omega), BitVec.getLsbD_append,
        if_neg (by omega), BitVec.getLsbD_zero])
    (by
      intro k hk; simp only [Instr.opcode, Opcode.format, Format.reserved]
      rw [getLsbD_bitRange _ _ _ (by omega)]; simp; omega)

theorem decBit (value annot : Bit) (line col : BitVec 24) :
    Statement (.decBit value annot line col) :=
  of_operandBits _
    (by
      intro k hk hr
      simp only [Instr.opcode, Opcode.format, Format.reserved] at hr
      rw [getLsbD_bitRange _ _ _ (by omega)] at hr
      simp only [Bool.and_eq_true, decide_eq_true_eq] at hr
      rw [Instr.operandBits, BitVec.getLsbD_append, if_neg (by omega), BitVec.getLsbD_append,
        if_neg (by omega), BitVec.getLsbD_append, if_pos (by omega), BitVec.getLsbD_zero])
    (by
      intro k hk; simp only [Instr.opcode, Opcode.format, Format.reserved]
      rw [getLsbD_bitRange _ _ _ (by omega)]; simp; omega)

theorem encHdr (id : BitVec 29) (rtr : Bit) (len : BitVec 4) : Statement (.encHdr id rtr len) :=
  of_operandBits _
    (by
      intro k hk hr
      simp only [Instr.opcode, Opcode.format, Format.reserved, BitVec.getLsbD_or] at hr
      rw [getLsbD_bitRange _ _ _ (by omega), getLsbD_bitRange _ _ _ (by omega),
        getLsbD_bitRange _ _ _ (by omega)] at hr
      simp only [Bool.and_eq_true, Bool.or_eq_true, decide_eq_true_eq] at hr
      simp only [Instr.operandBits, BitVec.getLsbD_append, BitVec.getLsbD_zero]
      rcases hr with (hr | hr) | hr
      · rw [if_neg (by omega), if_pos (by omega)]
      · rw [if_neg (by omega), if_neg (by omega), if_neg (by omega), if_pos (by omega)]
      · rw [if_neg (by omega), if_neg (by omega), if_neg (by omega), if_neg (by omega),
          if_neg (by omega)])
    (by
      intro k hk; simp only [Instr.opcode, Opcode.format, Format.reserved, BitVec.getLsbD_or]
      rw [getLsbD_bitRange _ _ _ (by omega), getLsbD_bitRange _ _ _ (by omega),
        getLsbD_bitRange _ _ _ (by omega)]
      simp; omega)

theorem encByte (index : BitVec 3) (byte : Byte) : Statement (.encByte index byte) :=
  of_operandBits _
    (by
      intro k hk hr
      simp only [Instr.opcode, Opcode.format, Format.reserved] at hr
      rw [getLsbD_bitRange _ _ _ (by omega)] at hr
      simp only [Bool.and_eq_true, decide_eq_true_eq] at hr
      rw [Instr.operandBits, BitVec.getLsbD_append, if_neg (by omega), BitVec.getLsbD_append,
        if_neg (by omega), BitVec.getLsbD_zero])
    (by
      intro k hk; simp only [Instr.opcode, Opcode.format, Format.reserved]
      rw [getLsbD_bitRange _ _ _ (by omega)]; simp; omega)

end Sys2Proof.Laws.EncodedForm
end

