-- ==== Sys2Proof/Machine/Assembler.lean ====
section
/-! DEFINITION. The assembly syntax of 30_encoding.md R110: one line of text to a command. It is the host's,
outside the block; what R110 does not say (white space, ranges) is log 10. -/

namespace Sys2Proof.Machine

/-- The mnemonics, as spec/opcode_table.json spells them. 30_encoding.md R96. -/
def mnemonic : Opcode → List Char
  | .nop => "NOP".toList | .reset => "RESET".toList | .status => "STATUS".toList
  | .crcInit => "CRC_INIT".toList | .crcBit => "CRC_BIT".toList | .crcField => "CRC_FIELD".toList
  | .crcFinal => "CRC_FINAL".toList | .stfReset => "STF_RESET".toList
  | .stfDestuff => "STF_DESTUFF".toList | .stfStuff => "STF_STUFF".toList
  | .stfEnable => "STF_ENABLE".toList | .decBit => "DEC_BIT".toList | .decEos => "DEC_EOS".toList
  | .decAbort => "DEC_ABORT".toList | .encHdr => "ENC_HDR".toList | .encByte => "ENC_BYTE".toList
  | .encRun => "ENC_RUN".toList

/-- Every opcode. -/
def allOpcodes : List Opcode :=
  [.nop, .reset, .status, .crcInit, .crcBit, .crcField, .crcFinal, .stfReset, .stfDestuff,
    .stfStuff, .stfEnable, .decBit, .decEos, .decAbort, .encHdr, .encByte, .encRun]

/-- The value of a digit in a base of at most 16. -/
def digitValue (base : Nat) (c : Char) : Option Nat :=
  let n := c.toNat
  let v :=
    if 48 ≤ n && n ≤ 57 then n - 48
    else if 65 ≤ n && n ≤ 70 then n - 55
    else if 97 ≤ n && n ≤ 102 then n - 87
    else 16
  if v < base then some v else none

/-- A number from its digits, the value so far given. -/
def digitsValue (base acc : Nat) : List Char → Option Nat
  | [] => some acc
  | c :: cs => (digitValue base c).bind fun v => digitsValue base (base * acc + v) cs

/-- A decimal number, or a hexadecimal one with `0x`. 30_encoding.md R110. -/
def number : List Char → Option Nat
  | [] => none
  | '0' :: 'x' :: c :: cs => digitsValue 16 0 (c :: cs)
  | c :: cs => digitsValue 10 0 (c :: cs)

/-- The parts of a text between separators. -/
def splitAt (sep : Char) : List Char → List (List Char)
  | [] => [[]]
  | c :: cs =>
    if c = sep then [] :: splitAt sep cs
    else
      match splitAt sep cs with
      | [] => [[c]]
      | part :: parts => (c :: part) :: parts

/-- The operands of a line, spaces dropped; none at all where nothing is written. -/
def operandTexts (text : List Char) : List (List Char) :=
  match text.filter (· != ' ') with
  | [] => []
  | c :: cs => splitAt ',' (c :: cs)

/-- A number that fits `n` bits. -/
def fits (n v : Nat) : Option (BitVec n) := if v < 2 ^ n then some (BitVec.ofNat n v) else none

/-- A bit operand. -/
def bitOperand (v : Nat) : Option Bit := if v < 2 then some (v == 1) else none

/-- The command of a mnemonic and its operands, in the order of 30_encoding.md R110. -/
def assembleOperands (op : Opcode) (vs : List Nat) : Option Instr :=
  match op, vs with
  | .nop, [] => some .nop
  | .reset, [] => some .reset
  | .status, [] => some .status
  | .crcInit, [p] => (fits 32 p).map .crcInit
  | .crcBit, [b] => (bitOperand b).map .crcBit
  | .crcField, [w, v] => (fits 6 w).bind fun w => (fits 32 v).map (.crcField w)
  | .crcFinal, [] => some .crcFinal
  | .stfReset, [] => some .stfReset
  | .stfDestuff, [b] => (bitOperand b).map .stfDestuff
  | .stfStuff, [b] => (bitOperand b).map .stfStuff
  | .stfEnable, [b] => (bitOperand b).map .stfEnable
  | .decBit, [v, a, l, c] =>
    (bitOperand v).bind fun v => (bitOperand a).bind fun a => (fits 24 l).bind fun l =>
      (fits 24 c).map (.decBit v a l)
  | .decEos, [] => some .decEos
  | .decAbort, [] => some .decAbort
  | .encHdr, [i, r, l] =>
    (fits 29 i).bind fun i => (bitOperand r).bind fun r => (fits 4 l).map (.encHdr i r)
  | .encByte, [i, b] => (fits 3 i).bind fun i => (fits 8 b).map (.encByte i)
  | .encRun, [] => some .encRun
  | _, _ => none

/-- A line of assembly. 30_encoding.md R110. -/
def assemble (line : List Char) : Option Instr :=
  (allOpcodes.find? fun op => mnemonic op = line.takeWhile (· != ' ')).bind fun op =>
    ((operandTexts (line.dropWhile (· != ' '))).mapM number).bind (assembleOperands op)

end Sys2Proof.Machine
end

