-- ==== Sys2Proof/Tests/Slice0.lean ====
section
/-! SUPPORT. The model's own tests: well-formedness, decoding, one step of each command, and for every statement
with hypotheses a state and operands that meet them. Expected values are those of the spec. -/

namespace Sys2Proof.Tests

open Sys2Proof.Machine Sys2Proof.Claims

/-! ### Well-formedness (60_exceptions.md R267) -/

theorem test_poly_zero_is_ill_formed : (Instr.crcInit 0).wellFormed = false := by decide
theorem test_width_zero_is_ill_formed : (Instr.crcField 0 5).wellFormed = false := by decide
theorem test_width_33_is_ill_formed : (Instr.crcField 33 5).wellFormed = false := by decide
theorem test_len_nine_is_ill_formed : (Instr.encHdr 0x123 false 9).wellFormed = false := by decide
theorem test_legal_operands_are_well_formed :
    (Instr.crcInit 1).wellFormed = true ∧ (Instr.crcField 1 0).wellFormed = true ∧
      (Instr.crcField 32 0).wellFormed = true ∧ (Instr.encHdr 0x1FFFFFFF true 8).wellFormed = true ∧
      (Instr.encByte 7 0xFF).wellFormed = true := by decide

/-! ### Decoding: words laid out field by field from 30_encoding.md R96 to R101 -/

theorem test_decode_nop : decode (0x01#8 ++ 0#56) = .ok .nop := by decide
theorem test_decode_reset : decode (0x02#8 ++ 0#56) = .ok .reset := by decide
theorem test_decode_status : decode (0x03#8 ++ 0#56) = .ok .status := by decide
theorem test_decode_crcInit : decode (0x10#8 ++ 0#24 ++ 0x8005#32) = .ok (.crcInit 0x8005) := by
  decide
theorem test_decode_crcBit : decode (0x11#8 ++ 0#55 ++ 1#1) = .ok (.crcBit true) := by decide
theorem test_decode_crcField :
    decode (0x12#8 ++ 0#18 ++ 32#6 ++ 0xFFFF0001#32) = .ok (.crcField 32 0xFFFF0001) := by decide
theorem test_decode_crcFinal : decode (0x13#8 ++ 0#56) = .ok .crcFinal := by decide
theorem test_decode_stfReset : decode (0x18#8 ++ 0#56) = .ok .stfReset := by decide
theorem test_decode_stfDestuff : decode (0x19#8 ++ 0#55 ++ 1#1) = .ok (.stfDestuff true) := by decide
theorem test_decode_stfStuff : decode (0x1A#8 ++ 0#55 ++ 1#1) = .ok (.stfStuff true) := by decide
theorem test_decode_stfEnable : decode (0x1B#8 ++ 0#55 ++ 0#1) = .ok (.stfEnable false) := by decide
/-- R100: line, column, six reserved bits, annotation, value. -/
theorem test_decode_decBit :
    decode (0x20#8 ++ 0xABCDEF#24 ++ 0x123456#24 ++ 0#6 ++ 1#1 ++ 0#1) =
      .ok (.decBit false true 0xABCDEF 0x123456) := by decide
theorem test_decode_decEos : decode (0x21#8 ++ 0#56) = .ok .decEos := by decide
theorem test_decode_decAbort : decode (0x22#8 ++ 0#56) = .ok .decAbort := by decide
/-- R101: `len` at 43:40, `rtr` at 32, `id` at 28:0. -/
theorem test_decode_encHdr :
    decode (0x30#8 ++ 0#12 ++ 5#4 ++ 0#7 ++ 1#1 ++ 0#3 ++ 0x1ABCDEF#29) =
      .ok (.encHdr 0x1ABCDEF true 5) := by decide
theorem test_decode_encByte :
    decode (0x31#8 ++ 0#45 ++ 6#3 ++ 0xA5#8) = .ok (.encByte 6 0xA5) := by decide
theorem test_decode_encRun : decode (0x32#8 ++ 0#56) = .ok .encRun := by decide

/-- 95_test_vectors.md V-CTL2 to V-CTL5, V-CRC20, V-ENC18, V-ENC19. -/
theorem test_malformed_words :
    decode 0x0000000000000001 = .error .illegalOpcode ∧
    decode 0x4000000000000000 = .error .illegalOpcode ∧
    decode 0x0100000000000001 = .error .reservedNonzero ∧
    decode 0x1100000000000002 = .error .reservedNonzero ∧
    decode 0x2000000100000104 = .error .reservedNonzero ∧
    decode 0x3000000020000000 = .error .reservedNonzero ∧
    decode 0x3100000000000800 = .error .reservedNonzero := by decide

/-- A word placed by `withFetchWord` is what the next step runs. V-ENC14. -/
theorem test_fetch_word :
    step (State.reset.withFetchWord 64 0x31000000000001CD) =
      exec (.encByte 1 0xCD) State.reset := rfl

/-! ### One step of each command -/

/-- The response a step gives, `none` for a stop. -/
def answerOf (r : StepResult) : Option Response :=
  match r with
  | .next s => s.responses.getLast?
  | .fault _ => none
  | .refused _ => none

/-- What a step leaves of the state. -/
def after {α : Type} (f : State → α) (r : StepResult) : Option α :=
  match r with
  | .next s => some (f s)
  | .fault _ => none
  | .refused _ => none

/-- Reset with another standalone CRC engine. -/
def withCrc (c : CrcState) : State := { State.reset with crcu := c }

/-- Reset with another standalone stuffing engine. -/
def withStf (e : StuffState) : State := { State.reset with stfu := e }

/-- Reset with another decoder. -/
def withDec (d : DecState) : State := { State.reset with dec := d }

/-- A decoder in a stage of a frame whose stuffing is switched on or off. -/
def inStage (S : Stage) (en : Bool) : State :=
  withDec { DecState.fresh with stage := S, stf := ⟨1, 0, 0, 0, en, false⟩ }

theorem test_nop : after id (exec .nop State.reset) =
    some { State.reset with responses := [⟨.ok, .empty⟩] } := by decide
theorem test_reset_keeps_no_frame :
    after (fun s => (s.dec.stage, s.dec.seq))
      (exec .reset (withDec { DecState.fresh with stage := .data, seq := 3 })) = some (.sof, 0) := by
  decide
/-- 45_control.md R260. -/
theorem test_status_of_reset :
    ((answerOf (exec .status State.reset)).map fun r => (r.status, match r.payload with
      | .snapshot q => (q.crcu.poly, q.crcu.width, q.stfu.en, q.stage)
      | _ => (0, 0, false, .ended))) = some (.ok, 0x4599, 15, true, .sof) := by decide
/-- V-CRC13, V-CRC14. -/
theorem test_crcInit : answerOf (exec (.crcInit 0x8005) State.reset) = some ⟨.ok, .crcWidth 16⟩ := by
  decide
theorem test_crcInit_one : answerOf (exec (.crcInit 1) State.reset) = some ⟨.ok, .crcWidth 1⟩ := by
  decide
/-- The 18th and 19th step of V-CRC12. -/
theorem test_crcBit_shifts : after (fun s => s.crcu.reg)
    (exec (.crcBit true) (withCrc ⟨0x4599, 15, 0x2460, 17, 0⟩)) = some 0x48C1 := by decide
theorem test_crcBit_divides : after (fun s => (s.crcu.reg, s.crcu.nbits))
    (exec (.crcBit false) (withCrc ⟨0x4599, 15, 0x48C1, 18, 0⟩)) = some (0x541B, 19) := by decide
/-- V-CRC11: the bits above the width are not fed; four 1s leave 0xF. -/
theorem test_crcField : after (fun s => (s.crcu.reg, s.crcu.nbits))
    (exec (.crcField 4 0xFF) State.reset) = some (0xF, 4) := by decide
set_option maxRecDepth 20000 in
/-- V-CRC3, and V-CRC9's second finalize. -/
theorem test_crcFinal : answerOf (exec .crcFinal (withCrc ⟨0x4599, 15, 1, 1, 0⟩)) =
    some ⟨.ok, .crcValue 0x4599⟩ := by decide
set_option maxRecDepth 20000 in
theorem test_crcFinal_again : answerOf (exec .crcFinal (withCrc ⟨0x4599, 15, 0x059E, 87, 0x059E⟩)) =
    some ⟨.ok, .crcValue 0x77F2⟩ := by decide
theorem test_stfReset : after State.stfu (exec .stfReset (withStf ⟨5, 0, 2, 1, false, true⟩)) =
    some ⟨0, 0, 0, 0, true, false⟩ := by decide
/-- The last bits of V-STF7 and V-STF8. -/
theorem test_stfDestuff_stuff : after State.stfu (exec (.stfDestuff true)
    (withStf ⟨5, 0, 0, 0, true, false⟩)) = some ⟨0, 1, 0, 1, true, false⟩ := by decide
theorem test_stfDestuff_violation : after State.stfu (exec (.stfDestuff false)
    (withStf ⟨5, 0, 0, 0, true, false⟩)) = some ⟨5, 0, 0, 0, true, true⟩ := by decide
/-- The last bit of V-STF2. -/
theorem test_stfStuff : answerOf (exec (.stfStuff true) (withStf ⟨0, 4, 0, 1, true, false⟩)) =
    some ⟨.ok, .stuffed [⟨true, false⟩, ⟨false, true⟩]⟩ := by decide
theorem test_stfStuff_seeds : after State.stfu (exec (.stfStuff true)
    (withStf ⟨0, 4, 0, 1, true, false⟩)) = some ⟨1, 0, 1, 1, true, false⟩ := by decide
theorem test_stfEnable : after State.stfu (exec (.stfEnable false)
    (withStf ⟨5, 0, 0, 0, true, false⟩)) = some ⟨5, 0, 0, 0, false, false⟩ := by decide
/-- 42_decoder.md R172, example. -/
theorem test_decBit_idle : answerOf (exec (.decBit true false 1 1) State.reset) =
    some ⟨.ok, .decBit .idleSkip .sof none⟩ := by decide
theorem test_decBit_start : answerOf (exec (.decBit false false 1 2) State.reset) =
    some ⟨.ok, .decBit .data .arbitrationId none⟩ := by decide
/-- 42_decoder.md R196: mid-frame the end of stream is fatal, and the sequence number restarts. -/
theorem test_decEos : (answerOf (exec .decEos (inStage .arbitrationId true))).map (fun r =>
    match r.payload with
    | .decEos (some q) => (q.outcome, q.primary, q.resync)
    | _ => (.success, none, .none)) =
    some (.fatalFailure, some ⟨.streamEndedMidFrame, .arbitrationId, none⟩, .endOfStream) := by decide
theorem test_decEos_restarts : after (fun s => s.dec.seq)
    (exec .decEos (withDec { DecState.fresh with seq := 7 })) = some 0 := by decide
theorem test_decAbort : after State.dec
    (exec .decAbort (withDec { DecState.fresh with stage := .crc, dst := [true], seq := 7 })) =
    some { DecState.fresh with seq := 7 } := by decide
theorem test_encHdr : after (fun s => (s.enc.id, s.enc.rtr, s.enc.len, s.enc.data.toList))
    (exec (.encHdr 0x123 true 2) State.reset) =
    some (0x123, true, 2, [0, 0, 0, 0, 0, 0, 0, 0]) := by decide
theorem test_encByte : after (fun s => s.enc.data.toList) (exec (.encByte 7 0xCD) State.reset) =
    some [0, 0, 0, 0, 0, 0, 0, 0xCD] := by decide
set_option maxRecDepth 20000 in
/-- V-ENC8, whose stuffed region ends in a stuff bit. -/
theorem test_encRun :
    (answerOf (exec .encRun { State.reset with enc := { EncState.fresh with id := 0x17 } })).map
      (fun r => match r.payload with
        | .encoded e => (e.textxy, e.fields.crc, e.tot0, e.tot1)
        | _ => ([], 0, 0, 0)) =
    some ("00000y001011100000y00101001000011111x1111111111111".toList, 0x521F, 1, 2) := by decide
/-- 30_encoding.md R110: an assembly line. -/
theorem test_assemble : assemble "ENC_HDR 0x123, 0, 2".toList = some (.encHdr 0x123 false 2) := by decide

/-! ### Witnesses: states and operands that meet the hypotheses of each statement, clause by clause -/

theorem witness_EncodeInvertsDecode :
    decode 0x3000020000000123 = .ok (.encHdr 0x123 false 2) := by decide

theorem witness_OpcodeIsChecked_illegal :
    (0x3300000000000000 : Command).toNat / 2 ^ 56 ∉ legalOpcodes ∧
      (0x0000000000000001 : Command).toNat / 2 ^ 56 ∉ legalOpcodes := by decide
/-- Each end of a reserved range: bit 0 and bit 55 of F0, bits 2 and 7 of FD, bits 33, 39 and 44 of FH. -/
theorem witness_OpcodeIsChecked_reserved :
    ∀ x ∈ [((0x0100000000000001 : Command), (55, 0), 0), (0x0180000000000000, (55, 0), 55),
        (0x2000000100000104, (7, 2), 2), (0x2000000100000180, (7, 2), 7),
        (0x3000000200000000, (39, 33), 33), (0x3000008000000000, (39, 33), 39),
        (0x3000100000000000, (55, 44), 44), (0x3000000020000000, (31, 29), 29)],
      x.1.toNat / 2 ^ 56 ∈ legalOpcodes ∧ x.2.1 ∈ reservedRanges (x.1.toNat / 2 ^ 56) ∧
        x.2.1.2 ≤ x.2.2 ∧ x.2.2 ≤ x.2.1.1 ∧ x.1.getLsbD x.2.2 = true := by decide
theorem witness_OpcodeIsChecked_legal :
    (0x12000020FFFFFFFF : Command).toNat / 2 ^ 56 ∈ legalOpcodes ∧
      ∀ r ∈ reservedRanges ((0x12000020FFFFFFFF : Command).toNat / 2 ^ 56), ∀ k < 64, r.2 ≤ k →
        k ≤ r.1 → (0x12000020FFFFFFFF : Command).getLsbD k = false := by decide

/-- Reset with words pending. -/
def withWords (ws : List Command) : State := { State.reset with cmds := ws }

theorem witness_StepRunsTheDecodedCommand :
    (withWords [0x1100000000000001, 0x1300000000000000]).cmds =
        0x1100000000000001 :: [0x1300000000000000] ∧
      decode 0x1100000000000001 = .ok (.crcBit true) := by decide
theorem witness_StepAnswersMalformedWords :
    (withWords [0, 1]).cmds = 0 :: [1] ∧ decode 0 = .error .illegalOpcode ∧
      (withWords [0x0180000000000000]).cmds = 0x0180000000000000 :: [] ∧
      decode 0x0180000000000000 = .error .reservedNonzero := by decide
theorem witness_StepWithoutCommandHoldsState : State.reset.cmds = [] := rfl
theorem witness_BadOperandsAreRejected :
    (0 : BitVec 6).toNat = 0 ∧ 32 < (33 : BitVec 6).toNat ∧ 32 < (63 : BitVec 6).toNat ∧
      8 < (9 : BitVec 4).toNat ∧ 8 < (15 : BitVec 4).toNat := by decide

theorem witness_BadOperandsAreRejected_only :
    ∃ t, exec (.encHdr 0 false 9) State.reset = .next t ∧
      t.responses = State.reset.responses ++ [⟨.badOperand, .empty⟩] := ⟨_, rfl, rfl⟩

theorem witness_CommandsStayInTheirUnit_crcu :
    ∃ t, exec (.crcBit true) State.reset = .next t ∧ Instr.crcBit true ≠ .reset ∧
      t.crcu ≠ State.reset.crcu := ⟨_, rfl, by decide, by decide⟩
theorem witness_CommandsStayInTheirUnit_stfu :
    ∃ t, exec (.stfEnable false) State.reset = .next t ∧ Instr.stfEnable false ≠ .reset ∧
      t.stfu ≠ State.reset.stfu := ⟨_, rfl, by decide, by decide⟩
theorem witness_CommandsStayInTheirUnit_dec :
    ∃ t, exec (.decBit false false 1 1) State.reset = .next t ∧
      Instr.decBit false false 1 1 ≠ .reset ∧ t.dec ≠ State.reset.dec :=
  ⟨_, rfl, by decide, by decide⟩
theorem witness_CommandsStayInTheirUnit_enc :
    ∃ t, exec (.encByte 7 1) State.reset = .next t ∧ Instr.encByte 7 1 ≠ .reset ∧
      t.enc ≠ State.reset.enc := ⟨_, rfl, by decide, by decide⟩

theorem witness_CrcInitInfersWidth : (1 : BitVec 32) ≠ 0 ∧ (0x80000000 : BitVec 32) ≠ 0 := by decide
/-- The two remainders of V-CRC12's last two steps, and the widest engine at its top. -/
theorem witness_CrcBitDividesOneStep :
    (withCrc ⟨0x4599, 15, 0x2460, 17, 0⟩).crcu.Inv ∧ 2 * 0x2460 + true.toNat < 2 ^ 15 ∧
      (withCrc ⟨0x4599, 15, 0x48C1, 18, 0⟩).crcu.Inv ∧ 2 ^ 15 ≤ 2 * 0x48C1 + false.toNat ∧
      (withCrc ⟨0xFFFFFFFF, 32, 0xFFFFFFFF, 0, 0⟩).crcu.Inv ∧
      2 ^ 32 ≤ 2 * 0xFFFFFFFF + false.toNat := by decide
theorem witness_CrcFieldFeedsMsbFirst :
    1 ≤ (1 : BitVec 6).toNat ∧ (1 : BitVec 6).toNat ≤ 32 ∧ 1 ≤ (32 : BitVec 6).toNat ∧
      (32 : BitVec 6).toNat ≤ 32 := by decide
theorem witness_CrcFinalPadsAndReturnsRemainder :
    State.reset.crcu.Inv ∧ (withCrc ⟨1, 1, 1, 0, 0⟩).crcu.Inv := by decide
theorem witness_CrcIsPolynomialRemainder : (0x8005 : BitVec 32) ≠ 0 := by decide
theorem witness_CrcIsLinear :
    (0x4599 : BitVec 32) ≠ 0 ∧ ([true, false] : List Bit).length = [true, true].length := by decide

theorem witness_StfDestuffClassifies :
    let fresh : StuffState := ⟨0, 0, 0, 0, true, false⟩
    let zeros : StuffState := ⟨5, 0, 0, 0, true, false⟩
    (withStf ⟨5, 0, 0, 0, false, true⟩).stfu.en = false ∧
    ((withStf ⟨5, 0, 0, 0, true, true⟩).stfu.en = true ∧
      (withStf ⟨5, 0, 0, 0, true, true⟩).stfu.viol = true) ∧
    ((withStf fresh).stfu.en = true ∧ (withStf fresh).stfu.viol = false) ∧
    ((withStf zeros).stfu.run0.toNat ≤ 5 ∧ (withStf zeros).stfu.run1.toNat ≤ 5) ∧
    (runOf (withStf zeros).stfu true = 0 ∧ runOf (withStf zeros).stfu (!true) = 5) ∧
    (runOf (withStf fresh).stfu false = 0 ∧ runOf (withStf fresh).stfu (!false) ≠ 5) ∧
    runOf (withStf zeros).stfu false = 5 ∧
    (runOf (withStf ⟨4, 0, 0, 0, true, false⟩).stfu false ≠ 0 ∧
      runOf (withStf ⟨4, 0, 0, 0, true, false⟩).stfu false ≠ 5) := by decide
theorem witness_StfStuffEmitsAndInserts :
    (withStf ⟨3, 0, 0, 0, false, false⟩).stfu.en = false ∧
    (withStf ⟨3, 0, 0, 0, true, false⟩).stfu.en = true ∧
    runOf (withStf ⟨3, 0, 0, 0, true, false⟩).stfu true = 0 ∧
    runOf (withStf ⟨4, 0, 0, 0, true, false⟩).stfu false = 4 ∧
    (runOf (withStf ⟨3, 0, 0, 0, true, false⟩).stfu false ≠ 0 ∧
      (runOf (withStf ⟨3, 0, 0, 0, true, false⟩).stfu false).toNat < 4) := by decide
theorem witness_MixedDirectionsStayWithinTheTrigger :
    (withStf ⟨5, 0, 0, 0, true, false⟩).stfu.Bounded ∧
    (withStf ⟨5, 0, 0, 0, true, false⟩).stfu.en = true ∧
    runOf (withStf ⟨5, 0, 0, 0, true, false⟩).stfu false = 5 ∧
    (withStf ⟨5, 0, 0, 0, true, false⟩).stfu.viol = false ∧
    (withStf ⟨0, 0, 0, 0, true, false⟩).stfu.Bounded ∧
    (∃ t, exec (.stfStuff false) (withStf ⟨5, 0, 0, 0, true, false⟩) = .next t) ∧
    ∃ t, exec (.stfDestuff false) (withStf ⟨5, 0, 0, 0, true, false⟩) = .next t :=
  ⟨by decide, by decide, by decide, by decide, by decide, ⟨_, rfl⟩, _, rfl⟩
/-- A run of 5 under `STF_STUFF` is reached: five bits destuffed. The bound of 70_reset_and_hazards.md R295 holds
after the sixth, which is stuffed (log 5). -/
theorem test_mixed_directions_stay_bounded :
    let e := (destuffClasses .fresh [false, false, false, false, false]).2
    e.run0 = 5 ∧ (stfStuff e false).2 = ⟨0, 1, 0, 1, true, false⟩ := by decide
theorem witness_StuffViolationIsSticky :
    (stfDestuff (withStf ⟨5, 0, 0, 0, true, false⟩).stfu false).1 = .violation ∧
      (stfDestuff (withStf ⟨0, 5, 0, 0, true, false⟩).stfu true).1 = .violation := by decide

theorem witness_SofStage :
    State.reset.dec.stage = .sof ∧ State.reset.dec.stf = ⟨0, 0, 0, 0, true, false⟩ := by decide

/-- A decoder in a stage with five 0s behind it. -/
def afterFive (S : Stage) : State :=
  withDec { DecState.fresh with stage := S, stf := ⟨5, 0, 0, 0, true, false⟩ }

theorem witness_StuffBitIsDropped :
    ∀ S ∈ [Stage.arbitrationId, .crc, .crcDelimiter],
      Receiving (afterFive S).dec.stage ∧ (afterFive S).dec.stf.en = true ∧
        (stfDestuff (afterFive S).dec.stf true).1 = .stuff := by
  unfold Receiving; decide
theorem witness_StuffViolationEntersHardFail :
    ∀ S ∈ [Stage.arbitrationId, .crc, .crcDelimiter],
      Receiving (afterFive S).dec.stage ∧ (afterFive S).dec.stf.en = true ∧
        (stfDestuff (afterFive S).dec.stf false).1 = .violation := by
  unfold Receiving; decide
/-- Every receiving stage takes a data symbol of either value, with stuffing on and with stuffing off. -/
theorem witness_Stages :
    ∀ S ∈ [Stage.arbitrationId, .rtrOrSrr, .ide, .extendedId, .rtr, .r1, .r0, .dlc, .data, .crc,
        .crcDelimiter, .ackSlot, .ackDelimiter, .eof, .ifs],
      ∀ en v : Bool, (inStage S en).dec.stage = S ∧ IsData (inStage S en).dec v := by
  unfold IsData; decide

/-- A decoder in a stage, with these field registers, stuffing on. -/
def withFields (S : Stage) (f : FieldRegs) : State :=
  withDec { DecState.fresh with stage := S, stf := ⟨1, 0, 0, 0, true, false⟩, fields := f }

/-- The third and the fourth DLC bit. -/
theorem witness_DlcStage :
    let s := fun n => withFields .dlc { FieldRegs.zero with dlc := ⟨4, n⟩ }
    (IsData (s 2).dec true ∧ (s 2).dec.stage = .dlc ∧ (s 2).dec.fields.dlc.n + 1 ≠ 4) ∧
      (IsData (s 3).dec true ∧ (s 3).dec.stage = .dlc ∧ (s 3).dec.fields.dlc.n + 1 = 4) := by
  unfold IsData; decide
theorem witness_DataStage :
    let s := withFields .data { FieldRegs.zero with dlc := ⟨15, 4⟩, data := ⟨0, 63⟩ }
    IsData s.dec false ∧ s.dec.stage = .data := by
  unfold IsData; decide
/-- The first and the last CRC bit. -/
theorem witness_CrcStage :
    let s := fun n => withFields .crc { FieldRegs.zero with crcRx := ⟨0, n⟩ }
    (IsData (s 0).dec true ∧ (s 0).dec.stage = .crc ∧ (s 0).dec.fields.crcRx.n = 0) ∧
      (IsData (s 14).dec true ∧ (s 14).dec.stage = .crc ∧ (s 14).dec.fields.crcRx.n ≠ 0) := by
  unfold IsData; decide
theorem witness_TailStages :
    let s := fun n => withFields .ifs { FieldRegs.zero with ifsN := n }
    ((inStage .eof false).dec.stage = .eof ∧ IsData (inStage .eof false).dec true) ∧
    ((s 1).dec.stage = .ifs ∧ IsData (s 1).dec true ∧ (s 1).dec.fields.ifsN + 1 ≠ 3) ∧
    (((inStage .eof false).dec.stage = .eof ∨ (inStage .eof false).dec.stage = .ifs) ∧
      IsData (inStage .eof false).dec false) ∧
    (((s 2).dec.stage = .eof ∨ (s 2).dec.stage = .ifs) ∧ IsData (s 2).dec false) := by
  unfold IsData; decide

/-- The decoder after a text's symbols, at columns 1, 2, 3 and so on. -/
def decoded (text : String) : DecState :=
  (decBits text.toList).foldl (fun d i => match i with
    | .decBit v a l c => (decodeSymbol d v a ⟨l, c⟩ .idleSkip).dec
    | _ => d) .fresh

/-- V-ENC8 short of its last bit. -/
def beforeSuccess : State := withDec (decoded "00000y001011100000y00101001000011111x111111111111")

/-- V-DEC24, whose r0 is recessive, short of its last bit. -/
def beforeMismatch : State :=
  withDec (decoded "000100100011001000101010101001010100000y100111111111111")

/-- V-ENC8 with a dominant ACK slot, short of its last bit. -/
def beforeSoftFailure : State :=
  withDec (decoded "00000y001011100000y00101001000011111x101111111111")

/-- V-DEC9 short of its last bit, and its first scan symbols. -/
def beforeResync : State := withDec (decoded "000000111111111")
def inScan : State := withDec (decoded "0000001")
/-- V-DEC8 before its end of stream. -/
def inFrame : State := withDec (decoded "010")

/-- The received-bit counts of a stage, in decidable groups. -/
theorem counts_of {S : Stage} {f : FieldRegs}
    (h1 : filled S .arbitrationId 11 f.base.n.toNat ∧ filled S .rtrOrSrr 1 f.rtrSrr.n.toNat ∧
      filled S .ide 1 f.ide.n.toNat)
    (h2 : f.ide.isOne = true → filled S .extendedId 18 f.ext.n.toNat ∧ filled S .rtr 1 f.rtr.n.toNat ∧
      filled S .r1 1 f.r1.n.toNat)
    (h3 : f.ide.isOne = false → f.ext.n = 0 ∧ f.rtr.n = 0 ∧ f.r1.n = 0 ∧ S ≠ .extendedId ∧ S ≠ .rtr ∧
      S ≠ .r1)
    (h4 : filled S .r0 1 f.r0.n.toNat ∧ filled S .dlc 4 f.dlc.n.toNat ∧
      filled S .data (8 * dlcEff f.dlc.v) f.data.n.toNat)
    (h5 : filled S .crc 15 f.crcRx.n.toNat ∧ filled S .crcDelimiter 1 f.crcDel.n.toNat ∧
      filled S .ackSlot 1 f.ack.n.toNat)
    (h6 : filled S .ackDelimiter 1 f.ackDel.n.toNat ∧ filled S .eof 7 f.eofN.toNat ∧
      filled S .ifs 3 f.ifsN.toNat) : f.CountsAt S :=
  ⟨h1.1, h1.2.1, h1.2.2, h2, h3, h4.1, h4.2.1, h4.2.2, h5.1, h5.2.1, h5.2.2, h6.1, h6.2.1, h6.2.2⟩

/-- The parts of the decoder's invariant that do not depend on `HARD_FAIL`. -/
abbrev commonBody (d : DecState) : Prop :=
  d.stage ≠ .ended ∧ (d.crc.Inv ∧ d.crc.poly = Config.canCrcPoly) ∧ d.stf.Bounded ∧
  (d.stage = .sof → d = frameInit d) ∧
  (d.stage ≠ .sof → d.start = d.raw.head?.map RawSymbol.pos ∧
    d.last = d.raw.getLast?.map RawSymbol.pos ∧ d.raw ≠ []) ∧
  d.resync = .none ∧ d.crcCalcValid = decide (d.fields.crcRx.n ≠ 0) ∧
  (d.stage ≠ .sof → d.stage ≠ .hardFail → d.dst = dominant :: d.fields.receivedBits) ∧
  d.dst.length ≤ d.raw.length

theorem running_inv {d : DecState} (h : commonBody d) (hs : d.stage ≠ .hardFail)
    (hc : d.fields.CountsAt d.stage)
    (hr : d.recRun = 0 ∧ d.stf.viol = false ∧
      d.stf.en = decide (d.stage.code.toNat ≤ Stage.crcDelimiter.code.toNat) ∧
      d.viol.map (fun e => (e.code, e.stage)) = d.softEntries d.stage) : d.Inv := by
  obtain ⟨h1, h2, h3, h4, h5, h6, h7, h8, h9⟩ := h
  exact ⟨h1, h2, h3, h4, h5, fun _ => ⟨hc, hr⟩, fun e => absurd e hs, h6, h7, h8, h9⟩

theorem failed_inv {d : DecState} (h : commonBody d) (hs : d.stage = .hardFail) (e : Entry)
    (hr : d.stf.en = false ∧ d.recRun.toNat < Config.resyncRun)
    (hv : d.viol = [e] ∧ e.code.cls = .fatal ∧ [] = d.softEntries e.stage)
    (hc : d.fields.CountsAt e.stage) : d.Inv := by
  obtain ⟨h1, h2, h3, h4, h5, h6, h7, h8, h9⟩ := h
  obtain ⟨v1, v2, v3⟩ := hv
  exact ⟨h1, h2, h3, h4, h5, fun e => absurd hs e,
    fun _ => ⟨hr.1, hr.2, [], e, v1, v2, hc, v3⟩, h6, h7, h8, h9⟩

set_option maxRecDepth 100000 in
theorem beforeSuccess_inv : beforeSuccess.dec.Inv :=
  running_inv (by decide) (by decide)
    (counts_of (by decide) (by decide) (by decide) (by decide) (by decide) (by decide)) (by decide)
set_option maxRecDepth 100000 in
theorem beforeMismatch_inv : beforeMismatch.dec.Inv :=
  running_inv (by decide) (by decide)
    (counts_of (by decide) (by decide) (by decide) (by decide) (by decide) (by decide)) (by decide)
set_option maxRecDepth 100000 in
theorem beforeSoftFailure_inv : beforeSoftFailure.dec.Inv :=
  running_inv (by decide) (by decide)
    (counts_of (by decide) (by decide) (by decide) (by decide) (by decide) (by decide)) (by decide)
set_option maxRecDepth 100000 in
theorem beforeResync_inv : beforeResync.dec.Inv :=
  failed_inv (by decide) (by decide) ⟨.stuffRun0, .arbitrationId, some ⟨1, 6⟩⟩ (by decide) (by decide)
    (counts_of (by decide) (by decide) (by decide) (by decide) (by decide) (by decide))
set_option maxRecDepth 100000 in
theorem inScan_inv : inScan.dec.Inv :=
  failed_inv (by decide) (by decide) ⟨.stuffRun0, .arbitrationId, some ⟨1, 6⟩⟩ (by decide) (by decide)
    (counts_of (by decide) (by decide) (by decide) (by decide) (by decide) (by decide))
set_option maxRecDepth 100000 in
theorem inFrame_inv : inFrame.dec.Inv :=
  running_inv (by decide) (by decide)
    (counts_of (by decide) (by decide) (by decide) (by decide) (by decide) (by decide)) (by decide)
theorem reset_dec_inv : State.reset.dec.Inv :=
  running_inv (by decide) (by decide)
    (counts_of (by decide) (by decide) (by decide) (by decide) (by decide) (by decide)) (by decide)

set_option maxRecDepth 100000 in
/-- V-ENC8 and V-DEC24: the re-encoding agrees with the one and not with the other. -/
theorem witness_ThirdIfs_success :
    beforeSuccess.dec.stage = .ifs ∧ beforeSuccess.dec.fields.ifsN = 2 ∧ beforeSuccess.dec.viol = [] ∧
      Reencodes (received beforeSuccess.dec true false ⟨1, 50⟩) := by
  unfold Reencodes; decide
set_option maxRecDepth 100000 in
theorem witness_ThirdIfs_mismatch :
    beforeMismatch.dec.stage = .ifs ∧ beforeMismatch.dec.fields.ifsN = 2 ∧
      beforeMismatch.dec.viol = [] ∧
      ¬ Reencodes (received beforeMismatch.dec true false ⟨1, 56⟩) := by
  unfold Reencodes; decide
set_option maxRecDepth 100000 in
theorem witness_ThirdIfs_soft :
    beforeSoftFailure.dec.stage = .ifs ∧ beforeSoftFailure.dec.fields.ifsN = 2 ∧
      beforeSoftFailure.dec.viol ≠ [] := by decide
theorem witness_HardFailScans :
    (inScan.dec.stage = .hardFail ∧ inScan.dec.recRun ≠ 9) ∧
      (beforeResync.dec.stage = .hardFail ∧ beforeResync.dec.recRun = 9) := by decide
theorem witness_EndOfStream :
    State.reset.dec.stage = .sof ∧ Receiving inFrame.dec.stage ∧ inScan.dec.stage = .hardFail := by
  unfold Receiving; decide
theorem witness_EndedStage :
    (inStage .ended true).dec.stage = .ended ∧
      ∀ e ∈ (inStage .ended true).dec.viol, e.code.cls ≠ .internal := by decide
/-- Entries at the ends of the code ranges of 60_exceptions.md R275. -/
theorem witness_OutcomeFollowsTheWorstEntry :
    let internal : Entry := ⟨.roundtripMismatch, .ended, none⟩
    let fatal : Entry := ⟨.stuffRun0, .crc, none⟩
    let soft : Entry := ⟨.rtrWithNonzeroDlc, .dlc, none⟩
    (0x20 ≤ internal.code.code.toNat ∧ internal.code.code.toNat ≤ 0x2F) ∧
    (0x01 ≤ fatal.code.code.toNat ∧ fatal.code.code.toNat ≤ 0x0F) ∧
    (¬ 0x20 ≤ soft.code.code.toNat ∧ ¬ soft.code.code.toNat ≤ 0x0F ∧ [soft] ≠ []) ∧
    (∀ e' ∈ [soft], 0x0F < e'.code.code.toNat) ∧
    (∀ e' ∈ [soft, fatal], e'.code.code.toNat < 0x20 ∨ 0x2F < e'.code.code.toNat) := by decide
theorem witness_CompleteDataBytes :
    (List.replicate 7 true).length < 8 ∧
      8 * (List.replicate 7 (0xA5 : Byte)).length + (List.replicate 7 true).length ≤ 64 ∧
      8 * (List.replicate 8 (0xA5 : Byte)).length + ([] : List Bit).length ≤ 64 := by decide
set_option maxRecDepth 100000 in
theorem witness_AnnotationsAndPositions :
    SameParse (decoded "010") (decoded " x1 0") := by
  constructor <;> decide
theorem witness_StagingCommands :
    (8 : BitVec 4).toNat ≤ 8 ∧ (0 : BitVec 4).toNat ≤ 8 ∧ 8 < (9 : BitVec 4).toNat := by decide
theorem witness_EncRun :
    let s := fun n : BitVec 4 => ({ State.reset with enc := { EncState.fresh with len := n } } : State)
    (s 0).enc.len.toNat ≤ 8 ∧ (s 8).enc.len.toNat ≤ 8 := by decide
theorem witness_EncoderWrites :
    (0x7FF : BitVec 29).toNat ≤ 0x7FF ∧ 0x7FF < (0x800 : BitVec 29).toNat := by decide
theorem witness_EncodedLength : (List.replicate 8 (0xFF : Byte)).length ≤ 8 := by decide
theorem witness_DecodingAnEncodedFrame :
    let bits := (encodeFrame 0x17 false []).bits
    ([] : List Byte).length ≤ 8 ∧ State.reset.dec = nextFrame State.reset.dec.seq ∧
      (bits.map fun b => RawSymbol.mk b.bit b.isStuff ⟨1, 1⟩).map RawSymbol.value =
        bits.map StuffBit.bit ∧
      (bits.map fun b => RawSymbol.mk b.bit b.isStuff ⟨1, 1⟩).map RawSymbol.annot =
        bits.map StuffBit.isStuff :=
  ⟨by decide, by decide, by simp, by simp⟩

set_option maxRecDepth 100000 in
theorem beforeSuccess_crcCovers : beforeSuccess.dec.CrcCovers :=
  ⟨fun h => absurd h (by decide), fun h => absurd h (by decide), fun _ =>
    ⟨beforeSuccess.dec.dst.take 19, beforeSuccess.dec.dst.drop 19, by decide, by decide, by decide⟩⟩
set_option maxRecDepth 100000 in
/-- V-ENC8 up to its last DLC bit: the CRC is complete and not yet cached. -/
theorem witness_CrcCoverage_beforeFirstCrcBit :
    let d := decoded "00000y001011100000y00"
    d.stage = .crc ∧ d.fields.crcRx.n = 0 ∧ d.crc = crcFeed .fresh d.dst := by decide

set_option maxRecDepth 100000 in
theorem beforeSuccess_rawDestuffs : beforeSuccess.dec.RawDestuffs := fun _ =>
  ⟨(beforeSuccess.dec.raw.map RawSymbol.value).take 38, beforeSuccess.dec.dst.take 35,
    (beforeSuccess.dec.raw.map RawSymbol.value).drop 38, by decide, by decide, by decide, by decide,
    by decide, by decide⟩
/-- With `beforeSuccess_inv`, `beforeSuccess_crcCovers`, `beforeSuccess_rawDestuffs` and
`witness_ThirdIfs_success`, every premise of the verifier's statement holds of `beforeSuccess`. -/
theorem witness_VerifierPasses :
    beforeSuccess.dec.Inv ∧ beforeSuccess.dec.CrcCovers ∧ beforeSuccess.dec.RawDestuffs ∧
      beforeSuccess.dec.stage = .ifs ∧ beforeSuccess.dec.fields.ifsN = 2 ∧
      beforeSuccess.dec.viol = [] :=
  ⟨beforeSuccess_inv, beforeSuccess_crcCovers, beforeSuccess_rawDestuffs, witness_ThirdIfs_success.1,
    witness_ThirdIfs_success.2.1, witness_ThirdIfs_success.2.2.1⟩

/-- Reset with a decoder and one pending word, the last bit of V-ENC8. -/
def lastBitPending (d : DecState) : State :=
  { State.reset with dec := d, cmds := [0x2000000100003201] }

theorem lastBitPending_meets {d : DecState} (h1 : d.Inv) (h2 : d.CrcCovers) (h3 : d.RawDestuffs) :
    ∃ s : State, s.Inv ∧ s.dec.CrcCovers ∧ s.dec.RawDestuffs ∧ ∃ t, step s = .next t := by
  have hc : State.reset.crcu.Inv ∧ State.reset.stfu.Bounded ∧ State.reset.enc.len.toNat ≤ 8 := by decide
  obtain ⟨u, r, h, -⟩ := step_answers (lastBitPending d) 0x2000000100003201 [] rfl
  exact ⟨lastBitPending d, ⟨hc.1, hc.2.1, h1, hc.2.2⟩, h2, h3, _, h⟩

theorem witness_EveryStepKeeps :
    ∃ s : State, s.Inv ∧ s.dec.CrcCovers ∧ s.dec.RawDestuffs ∧ ∃ t, step s = .next t :=
  lastBitPending_meets beforeSuccess_inv beforeSuccess_crcCovers beforeSuccess_rawDestuffs

end Sys2Proof.Tests
end

section
/-! PROOFS. The commands as writers of units: each writes its own unit or none, and a step runs exactly the
command its word decodes to (00_scope.md R6, R7; 20_memory.md R68, R69). -/

namespace Sys2Proof.Machine

/-- The opcode group of a command: its opcode byte divided by 8. 30_encoding.md R96. -/
def opcodeGroup : Opcode → Nat
  | .nop | .reset | .status => 0
  | .crcInit | .crcBit | .crcField | .crcFinal => 2
  | .stfReset | .stfDestuff | .stfStuff | .stfEnable => 3
  | .decBit | .decEos | .decAbort => 4
  | .encHdr | .encByte | .encRun => 6

theorem code_div_eight (op : Opcode) : op.code.toNat / 8 = opcodeGroup op := by
  cases op <;> rfl

/-- The states a command of opcode group `g` may leave before it is answered: no
register is written, or only those of the group's unit; a decoder command may draw a free value. -/
inductive WritesOwnUnit (g : Nat) (s : State) : State → Prop where
  | none : WritesOwnUnit g s s
  | crcu {c : CrcState} (hg : g = 2) : WritesOwnUnit g s { s with crcu := c }
  | stfu {f : StuffState} (hg : g = 3) : WritesOwnUnit g s { s with stfu := f }
  | dec {d : DecState} {n : Nat} (hg : g = 4) : WritesOwnUnit g s { s with dec := d, free := n }
  | enc {e : EncState} (hg : g = 6) : WritesOwnUnit g s { s with enc := e }

/-- Every command but `RESET` writes its own unit or none, and is then answered; a bad operand writes none. -/
theorem exec_writesOwnUnit (i : Instr) (s : State) (hi : i ≠ .reset) :
    ∃ (u : State) (r : Response),
      exec i s = .next (u.answer r) ∧ WritesOwnUnit (opcodeGroup i.opcode) s u := by
  cases i with
  | reset => exact absurd rfl hi
  | nop | status | encRun => exact ⟨_, _, rfl, .none⟩
  | crcInit poly =>
    by_cases h : badPoly poly
    · exact ⟨_, _, if_pos h, .none⟩
    · exact ⟨_, _, if_neg h, .crcu rfl⟩
  | crcField width value =>
    by_cases h : badWidth width
    · exact ⟨_, _, if_pos h, .none⟩
    · exact ⟨_, _, if_neg h, .crcu rfl⟩
  | crcBit | crcFinal => exact ⟨_, _, rfl, .crcu rfl⟩
  | stfReset | stfDestuff | stfStuff | stfEnable => exact ⟨_, _, rfl, .stfu rfl⟩
  | decBit | decEos | decAbort => exact ⟨_, _, rfl, .dec rfl⟩
  | encHdr id rtr len =>
    by_cases h : badLen len
    · exact ⟨_, _, if_pos h, .none⟩
    · exact ⟨_, _, if_neg h, .enc rfl⟩
  | encByte => exact ⟨_, _, rfl, .enc rfl⟩

/-- A unit that a write of group `g` changed is the unit of group `g`. -/
theorem WritesOwnUnit.group_of_changed {g : Nat} {s u : State} (h : WritesOwnUnit g s u) :
    (u.crcu ≠ s.crcu → g = 2) ∧ (u.stfu ≠ s.stfu → g = 3) ∧ (u.dec ≠ s.dec → g = 4) ∧
      (u.enc ≠ s.enc → g = 6) := by
  cases h with
  | none => simp
  | crcu hg | stfu hg | dec hg | enc hg => simp [hg]

/-- A state with a word pending is the state without it, with the word placed first. -/
theorem placeFirst_of_cmds {s : State} {w : Command} {rest : List Command} (h : s.cmds = w :: rest) :
    placeFirst { s with cmds := rest } w = s := by
  simp only [placeFirst, ← h]

end Sys2Proof.Machine

namespace Sys2Proof.Proofs

open Sys2Proof.Machine

/-- Settles O11: a command other than `RESET` writes its own unit or none. -/
theorem commandsStayInTheirUnit : Obligations.CommandsStayInTheirUnit := by
  intro i s t ht hi
  obtain ⟨u, r, hu, hw⟩ := exec_writesOwnUnit i s hi
  obtain rfl : t = u.answer r := Host.Outcome.next.inj (ht.symm.trans hu)
  rw [code_div_eight]
  exact hw.group_of_changed

/-- Settles O5: the state is the one with its oldest word placed first, and stepping that runs the word. -/
theorem stepRunsTheDecodedCommand : Obligations.StepRunsTheDecodedCommand := by
  intro s w rest i hs hw
  calc step s = step (placeFirst { s with cmds := rest } w) := by rw [placeFirst_of_cmds hs]
    _ = exec i { s with cmds := rest } := step_placeFirst _ w i hw

end Sys2Proof.Proofs
end

section
/-! PROOFS. The field registers in wire order: the bits each stage's field holds, how many it takes, and what
one received bit does to them (10_state.md R35; 42_decoder.md R176 to R188, R193). -/

namespace Sys2Proof.Machine

/-- The stages that fill a field register, in wire order. 30_encoding.md R78, R79. -/
def fieldStages : List Stage :=
  [.arbitrationId, .rtrOrSrr, .ide, .extendedId, .rtr, .r1, .r0, .dlc, .data, .crc, .crcDelimiter,
    .ackSlot, .ackDelimiter, .eof, .ifs]

/-- The bits that the field of a stage holds, first received first. -/
def FieldRegs.bitsOf (f : FieldRegs) : Stage → List Bit
  | .arbitrationId => bitsMsb f.base.v f.base.n.toNat
  | .rtrOrSrr => bitsMsb f.rtrSrr.v f.rtrSrr.n.toNat
  | .ide => bitsMsb f.ide.v f.ide.n.toNat
  | .extendedId => bitsMsb f.ext.v f.ext.n.toNat
  | .rtr => bitsMsb f.rtr.v f.rtr.n.toNat
  | .r1 => bitsMsb f.r1.v f.r1.n.toNat
  | .r0 => bitsMsb f.r0.v f.r0.n.toNat
  | .dlc => bitsMsb f.dlc.v f.dlc.n.toNat
  | .data => bitsMsb f.data.v f.data.n.toNat
  | .crc => bitsMsb f.crcRx.v f.crcRx.n.toNat
  | .crcDelimiter => bitsMsb f.crcDel.v f.crcDel.n.toNat
  | .ackSlot => bitsMsb f.ack.v f.ack.n.toNat
  | .ackDelimiter => bitsMsb f.ackDel.v f.ackDel.n.toNat
  | .eof => List.replicate f.eofN.toNat recessive
  | .ifs => List.replicate f.ifsN.toNat recessive
  | .sof | .ended | .hardFail => []

/-- How many bits the field of a stage takes; 0 for a field that the frame does not have. -/
def FieldRegs.full (f : FieldRegs) : Stage → Nat
  | .arbitrationId => 11
  | .extendedId => if f.ide.isOne then 18 else 0
  | .rtr | .r1 => if f.ide.isOne then 1 else 0
  | .rtrOrSrr | .ide | .r0 | .crcDelimiter | .ackSlot | .ackDelimiter => 1
  | .dlc => 4
  | .data => 8 * dlcEff f.dlc.v
  | .crc => 15
  | .eof => 7
  | .ifs => 3
  | .sof | .ended | .hardFail => 0

/-- One bit received in a stage. 42_decoder.md R177 to R188. -/
def FieldRegs.receive (f : FieldRegs) (S : Stage) (v : Bit) : FieldRegs :=
  match S with
  | .arbitrationId => { f with base := f.base.shift v }
  | .rtrOrSrr => { f with rtrSrr := f.rtrSrr.shift v }
  | .ide => { f with ide := f.ide.shift v }
  | .extendedId => { f with ext := f.ext.shift v }
  | .rtr => { f with rtr := f.rtr.shift v }
  | .r1 => { f with r1 := f.r1.shift v }
  | .r0 => { f with r0 := f.r0.shift v }
  | .dlc => { f with dlc := f.dlc.shift v }
  | .data => { f with data := f.data.shift v }
  | .crc => { f with crcRx := f.crcRx.shift v }
  | .crcDelimiter => { f with crcDel := f.crcDel.shift v }
  | .ackSlot => { f with ack := f.ack.shift v }
  | .ackDelimiter => { f with ackDel := f.ackDel.shift v }
  | .eof => { f with eofN := f.eofN + 1 }
  | .ifs => { f with ifsN := f.ifsN + 1 }
  | .sof | .ended | .hardFail => f

/-- A bit that the field of a stage takes: EOF and IFS count recessive bits only. 42_decoder.md R187, R188. -/
abbrev Receivable (S : Stage) (v : Bit) : Prop := S = .eof ∨ S = .ifs → v = recessive

/-- The stage after the one whose field is full: IDE selects the format, DLC whether there is data.
42_decoder.md R177 to R188. -/
def FieldRegs.successor (f : FieldRegs) : Stage → Stage
  | .sof => .arbitrationId
  | .arbitrationId => .rtrOrSrr
  | .rtrOrSrr => .ide
  | .ide => if f.ide.isOne then .extendedId else .r0
  | .extendedId => .rtr
  | .rtr => .r1
  | .r1 => .r0
  | .r0 => .dlc
  | .dlc => if 0 < dlcEff f.dlc.v then .data else .crc
  | .data => .crc
  | .crc => .crcDelimiter
  | .crcDelimiter => .ackSlot
  | .ackSlot => .ackDelimiter
  | .ackDelimiter => .eof
  | .eof => .ifs
  | .ifs | .ended => .ended
  | .hardFail => .hardFail

/-- The stage after a bit received in stage `S`: its field goes on until it is full. -/
def FieldRegs.stageAfter (f : FieldRegs) (S : Stage) : Stage :=
  if (f.bitsOf S).length = f.full S then f.successor S else S

/-! ### Stage order -/

theorem Stage.code_injective {S T : Stage} (h : S.code.toNat = T.code.toNat) : S = T := by
  revert h; cases S <;> cases T <;> decide

theorem fieldStages_sorted : fieldStages.Pairwise fun S T => S.code.toNat < T.code.toNat := by decide

/-- Stages around a field stage: the field stages before it and those after it. -/
theorem fieldStages_split {S : Stage} (hS : S ∈ fieldStages) :
    ∃ before after, fieldStages = before ++ S :: after ∧
      (∀ T ∈ before, T.code.toNat < S.code.toNat) ∧ ∀ T ∈ after, S.code.toNat < T.code.toNat := by
  obtain ⟨before, after, h⟩ := List.append_of_mem hS
  have hp := fieldStages_sorted
  rw [h, List.pairwise_append, List.pairwise_cons] at hp
  obtain ⟨-, ⟨hafter, -⟩, hbefore⟩ := hp
  exact ⟨before, after, h, fun T hT => hbefore T hT S List.mem_cons_self, hafter⟩

/-- The field stages are those in which a symbol is received, and no others. -/
theorem mem_fieldStages {S : Stage} :
    S ∈ fieldStages ↔ S ≠ .sof ∧ S ≠ .ended ∧ S ≠ .hardFail := by cases S <;> decide

/-- The successor of a field stage is the next field stage whose field the frame has. -/
theorem successor_spec {f : FieldRegs} {S : Stage} (hS : S ∈ fieldStages) (hifs : S ≠ .ifs)
    (hpos : 0 < f.full S) :
    f.successor S ∈ fieldStages ∧ S.code.toNat < (f.successor S).code.toNat ∧
      0 < f.full (f.successor S) ∧
      ∀ T : Stage, S.code.toNat < T.code.toNat → T.code.toNat < (f.successor S).code.toNat →
        f.full T = 0 := by
  cases S with
  | sof | ended | hardFail => simp [fieldStages] at hS
  | ifs => exact absurd rfl hifs
  | ide =>
    cases hi : f.ide.isOne with
    | true => simp [FieldRegs.successor, hi, fieldStages, FieldRegs.full, Stage.code]; omega
    | false =>
      simp only [FieldRegs.successor, hi, FieldRegs.full, Bool.false_eq_true, if_false]
      refine ⟨by decide, by decide, by decide, fun T => ?_⟩
      cases T <;> simp [Stage.code]
  | dlc =>
    by_cases hd : 0 < dlcEff f.dlc.v
    · simp only [FieldRegs.successor, hd, if_true]
      refine ⟨by decide, by decide, by simpa [FieldRegs.full] using hd, fun T => ?_⟩
      cases T <;> simp [Stage.code]
    · simp only [FieldRegs.successor, hd, if_false]
      refine ⟨by decide, by decide, by simp [FieldRegs.full], fun T => ?_⟩
      cases T <;> simp [Stage.code, FieldRegs.full]; omega
  | extendedId | rtr =>
    have hi : f.ide.isOne = true := by simpa [FieldRegs.full, Nat.pos_iff_ne_zero] using hpos
    simp [FieldRegs.successor, hi, fieldStages, FieldRegs.full, Stage.code]; omega
  | arbitrationId | rtrOrSrr | r1 | r0 | data | crc | crcDelimiter | ackSlot | ackDelimiter | eof =>
    simp [FieldRegs.successor, fieldStages, FieldRegs.full, Stage.code]; omega

/-! ### Counts -/

theorem filled_of_before {S home : Stage} {full n : Nat} (h : S.code.toNat < home.code.toNat) :
    filled S home full n ↔ n = 0 := by simp [filled, h]

@[simp] theorem filled_self {S : Stage} {full n : Nat} : filled S S full n ↔ n < full := by simp [filled]

theorem filled_of_after {S home : Stage} {full n : Nat} (h : home.code.toNat < S.code.toNat) :
    filled S home full n ↔ n = full := by
  have hne : S ≠ home := by rintro rfl; omega
  simp [filled, hne, Nat.lt_asymm h]

/-- A field that the frame does not have is empty, and its stage is not entered. -/
theorem filled_absent {S home : Stage} {n : Nat} : filled S home 0 n ↔ n = 0 ∧ S ≠ home := by
  rcases Nat.lt_trichotomy S.code.toNat home.code.toNat with h | h | h
  · rw [filled_of_before h]
    exact ⟨fun e => ⟨e, by rintro rfl; omega⟩, And.left⟩
  · obtain rfl := Stage.code_injective h
    simp
  · rw [filled_of_after h]
    exact ⟨fun e => ⟨e, by rintro rfl; omega⟩, And.left⟩

/-- The counts of a stage, field by field: an absent field counts as one of no bits. 42_decoder.md R193. -/
theorem countsAt_iff {S : Stage} {f : FieldRegs} :
    f.CountsAt S ↔ ∀ home ∈ fieldStages, filled S home (f.full home) (f.bitsOf home).length := by
  simp only [fieldStages, List.forall_mem_cons, FieldRegs.full, FieldRegs.bitsOf, length_bitsMsb,
    List.length_replicate]
  cases hi : f.ide.isOne with
  | true =>
    constructor
    · intro h
      obtain ⟨he, hr, h1⟩ := h.extended hi
      exact ⟨h.base, h.rtrSrr, h.ide, he, hr, h1, h.r0, h.dlc, h.data, h.crcRx, h.crcDel, h.ack,
        h.ackDel, h.eof, h.ifs, by simp⟩
    · rintro ⟨base, rtrSrr, ide, he, hr, h1, r0, dlc, data, crcRx, crcDel, ack, ackDel, eof, ifs, -⟩
      exact ⟨base, rtrSrr, ide, fun _ => ⟨he, hr, h1⟩, fun e => absurd e (by simp [hi]), r0, dlc, data,
        crcRx, crcDel, ack, ackDel, eof, ifs⟩
  | false =>
    have zero {w c : Nat} (r : FieldReg w c) : r.n.toNat = 0 ↔ r.n = 0 := by simp [BitVec.toNat_eq]
    simp only [Bool.false_eq_true, if_false, filled_absent, zero]
    constructor
    · intro h
      obtain ⟨he, hr, h1, hse, hsr, hs1⟩ := h.standard hi
      exact ⟨h.base, h.rtrSrr, h.ide, ⟨he, hse⟩, ⟨hr, hsr⟩, ⟨h1, hs1⟩, h.r0, h.dlc, h.data, h.crcRx,
        h.crcDel, h.ack, h.ackDel, h.eof, h.ifs, by simp⟩
    · rintro ⟨base, rtrSrr, ide, ⟨he, hse⟩, ⟨hr, hsr⟩, ⟨h1, hs1⟩, r0, dlc, data, crcRx, crcDel, ack,
        ackDel, eof, ifs, -⟩
      exact ⟨base, rtrSrr, ide, fun e => absurd e (by simp [hi]), fun _ => ⟨he, hr, h1, hse, hsr, hs1⟩,
        r0, dlc, data, crcRx, crcDel, ack, ackDel, eof, ifs⟩

/-- In a stage the field it fills is short of its length. -/
theorem FieldRegs.CountsAt.short {S : Stage} {f : FieldRegs} (h : f.CountsAt S) (hS : S ∈ fieldStages) :
    (f.bitsOf S).length < f.full S := filled_self.mp (countsAt_iff.mp h S hS)

/-- The fields after the stage are empty. -/
theorem FieldRegs.CountsAt.bitsOf_after {S T : Stage} {f : FieldRegs} (h : f.CountsAt S)
    (hT : T ∈ fieldStages) (hlt : S.code.toNat < T.code.toNat) : f.bitsOf T = [] :=
  List.eq_nil_of_length_eq_zero ((filled_of_before hlt).mp (countsAt_iff.mp h T hT))

/-! ### One bit received -/

theorem dlcEff_le (d : BitVec 4) : dlcEff d ≤ 8 := Nat.min_le_right _ _

/-- A count that does not wrap. -/
theorem toNat_count_succ {c : Nat} {n : BitVec c} (h : n.toNat + 1 < 2 ^ c) :
    (n + 1).toNat = n.toNat + 1 := by
  have h1 : (1 : BitVec c).toNat = 1 % 2 ^ c := BitVec.toNat_ofNat ..
  rw [BitVec.toNat_add, h1, Nat.mod_eq_of_lt (a := 1) (by omega), Nat.mod_eq_of_lt h]

/-- Shifting a bit into a register that is not full appends it to the register's bits. -/
theorem bitsMsb_shift {w c : Nat} (r : FieldReg w c) (v : Bit) (hw : r.n.toNat < w) (hc : w < 2 ^ c) :
    bitsMsb (r.shift v).v (r.shift v).n.toNat = bitsMsb r.v r.n.toNat ++ [v] := by
  rw [shift_v, shift_n, toNat_count_succ (by omega), bitsMsb_shiftIn _ _ _ hw]

/-- Counting a recessive bit appends it. -/
theorem replicate_succ_count {c : Nat} (n : BitVec c) (h : n.toNat + 1 < 2 ^ c) :
    List.replicate (n + 1).toNat recessive = List.replicate n.toNat recessive ++ [recessive] := by
  rw [toNat_count_succ h, List.replicate_succ']

theorem bitsOf_receive_of_ne (f : FieldRegs) (v : Bit) {S T : Stage} (h : T ≠ S) :
    (f.receive S v).bitsOf T = f.bitsOf T := by
  revert h; cases S <;> cases T <;> simp [FieldRegs.receive, FieldRegs.bitsOf]

/-- A received bit is appended to the bits of its stage. -/
theorem bitsOf_receive_self {f : FieldRegs} {S : Stage} {v : Bit} (hS : S ∈ fieldStages)
    (h : (f.bitsOf S).length < f.full S) (hv : Receivable S v) :
    (f.receive S v).bitsOf S = f.bitsOf S ++ [v] := by
  cases S with
  | sof | ended | hardFail => simp [fieldStages] at hS
  | eof =>
    obtain rfl := hv (.inl rfl)
    simp only [FieldRegs.bitsOf, FieldRegs.full, List.length_replicate] at h
    exact replicate_succ_count _ (by omega)
  | ifs =>
    obtain rfl := hv (.inr rfl)
    simp only [FieldRegs.bitsOf, FieldRegs.full, List.length_replicate] at h
    exact replicate_succ_count _ (by omega)
  | data =>
    have := dlcEff_le f.dlc.v
    simp only [FieldRegs.bitsOf, FieldRegs.full, length_bitsMsb] at h
    exact bitsMsb_shift _ _ (by omega) (by decide)
  | extendedId | rtr | r1 =>
    simp only [FieldRegs.bitsOf, FieldRegs.full, length_bitsMsb] at h
    exact bitsMsb_shift _ _ (by split at h <;> omega) (by decide)
  | arbitrationId | rtrOrSrr | ide | r0 | dlc | crc | crcDelimiter | ackSlot | ackDelimiter =>
    simp only [FieldRegs.bitsOf, FieldRegs.full, length_bitsMsb] at h
    exact bitsMsb_shift _ _ h (by decide)

section
variable (f : FieldRegs) (v : Bit) {S : Stage}

theorem ide_receive (h : S ≠ .ide) : (f.receive S v).ide = f.ide := by
  revert h; cases S <;> simp [FieldRegs.receive]

theorem dlc_receive (h : S ≠ .dlc) : (f.receive S v).dlc = f.dlc := by
  revert h; cases S <;> simp [FieldRegs.receive]

theorem rtrSrr_receive (h : S ≠ .rtrOrSrr) : (f.receive S v).rtrSrr = f.rtrSrr := by
  revert h; cases S <;> simp [FieldRegs.receive]

theorem rtr_receive (h : S ≠ .rtr) : (f.receive S v).rtr = f.rtr := by
  revert h; cases S <;> simp [FieldRegs.receive]

theorem crcRx_receive (h : S ≠ .crc) : (f.receive S v).crcRx = f.crcRx := by
  revert h; cases S <;> simp [FieldRegs.receive]

theorem crcDel_receive (h : S ≠ .crcDelimiter) : (f.receive S v).crcDel = f.crcDel := by
  revert h; cases S <;> simp [FieldRegs.receive]

theorem ack_receive (h : S ≠ .ackSlot) : (f.receive S v).ack = f.ack := by
  revert h; cases S <;> simp [FieldRegs.receive]

theorem ackDel_receive (h : S ≠ .ackDelimiter) : (f.receive S v).ackDel = f.ackDel := by
  revert h; cases S <;> simp [FieldRegs.receive]

end

/-- A received bit leaves the lengths of its own and the earlier fields alone: IDE and DLC decide
later ones. -/
theorem full_receive (f : FieldRegs) (v : Bit) {S T : Stage} (h : T.code.toNat ≤ S.code.toNat) :
    (f.receive S v).full T = f.full T := by
  cases T with
  | extendedId | rtr | r1 =>
    have hS : S ≠ .ide := by rintro rfl; exact absurd h (by decide)
    simp only [FieldRegs.full, ide_receive f v hS]
  | data =>
    have hS : S ≠ .dlc := by rintro rfl; exact absurd h (by decide)
    simp only [FieldRegs.full, dlc_receive f v hS]
  | _ => rfl

theorem receivedBits_eq (f : FieldRegs) : f.receivedBits = fieldStages.flatMap f.bitsOf := by
  simp [FieldRegs.receivedBits, fieldStages, FieldRegs.bitsOf]

section
variable {f : FieldRegs} {S : Stage} {v : Bit} (hS : S ∈ fieldStages) (h : f.CountsAt S)
  (hv : Receivable S v)
include hS h hv

/-- A bit received in a stage is the last of the bits the registers hold. -/
theorem receivedBits_receive : (f.receive S v).receivedBits = f.receivedBits ++ [v] := by
  obtain ⟨before, after, hsplit, hbefore, hafter⟩ := fieldStages_split hS
  have hb : before.flatMap (f.receive S v).bitsOf = before.flatMap f.bitsOf :=
    List.flatMap_congr fun T hT => bitsOf_receive_of_ne f v fun e => Nat.ne_of_lt (hbefore T hT) (by rw [e])
  have ha : after.flatMap (f.receive S v).bitsOf = after.flatMap f.bitsOf :=
    List.flatMap_congr fun T hT => bitsOf_receive_of_ne f v fun e => Nat.ne_of_gt (hafter T hT) (by rw [e])
  have hnil : after.flatMap f.bitsOf = [] :=
    List.flatMap_eq_nil_iff.mpr fun T hT => h.bitsOf_after (hsplit ▸ by simp [hT]) (hafter T hT)
  simp only [receivedBits_eq, hsplit, List.flatMap_append, List.flatMap_cons, hb, ha, hnil,
    bitsOf_receive_self hS (h.short hS) hv, List.append_assoc, List.append_nil]

omit hS hv in
/-- The counts after a received bit, once the counts of the new stage `T` are known from its own stage on:
the earlier fields stay full. -/
theorem countsAt_receive {T : Stage} (hT : S.code.toNat ≤ T.code.toNat)
    (hself : filled T S ((f.receive S v).full S) ((f.receive S v).bitsOf S).length)
    (hlater : ∀ U ∈ fieldStages, S.code.toNat < U.code.toNat → filled T U ((f.receive S v).full U) 0) :
    (f.receive S v).CountsAt T := by
  rw [countsAt_iff]
  intro U hU
  rcases Nat.lt_trichotomy S.code.toNat U.code.toNat with hlt | heq | hgt
  · have hne : U ≠ S := by rintro rfl; omega
    rw [bitsOf_receive_of_ne f v hne, h.bitsOf_after hU hlt]
    exact hlater U hU hlt
  · obtain rfl := Stage.code_injective heq
    exact hself
  · have hne : U ≠ S := by rintro rfl; omega
    rw [bitsOf_receive_of_ne f v hne, full_receive f v (by omega), filled_of_after (by omega)]
    exact (filled_of_after hgt).mp (countsAt_iff.mp h U hU)

/-- While its field is not full a stage goes on. -/
theorem countsAt_receive_stay (hn : ((f.receive S v).bitsOf S).length ≠ (f.receive S v).full S) :
    (f.receive S v).CountsAt S := by
  refine countsAt_receive h (Nat.le_refl _) (filled_self.mpr ?_)
    fun U _ hU => (filled_of_before hU).mpr rfl
  have hlt := h.short hS
  rw [bitsOf_receive_self hS hlt hv, full_receive f v (Nat.le_refl _)] at hn ⊢
  rw [List.length_append] at hn ⊢
  exact Nat.lt_of_le_of_ne hlt hn

omit hv in
/-- A full field hands over to the next stage whose field the frame has. -/
theorem countsAt_receive_next (hn : ((f.receive S v).bitsOf S).length = (f.receive S v).full S)
    (hS' : S ≠ .ifs) : (f.receive S v).CountsAt ((f.receive S v).successor S) := by
  have hpos : 0 < (f.receive S v).full S := by
    rw [full_receive f v (Nat.le_refl _)]
    exact Nat.zero_lt_of_lt (h.short hS)
  obtain ⟨-, hlt, hfull, hskip⟩ := successor_spec hS hS' hpos
  refine countsAt_receive h (Nat.le_of_lt hlt) ((filled_of_after hlt).mpr hn) fun U hU hSU => ?_
  rcases Nat.lt_trichotomy ((f.receive S v).successor S).code.toNat U.code.toNat with hb | he | ha
  · exact (filled_of_before hb).mpr rfl
  · obtain rfl := Stage.code_injective he
    exact filled_self.mpr hfull
  · exact (filled_of_after ha).mpr (hskip U hSU ha).symm

end

end Sys2Proof.Machine
end

section
/-! PROOFS. What a stage action does: it fails the frame, ends it, or advances it by one bit of the stage's
field, with the soft violations of the field that this completes (42_decoder.md R177 to R188). -/

namespace Sys2Proof.Machine

open Sys2Proof.Claims (entryShape)

/-! ### Soft violations -/

/-- The soft violations found as the field of a stage is complete. 42_decoder.md R180, R183, R184, R186. -/
def DecState.softOf (d : DecState) : Stage → List (EntryCode × Stage)
  | .dlc =>
    if d.fields.remote = true ∧ 0 < d.fields.dlc.v.toNat then [(.rtrWithNonzeroDlc, .dlc)] else []
  | .crcDelimiter =>
    (if d.fields.crcDel.isOne = false then [(.crcDelimDominant, .crcDelimiter)] else []) ++
    (if d.crcCalc ≠ d.fields.crcRx.v then [(.crcMismatch, .crcDelimiter)] else [])
  | .ackSlot => if d.fields.ack.isOne = false then [(.ackSlotDominant, .ackSlot)] else []
  | .ackDelimiter => if d.fields.ackDel.isOne = false then [(.ackDelimDominant, .ackDelimiter)] else []
  | _ => []

theorem softEntries_eq (d : DecState) (S : Stage) :
    d.softEntries S =
      fieldStages.flatMap fun T => if T.code.toNat < S.code.toNat then d.softOf T else [] := by
  have h (P Q : Prop) [Decidable P] [Decidable Q] (l : List (EntryCode × Stage)) :
      (if P ∧ Q then l else []) = if P then (if Q then l else []) else [] := by
    by_cases hP : P <;> simp [hP]
  simp only [DecState.softEntries, fieldStages, List.flatMap_cons, List.flatMap_nil, DecState.softOf, h]
  by_cases hdel : Stage.crcDelimiter.code.toNat < S.code.toNat <;> simp [hdel]

/-- A field that the frame does not have has no check. -/
theorem softOf_of_absent {d : DecState} {S : Stage} (h : d.fields.full S = 0) : d.softOf S = [] := by
  cases S with
  | dlc | crcDelimiter | ackSlot | ackDelimiter => simp [FieldRegs.full] at h
  | _ => rfl

section
variable {d d' : DecState} {S : Stage}
  (hsame : ∀ T : Stage, T.code.toNat < S.code.toNat → d'.softOf T = d.softOf T)
include hsame

theorem softEntries_stay : d'.softEntries S = d.softEntries S := by
  rw [softEntries_eq, softEntries_eq]
  refine List.flatMap_congr fun T _ => ?_
  split
  · exact hsame T ‹_›
  · rfl

/-- Leaving a stage adds its own soft violations to those of the stages before. -/
theorem softEntries_next {S' : Stage} (hS : S ∈ fieldStages) (hlt : S.code.toNat < S'.code.toNat)
    (hskip : ∀ T : Stage, S.code.toNat < T.code.toNat → T.code.toNat < S'.code.toNat →
      d'.fields.full T = 0) :
    d'.softEntries S' = d.softEntries S ++ d'.softOf S := by
  obtain ⟨before, after, hsplit, hbefore, hafter⟩ := fieldStages_split hS
  have hb : (before.flatMap fun T => if T.code.toNat < S'.code.toNat then d'.softOf T else []) =
      before.flatMap fun T => if T.code.toNat < S.code.toNat then d.softOf T else [] :=
    List.flatMap_congr fun T hT => by
      have := hbefore T hT
      rw [if_pos this, if_pos (by omega), hsame T this]
  have ha' : (after.flatMap fun T => if T.code.toNat < S'.code.toNat then d'.softOf T else []) = [] :=
    List.flatMap_eq_nil_iff.mpr fun T hT => by
      split
      · exact softOf_of_absent (hskip T (hafter T hT) ‹_›)
      · rfl
  have ha : (after.flatMap fun T => if T.code.toNat < S.code.toNat then d.softOf T else []) = [] :=
    List.flatMap_eq_nil_iff.mpr fun T hT => if_neg (Nat.lt_asymm (hafter T hT))
  simp only [softEntries_eq, hsplit, List.flatMap_append, List.flatMap_cons, hb, ha, ha', hlt,
    Nat.lt_irrefl, if_true, if_false, List.append_nil]

end

/-! ### Advancing by one bit -/

/-- The bit about to be received is the first of the CRC field. -/
abbrev DecState.AtFirstCrcBit (d : DecState) : Prop := d.stage = .crc ∧ d.fields.crcRx.n = 0

/-- `d'` is `d` advanced by the bit `v`: the stage's field has received it, and all else follows from that.
42_decoder.md R177 to R188. -/
structure DecState.Advances (v : Bit) (d d' : DecState) : Prop where
  receivable : Receivable d.stage v
  fields : d'.fields = d.fields.receive d.stage v
  stage : d'.stage = d'.fields.stageAfter d.stage
  notEnded : d'.stage ≠ .ended
  viol : d'.viol.map entryShape =
    d.viol.map entryShape ++ if d'.stage = d.stage then [] else d'.softOf d.stage
  crc : d'.crc = if d.AtFirstCrcBit then crcFinalize d.crc else d.crc
  crcCalc : d'.crcCalc = if d.AtFirstCrcBit then (crcFinalize d.crc).value.setWidth 15 else d.crcCalc
  crcCalcValid : d'.crcCalcValid = if d.AtFirstCrcBit then true else d.crcCalcValid
  stf : d'.stf = { d.stf with en := d.stf.en && d.stage != .crcDelimiter }
  recRun : d'.recRun = d.recRun
  raw : d'.raw = d.raw
  dst : d'.dst = d.dst
  start : d'.start = d.start
  last : d'.last = d.last
  resync : d'.resync = d.resync

/-- The last bit of a one-bit field is its first. -/
theorem receive_fills {f : FieldRegs} {S : Stage} {v : Bit} (hc : f.CountsAt S) (hS : S ∈ fieldStages)
    (h1 : f.full S = 1) (hv : Receivable S v) :
    ((f.receive S v).bitsOf S).length = (f.receive S v).full S := by
  have hlt := hc.short hS
  rw [bitsOf_receive_self hS hlt hv, full_receive f v (Nat.le_refl _), List.length_append]
  simp
  omega

/-- A check that records a violation or not. -/
theorem violate_if (d : DecState) (c : Prop) [Decidable c] (code : EntryCode) (S : Stage) (p : Option Pos) :
    (if c then violate d code S p else d) =
      { d with viol := d.viol ++ if c then [⟨code, S, p⟩] else [] } := by
  split <;> simp [violate]

theorem isOne_shift {c : Nat} (r : FieldReg 1 c) (b : Bit) : (r.shift b).isOne = b := by
  rw [FieldReg.isOne, shift_v, getLsbD_shiftIn]
  rfl

section
variable {d : DecState} {S : Stage} {v : Bit}

/-- An action outside stage `CRC`: the field is shifted, the stage `S'` is chosen, the entries `es` are
recorded, and stuffing is switched off after the CRC delimiter. -/
theorem advances_of_checks {S' : Stage} {es : List Entry} {t : StuffState} (hs : d.stage = S)
    (hv : Receivable S v) (hcrc : S ≠ .crc)
    (hS' : S' = (d.fields.receive S v).stageAfter S)
    (hend : S' ≠ .ended)
    (hes : es.map entryShape = if S' = S then []
      else { d with fields := d.fields.receive S v : DecState }.softOf S)
    (ht : t = { d.stf with en := d.stf.en && S != .crcDelimiter }) :
    d.Advances v
      { d with fields := d.fields.receive S v, stage := S', viol := d.viol ++ es, stf := t } := by
  subst hs
  exact
    { receivable := hv
      fields := rfl
      stage := hS'
      notEnded := hend
      viol := by rw [List.map_append, hes]; rfl
      crc := by simp [hcrc]
      crcCalc := by simp [hcrc]
      crcCalcValid := by simp [hcrc]
      stf := ht
      recRun := rfl
      raw := rfl
      dst := rfl
      start := rfl
      last := rfl
      resync := rfl }

/-- Only the CRC delimiter switches stuffing off. 42_decoder.md R185. -/
theorem stf_kept (t : StuffState) (hdel : S ≠ .crcDelimiter) :
    t = { t with en := t.en && S != .crcDelimiter } := by
  rw [bne_iff_ne.mpr hdel, Bool.and_true]

/-- An action that only shifts its field and chooses the stage `S'`: it finds no violation. -/
theorem advances_of_move {S' : Stage} (hs : d.stage = S) (hv : Receivable S v)
    (hcrc : S ≠ .crc) (hdel : S ≠ .crcDelimiter)
    (hS' : S' = (d.fields.receive S v).stageAfter S)
    (hend : S' ≠ .ended)
    (hsoft : S' = S ∨ { d with fields := d.fields.receive S v : DecState }.softOf S = []) :
    d.Advances v { d with fields := d.fields.receive S v, stage := S' } := by
  have h := advances_of_checks (es := []) hs hv hcrc hS' hend (by rcases hsoft with e | e <;> simp [e])
    (stf_kept _ hdel)
  rwa [List.append_nil] at h

/-- The fourth DLC bit leaves the stage and checks a remote request. 42_decoder.md R180. -/
theorem stageDlc_advances (p : Pos) (hs : d.stage = .dlc) : d.Advances v (stageDlc d v p) := by
  by_cases h4 : (d.fields.dlc.shift v).n.toNat = 4
  · have h := advances_of_checks (v := v) hs
      (S' := if 0 < dlcEff (d.fields.dlc.shift v).v then .data else .crc)
      (es := if (d.fields.receive .dlc v).remote && 0 < (d.fields.receive .dlc v).dlc.v.toNat
        then [⟨.rtrWithNonzeroDlc, .dlc, some p⟩] else [])
      (by simp) (by simp) (if_pos ((length_bitsMsb _ _).trans h4)).symm
      (by split <;> simp)
      (by
        have hne : (if 0 < dlcEff (d.fields.dlc.shift v).v then Stage.data else .crc) ≠ .dlc := by
          split <;> simp
        rw [if_neg hne]
        simp [DecState.softOf, entryShape, apply_ite (List.map entryShape)])
      (stf_kept _ (by simp))
    simp only [stageDlc, h4, if_true, violate_if]
    exact h
  · have h := advances_of_move (v := v) hs (S' := d.stage) (by simp) (by simp) (by simp)
      (hs.trans (if_neg (fun e => h4 ((length_bitsMsb _ _).symm.trans e))).symm) (by simp [hs]) (.inl hs)
    simp only [stageDlc, h4, if_false]
    exact h

theorem cacheCrc_eq (hs : d.stage = .crc) :
    cacheCrc d =
      { d with
        crc := if d.AtFirstCrcBit then crcFinalize d.crc else d.crc
        crcCalc := if d.AtFirstCrcBit then (crcFinalize d.crc).value.setWidth 15 else d.crcCalc
        crcCalcValid := if d.AtFirstCrcBit then true else d.crcCalcValid } := by
  by_cases hf : d.AtFirstCrcBit
  · simp only [cacheCrc, if_pos hf.2, if_pos hf]
  · simp only [cacheCrc, if_neg fun h0 => hf ⟨hs, h0⟩, if_neg hf]

/-- The CRC stage caches the computed CRC on its first bit. 42_decoder.md R182. -/
theorem stageCrc_advances (hs : d.stage = .crc) : d.Advances v (stageCrc d v) := by
  have hfields : d.fields.receive .crc v = d.fields.receive d.stage v := by rw [hs]
  rw [stageCrc, cacheCrc_eq hs]
  exact
    { receivable := by simp [hs]
      fields := hfields
      stage := by
        simp only [hs, FieldRegs.stageAfter, FieldRegs.bitsOf, length_bitsMsb]
        rfl
      notEnded := by dsimp only; split <;> simp
      viol := by simp [hs, DecState.softOf]
      crc := rfl
      crcCalc := rfl
      crcCalcValid := rfl
      stf := stf_kept _ (by simp [hs])
      recRun := rfl
      raw := rfl
      dst := rfl
      start := rfl
      last := rfl
      resync := rfl }

section
variable (p : Pos) (hc : d.fields.CountsAt d.stage)
include hc

/-- The single bit of a field moves on to the successor. -/
theorem stage_of_one_bit (hs : d.stage = S) (hS : S ∈ fieldStages) (h1 : d.fields.full S = 1)
    (hv : Receivable S v) :
    (d.fields.receive S v).successor S = (d.fields.receive S v).stageAfter S :=
  (if_pos (receive_fills (hs ▸ hc) hS h1 hv)).symm

/-- The delimiter check, the CRC comparison and the stuffing switch-off. 42_decoder.md R183 to R185. -/
theorem stageCrcDelimiter_advances (hs : d.stage = .crcDelimiter) :
    d.Advances v (stageCrcDelimiter d v p) := by
  have h := advances_of_checks (v := v) hs (S' := .ackSlot) (t := { d.stf with en := false })
    (es := (if v then [] else [⟨.crcDelimDominant, .crcDelimiter, some p⟩]) ++
      if d.crcCalc ≠ d.fields.crcRx.v then [⟨.crcMismatch, .crcDelimiter, some p⟩] else [])
    (by simp) (by simp) (stage_of_one_bit hc hs (by decide) rfl (by simp)) (by simp)
    (by
      cases v <;> by_cases hm : d.crcCalc = d.fields.crcRx.v <;>
        simp [DecState.softOf, FieldRegs.receive, isOne_shift, entryShape, hm])
    (by simp)
  rw [← List.append_assoc] at h
  cases v <;> by_cases hm : d.crcCalc = d.fields.crcRx.v <;>
    simpa [stageCrcDelimiter, violate, FieldRegs.receive, hm] using h

/-- The ACK slot check. 42_decoder.md R186. -/
theorem stageAckSlot_advances (hs : d.stage = .ackSlot) : d.Advances v (stageAckSlot d v p) := by
  have h := advances_of_checks (v := v) hs (S' := .ackDelimiter)
    (es := if v then [] else [⟨.ackSlotDominant, .ackSlot, some p⟩])
    (by simp) (by simp) (stage_of_one_bit hc hs (by decide) rfl (by simp)) (by simp)
    (by cases v <;> simp [DecState.softOf, FieldRegs.receive, isOne_shift, entryShape])
    (stf_kept _ (by simp))
  cases v <;> simpa [stageAckSlot, violate, FieldRegs.receive] using h

/-- The ACK delimiter check. 42_decoder.md R186. -/
theorem stageAckDelimiter_advances (hs : d.stage = .ackDelimiter) :
    d.Advances v (stageAckDelimiter d v p) := by
  have h := advances_of_checks (v := v) hs (S' := .eof)
    (es := if v then [] else [⟨.ackDelimDominant, .ackDelimiter, some p⟩])
    (by simp) (by simp) (stage_of_one_bit hc hs (by decide) rfl (by simp)) (by simp)
    (by cases v <;> simp [DecState.softOf, FieldRegs.receive, isOne_shift, entryShape])
    (stf_kept _ (by simp))
  cases v <;> simpa [stageAckDelimiter, violate, FieldRegs.receive] using h

/-- The format's single bits are recorded and not checked. 42_decoder.md R178, R179. -/
theorem advances_of_one_bit {S' : Stage} (hs : d.stage = S)
    (hS : S ∈ [Stage.rtrOrSrr, .ide, .rtr, .r1, .r0]) (hS' : S' = (d.fields.receive S v).successor S) :
    d.Advances v { d with fields := d.fields.receive S v, stage := S' } := by
  have hmem : S ∈ fieldStages ∧ S ≠ .eof ∧ S ≠ .ifs ∧ S ≠ .crc ∧ S ≠ .crcDelimiter := by
    revert hS; cases S <;> decide
  obtain ⟨hmem, heof, hifs, hcrc, hdel⟩ := hmem
  have h1 : d.fields.full S = 1 := by
    have hlt := (hs ▸ hc : d.fields.CountsAt S).short hmem
    have hle : d.fields.full S ≤ 1 := by
      revert hS; cases S <;> simp [FieldRegs.full]; all_goals split <;> simp
    omega
  have hend : S' ≠ .ended := by
    rw [hS']; revert hS; cases S <;> simp [FieldRegs.successor]; split <;> simp
  have hsoft (e : DecState) : e.softOf S = [] := by revert hS; cases S <;> simp [DecState.softOf]
  exact advances_of_move hs (by simp [heof, hifs]) hcrc hdel
    (hS'.trans (stage_of_one_bit hc hs hmem h1 (by simp [heof, hifs]))) hend (.inr (hsoft _))

/-- What a stage does with a delivered bit: a dominant bit fails the frame's tail, the third recessive IFS bit
ends the frame, and every other bit advances it. 42_decoder.md R176 to R188. -/
theorem stageAction_cases (hS : d.stage ∈ fieldStages) :
    (∃ code : EntryCode, code.cls = .fatal ∧ stageAction d v p = (failFrame d code d.stage p, none)) ∨
    (∃ r, stageAction d v p = ({ frameInit d with seq := d.seq + 1 }, some r)) ∨
    ∃ d', stageAction d v p = (d', none) ∧ d.Advances v d' := by
  cases hs : d.stage with
  | sof | ended | hardFail => simp [hs, fieldStages] at hS
  | arbitrationId =>
    refine .inr (.inr ⟨_, by rw [stageAction, hs], ?_⟩)
    exact advances_of_move hs (by simp) (by simp) (by simp)
      (by simp only [FieldRegs.stageAfter, FieldRegs.bitsOf, length_bitsMsb]; rfl)
      (by split <;> simp) (.inr rfl)
  | rtrOrSrr | rtr | r1 | r0 =>
    exact .inr (.inr ⟨_, by rw [stageAction, hs]; rfl, advances_of_one_bit hc hs (by simp) rfl⟩)
  | ide =>
    refine .inr (.inr ⟨stageIde d v, by rw [stageAction, hs], advances_of_one_bit hc hs (by simp) ?_⟩)
    rw [FieldRegs.successor, FieldRegs.receive, isOne_shift]
  | extendedId =>
    have hi : d.fields.ide.isOne = true := by
      have hlt := hc.short hS
      rw [hs] at hlt
      by_contra hi
      simp [FieldRegs.full, hi] at hlt
    refine .inr (.inr ⟨_, by rw [stageAction, hs], ?_⟩)
    exact advances_of_move hs (by simp) (by simp) (by simp)
      (by
        have hfull : (d.fields.receive .extendedId v).full .extendedId = 18 := if_pos hi
        rw [FieldRegs.stageAfter, hfull]
        simp only [FieldRegs.bitsOf, length_bitsMsb]
        rfl)
      (by split <;> simp) (.inr rfl)
  | dlc => exact .inr (.inr ⟨_, by rw [stageAction, hs], stageDlc_advances p hs⟩)
  | data =>
    refine .inr (.inr ⟨_, by rw [stageAction, hs], ?_⟩)
    exact advances_of_move hs (by simp) (by simp) (by simp)
      (by simp only [FieldRegs.stageAfter, FieldRegs.bitsOf, length_bitsMsb]; rfl)
      (by split <;> simp) (.inr rfl)
  | crc => exact .inr (.inr ⟨_, by rw [stageAction, hs], stageCrc_advances hs⟩)
  | crcDelimiter =>
    exact .inr (.inr ⟨_, by rw [stageAction, hs], stageCrcDelimiter_advances p hc hs⟩)
  | ackSlot => exact .inr (.inr ⟨_, by rw [stageAction, hs], stageAckSlot_advances p hc hs⟩)
  | ackDelimiter =>
    exact .inr (.inr ⟨_, by rw [stageAction, hs], stageAckDelimiter_advances p hc hs⟩)
  | eof =>
    cases v with
    | false => exact .inl ⟨.eofDominant, by decide, by rw [stageAction, hs]; rfl⟩
    | true =>
      refine .inr (.inr ⟨_, by rw [stageAction, hs], ?_⟩)
      exact advances_of_move (v := true) hs (by simp) (by simp) (by simp)
        (by simp only [FieldRegs.stageAfter, FieldRegs.bitsOf, List.length_replicate]; rfl)
        (by split <;> simp) (.inr rfl)
  | ifs =>
    cases v with
    | false => exact .inl ⟨.ifsDominant, by decide, by rw [stageAction, hs]; rfl⟩
    | true =>
      by_cases h3 : (d.fields.ifsN + 1).toNat = 3
      · refine .inr (.inl ⟨_, by rw [stageAction, hs]; simp only [stageIfs, h3, if_true]; rfl⟩)
      · have hact : stageAction d true p = stageIfs d true p := by rw [stageAction, hs]
        have hstay : stageIfs d true p = ({ d with fields := d.fields.receive .ifs true }, none) := by
          simp only [stageIfs, h3, if_true, if_false]
          rfl
        refine .inr (.inr ⟨_, hact.trans hstay, ?_⟩)
        exact advances_of_move (v := true) (S' := d.stage) hs (by simp) (by simp) (by simp)
          (hs.trans (if_neg fun e => h3 (List.length_replicate.symm.trans e)).symm) (by simp [hs]) (.inl hs)

end
end

end Sys2Proof.Machine
end

section
/-! PROOFS. What a command leads the decoder to, case by case, and that each case keeps the decoder's invariant
(42_decoder.md R170 to R198). -/

namespace Sys2Proof.Machine

open Sys2Proof.Claims (IsData received entryShape)

/-! ### The cases of a symbol -/

/-- The decoder after the dominant symbol that starts a frame. 42_decoder.md R173. -/
def startedFrame (d : DecState) (a : Bool) (p : Pos) : DecState :=
  { frameInit d with
    stage := .arbitrationId
    start := some p
    last := some p
    raw := [⟨dominant, a, p⟩]
    dst := [dominant]
    crc := crcStep .fresh dominant
    stf := StuffState.fresh.seed dominant
    diag := if a then [⟨.stuffAnnotSpurious, .sof, some p⟩] else [] }

/-- A data symbol is received, and then the stage acts on it. 42_decoder.md R174, R176. -/
theorem decodeSymbol_received {d : DecState} {v : Bit} (a : Bool) (p : Pos) (c : BitClass)
    (hS : d.stage ∈ fieldStages) (hd : IsData d v) :
    (decodeSymbol d v a p c).dec = (stageAction (received d v a p) v p).1 := by
  obtain ⟨hs, he, hf⟩ := mem_fieldStages.mp hS
  have hcov : d.stage.crcCovered = decide (d.stage.code.toNat ≤ Stage.data.code.toNat) := by
    cases d.stage <;> rfl
  rw [decodeSymbol_data v a p c hs he hf hd]
  cases a <;> simp [acceptData, deliver, recordBit, received, keepSymbol, diagnose, hcov]

/-- The decoders that a symbol can lead to from a decoder between commands. 42_decoder.md R172 to R189. -/
inductive SymbolLeads (d : DecState) (v : Bit) (a : Bool) (p : Pos) : DecState → Prop where
  | idle (hs : d.stage = .sof) : SymbolLeads d v a p d
  | start (hs : d.stage = .sof) (hv : v = dominant) : SymbolLeads d v a p (startedFrame d a p)
  | scan (hs : d.stage = .hardFail) {n : BitVec 4} (hn : n.toNat < Config.resyncRun) :
      SymbolLeads d v a p { keepSymbol d v a p with recRun := n }
  | ended (n : BitVec 32) : SymbolLeads d v a p { frameInit d with seq := n }
  | stuff (hS : d.stage ∈ fieldStages) (hen : d.stf.en = true) (hc : (stfDestuff d.stf v).1 = .stuff)
      (g : List Entry) :
      SymbolLeads d v a p { keepSymbol d v a p with stf := (stfDestuff d.stf v).2, diag := g }
  | violation (hS : d.stage ∈ fieldStages) :
      SymbolLeads d v a p
        (failFrame { keepSymbol d v a p with stf := (stfDestuff d.stf v).2 } (stuffRunCode v) d.stage p)
  | dominantTail (hS : d.stage ∈ fieldStages) {code : EntryCode} (hcode : code.cls = .fatal) :
      SymbolLeads d v a p (failFrame (received d v a p) code d.stage p)
  | advanced (hS : d.stage ∈ fieldStages) (hd : IsData d v) {d' : DecState}
      (ha : (received d v a p).Advances v d') : SymbolLeads d v a p d'

section
variable {d : DecState} (h : d.Inv)
include h

/-- In stage `SOF` only the sequence number is not fresh. 10_state.md R42. -/
theorem DecState.Inv.exists_seq (hs : d.stage = .sof) : ∃ n, d = { DecState.fresh with seq := n } :=
  ⟨d.seq, h.idle hs⟩

theorem DecState.Inv.scan_leads (v : Bit) (a : Bool) (p : Pos) (hs : d.stage = .hardFail) :
    SymbolLeads d v a p (scan (keepSymbol d v a p) v p).1 := by
  obtain ⟨-, hrun, -⟩ := h.failed hs
  rcases scan_cases (keepSymbol d v a p) v p with ⟨-, e⟩ | ⟨-, h9, e⟩ | ⟨-, -, r, e, -⟩ <;> rw [e]
  · exact .scan hs (by decide)
  · refine .scan hs ?_
    rw [keepSymbol_recRun] at h9 ⊢
    simp only [Config.resyncRun] at hrun ⊢
    bv_omega
  · exact .ended _

theorem DecState.Inv.decodeSymbol_leads (v : Bit) (a : Bool) (p : Pos) (c : BitClass) :
    SymbolLeads d v a p (decodeSymbol d v a p c).dec := by
  by_cases hS : d.stage ∈ fieldStages
  · obtain ⟨hs, he, hf⟩ := mem_fieldStages.mp hS
    by_cases hd : IsData d v
    · rw [decodeSymbol_received a p c hS hd]
      obtain ⟨hc, -⟩ := h.running hf
      rcases stageAction_cases (d := received d v a p) (v := v) p hc hS with
        ⟨code, hcode, e⟩ | ⟨r, e⟩ | ⟨d', e, ha⟩ <;> rw [e]
      · exact .dominantTail hS hcode
      · exact .ended _
      · exact .advanced hS hd ha
    · obtain ⟨hen, hcls⟩ := not_or.mp hd
      rw [Bool.not_eq_false] at hen
      cases hc : (stfDestuff d.stf v).1 with
      | data => exact absurd hc hcls
      | stuff =>
        rw [decodeSymbol_stuff v a p c hs he hf hen hc]
        cases a
        · exact .stuff hS hen hc _
        · exact .stuff hS hen hc _
      | violation =>
        rw [decodeSymbol_violation v a p c hs he hf hen hc]
        exact .violation hS
  · by_cases hs : d.stage = .sof
    · cases v with
      | true =>
        rw [decodeSymbol_idle a p c hs]
        exact .idle hs
      | false =>
        have e : (decodeSymbol d dominant a p c).dec = startedFrame d a p := by
          rw [decodeSymbol_start a p c hs]
          obtain ⟨n, rfl⟩ := h.exists_seq hs
          cases a <;> rfl
        rw [e]
        exact .start hs rfl
    · have hf : d.stage = .hardFail := by
        by_contra hf
        exact hS (mem_fieldStages.mpr ⟨hs, h.notEnded, hf⟩)
      rw [decodeSymbol_hardFail v a p c hf]
      exact h.scan_leads v a p hf

end

/-! ### The invariant in a frame -/

/-- What the invariant says of a decoder inside a frame, whatever its stage. -/
structure DecState.Sound (d : DecState) : Prop where
  crc : d.crc.Inv ∧ d.crc.poly = Config.canCrcPoly
  stf : d.stf.Bounded
  start : d.start = d.raw.head?.map RawSymbol.pos
  last : d.last = d.raw.getLast?.map RawSymbol.pos
  nonempty : d.raw ≠ []
  resync : d.resync = .none
  cached : d.crcCalcValid = decide (d.fields.crcRx.n ≠ 0)
  destuffed : d.dst.length ≤ d.raw.length

/-- What the invariant says of a decoder in a stage that receives bits. -/
structure DecState.Running (d : DecState) : Prop where
  stage : d.stage ∈ fieldStages
  sound : d.Sound
  counts : d.fields.CountsAt d.stage
  recRun : d.recRun = 0
  noViolation : d.stf.viol = false
  stuffing : d.stf.en = decide (d.stage.code.toNat ≤ Stage.crcDelimiter.code.toNat)
  viol : d.viol.map entryShape = d.softEntries d.stage
  delivered : d.dst = dominant :: d.fields.receivedBits

theorem DecState.Inv.sound {d : DecState} (h : d.Inv) (hs : d.stage ≠ .sof) : d.Sound := by
  obtain ⟨hstart, hlast, hne⟩ := h.positions hs
  exact ⟨h.crc, h.stf, hstart, hlast, hne, h.resync, h.cached, h.destuffed⟩

theorem DecState.Inv.toRunning {d : DecState} (h : d.Inv) (hS : d.stage ∈ fieldStages) : d.Running := by
  obtain ⟨hs, -, hf⟩ := mem_fieldStages.mp hS
  obtain ⟨hcounts, hrec, hviol, hen, hentries⟩ := h.running hf
  exact ⟨hS, h.sound hs, hcounts, hrec, hviol, hen, hentries, h.delivered hs hf⟩

theorem DecState.Running.inv {d : DecState} (h : d.Running) : d.Inv := by
  obtain ⟨hs, he, hf⟩ := mem_fieldStages.mp h.stage
  exact
    { notEnded := he
      crc := h.sound.crc
      stf := h.sound.stf
      idle := fun e => absurd e hs
      positions := fun _ => ⟨h.sound.start, h.sound.last, h.sound.nonempty⟩
      running := fun _ => ⟨h.counts, h.recRun, h.noViolation, h.stuffing, h.viol⟩
      failed := fun e => absurd e hf
      resync := h.sound.resync
      cached := h.sound.cached
      delivered := fun _ _ => h.delivered
      destuffed := h.sound.destuffed }

/-- A decoder in `HARD_FAIL` meets the invariant by its failed clause. -/
theorem DecState.Sound.inv_of_failed {d : DecState} (h : d.Sound) (hs : d.stage = .hardFail)
    (hfailed : d.stf.en = false ∧ d.recRun.toNat < Config.resyncRun ∧
      ∃ soft e, d.viol = soft ++ [e] ∧ e.code.cls = .fatal ∧ d.fields.CountsAt e.stage ∧
        soft.map entryShape = d.softEntries e.stage) : d.Inv where
  notEnded := by simp [hs]
  crc := h.crc
  stf := h.stf
  idle := fun e => by simp [hs] at e
  positions := fun _ => ⟨h.start, h.last, h.nonempty⟩
  running := fun e => absurd hs e
  failed := fun _ => hfailed
  resync := h.resync
  cached := h.cached
  delivered := fun _ e => absurd hs e
  destuffed := h.destuffed

section
variable {d : DecState}

theorem DecState.Sound.keep (h : d.Sound) (v : Bit) (a : Bool) (p : Pos) : (keepSymbol d v a p).Sound where
  crc := h.crc
  stf := h.stf
  start := by
    rw [keepSymbol_start, keepSymbol_raw, List.head?_append_of_ne_nil _ h.nonempty]
    exact h.start
  last := by simp
  nonempty := by simp
  resync := h.resync
  cached := h.cached
  destuffed := by
    have := h.destuffed
    simp only [keepSymbol_dst, keepSymbol_raw, List.length_append]
    omega

theorem DecState.Sound.withStf (h : d.Sound) {t : StuffState} (ht : t.Bounded) (g : List Entry) :
    { d with stf := t, diag := g : DecState }.Sound :=
  { h with stf := ht }

theorem DecState.Sound.fail (h : d.Sound) (code : EntryCode) (S : Stage) (p : Pos) :
    (failFrame d code S p).Sound :=
  { h with }

theorem DecState.Sound.received (h : d.Sound) (v : Bit) (a : Bool) (p : Pos) : (received d v a p).Sound :=
  { h.keep v a p with
    crc := by
      simp only [Claims.received]
      split
      · exact ⟨h.crc.1.step v, h.crc.2⟩
      · exact h.crc
    stf := by
      simp only [Claims.received]
      split
      · exact stfDestuff_bounded h.stf v
      · exact h.stf
    destuffed := by
      have := h.destuffed
      simp only [Claims.received, List.length_append, List.length_singleton]
      omega }

/-- The cached CRC is valid exactly when a CRC bit has been received. 42_decoder.md R182. -/
theorem DecState.Advances.cached {v : Bit} {d' : DecState} (ha : d.Advances v d')
    (hc : d.fields.CountsAt d.stage) (h : d.crcCalcValid = decide (d.fields.crcRx.n ≠ 0)) :
    d'.crcCalcValid = decide (d'.fields.crcRx.n ≠ 0) := by
  rw [ha.crcCalcValid, ha.fields]
  by_cases hS : d.stage = .crc
  · have hlt : d.fields.crcRx.n.toNat < 15 := by
      have := hc.short (hS ▸ by decide)
      rwa [hS, FieldRegs.bitsOf, length_bitsMsb] at this
    have hn : (d.fields.receive d.stage v).crcRx.n ≠ 0 := by
      rw [hS]
      simp only [FieldRegs.receive, shift_n]
      bv_omega
    rw [decide_eq_true hn, h]
    by_cases h0 : d.fields.crcRx.n = 0 <;> simp [DecState.AtFirstCrcBit, hS, h0]
  · rw [crcRx_receive _ _ hS, if_neg fun e => hS e.1, h]

/-- Advancing keeps what holds whatever the stage. -/
theorem DecState.Sound.advance {v : Bit} {d' : DecState} (h : d.Sound) (hc : d.fields.CountsAt d.stage)
    (ha : d.Advances v d') : d'.Sound where
  crc := by
    rw [ha.crc]
    split
    · exact ⟨h.crc.1.finalize, (crcFinalize_poly _).trans h.crc.2⟩
    · exact h.crc
  stf := by rw [ha.stf]; exact h.stf
  start := by rw [ha.start, ha.raw]; exact h.start
  last := by rw [ha.last, ha.raw]; exact h.last
  nonempty := by rw [ha.raw]; exact h.nonempty
  resync := ha.resync.trans h.resync
  cached := ha.cached hc h.cached
  destuffed := by rw [ha.dst, ha.raw]; exact h.destuffed

/-- What the earlier stages found does not change as a bit is received. 60_exceptions.md R278. -/
theorem DecState.Advances.softOf_before {v : Bit} {d' : DecState} (ha : d.Advances v d') {T : Stage}
    (hT : T.code.toNat < d.stage.code.toNat) : d'.softOf T = d.softOf T := by
  have hne {U : Stage} (hU : U.code.toNat ≤ T.code.toNat) : d.stage ≠ U := by rintro rfl; omega
  cases T with
  | dlc =>
    have hremote : (d.fields.receive d.stage v).remote = d.fields.remote := by
      rw [FieldRegs.remote, FieldRegs.remote, ide_receive _ _ (hne (by decide)),
        rtr_receive _ _ (hne (by decide)), rtrSrr_receive _ _ (hne (by decide))]
    simp only [DecState.softOf, ha.fields, hremote, dlc_receive _ _ (hne (Nat.le_refl _))]
  | crcDelimiter =>
    have hcrc : d.stage ≠ .crc := hne (by decide)
    simp only [DecState.softOf, ha.fields, crcDel_receive _ _ (hne (Nat.le_refl _)),
      crcRx_receive _ _ hcrc, ha.crcCalc, if_neg fun e : d.AtFirstCrcBit => hcrc e.1]
  | ackSlot => simp only [DecState.softOf, ha.fields, ack_receive _ _ (hne (Nat.le_refl _))]
  | ackDelimiter => simp only [DecState.softOf, ha.fields, ackDel_receive _ _ (hne (Nat.le_refl _))]
  | _ => rfl

/-- Advancing from a receiving stage stays in the receiving stages: in the same one, or in a later one that the
frame has, over none but absent fields. -/
theorem DecState.Advances.stage_cases {v : Bit} {d' : DecState} (ha : d.Advances v d')
    (hS : d.stage ∈ fieldStages) (hc : d.fields.CountsAt d.stage) :
    d'.fields.CountsAt d'.stage ∧ d'.stage ∈ fieldStages ∧
      (d'.stage = d.stage ∨ d.stage.code.toNat < d'.stage.code.toNat ∧
        ∀ T : Stage, d.stage.code.toNat < T.code.toNat → T.code.toNat < d'.stage.code.toNat →
          d'.fields.full T = 0) := by
  have hstage := ha.stage
  rw [ha.fields, FieldRegs.stageAfter] at hstage
  rw [ha.fields]
  split at hstage
  next hfull =>
    have hifs : d.stage ≠ .ifs := fun e => ha.notEnded (by rw [hstage, e]; rfl)
    have hpos : 0 < (d.fields.receive d.stage v).full d.stage := by
      rw [full_receive _ v (Nat.le_refl _)]
      exact Nat.zero_lt_of_lt (hc.short hS)
    obtain ⟨hmem, hlt, -, hskip⟩ := successor_spec hS hifs hpos
    rw [hstage]
    exact ⟨countsAt_receive_next hS hc hfull hifs, hmem, .inr ⟨hlt, hskip⟩⟩
  next hfull =>
    rw [hstage]
    exact ⟨countsAt_receive_stay hS hc ha.receivable hfull, hS, .inl rfl⟩

/-- The violations found keep to the checks of the stages passed. 60_exceptions.md R278. -/
theorem DecState.Advances.softEntries {v : Bit} {d' : DecState} (ha : d.Advances v d')
    (hS : d.stage ∈ fieldStages) (hc : d.fields.CountsAt d.stage)
    (h : d.viol.map entryShape = d.softEntries d.stage) :
    d'.viol.map entryShape = d'.softEntries d'.stage := by
  obtain ⟨-, -, heq | ⟨hlt, hskip⟩⟩ := ha.stage_cases hS hc
  · rw [ha.viol, if_pos heq, List.append_nil, h, heq]
    exact (softEntries_stay fun T hT => ha.softOf_before hT).symm
  · have hne : d'.stage ≠ d.stage := fun e => by rw [e] at hlt; omega
    rw [ha.viol, if_neg hne, h]
    exact (softEntries_next (fun T hT => ha.softOf_before hT) hS hlt hskip).symm

/-- The CRC delimiter is one bit. 42_decoder.md R183. -/
theorem DecState.Advances.to_ackSlot {v : Bit} {d' : DecState} (ha : d.Advances v d')
    (hc : d.fields.CountsAt d.stage) (hdel : d.stage = .crcDelimiter) : d'.stage = .ackSlot := by
  have hfills := receive_fills hc (hdel ▸ by decide) (by rw [hdel]; rfl) ha.receivable
  rw [ha.stage, ha.fields, FieldRegs.stageAfter, if_pos hfills, hdel]
  rfl

/-- Stuffing stays on through the CRC delimiter stage and goes off as that stage is left. 42_decoder.md R185. -/
theorem DecState.Advances.stuffing {v : Bit} {d' : DecState} (ha : d.Advances v d')
    (hS : d.stage ∈ fieldStages) (hc : d.fields.CountsAt d.stage)
    (h : d.stf.en = decide (d.stage.code.toNat ≤ Stage.crcDelimiter.code.toNat)) :
    d'.stf.en = decide (d'.stage.code.toNat ≤ Stage.crcDelimiter.code.toNat) := by
  have hen : d'.stf.en = (d.stf.en && d.stage != .crcDelimiter) := by rw [ha.stf]
  by_cases hdel : d.stage = .crcDelimiter
  · rw [hen, hdel, ha.to_ackSlot hc hdel]
    simp [Stage.code]
  · rw [hen, bne_iff_ne.mpr hdel, Bool.and_true, h]
    obtain ⟨-, -, heq | ⟨hlt, hskip⟩⟩ := ha.stage_cases hS hc
    · rw [heq]
    · have hne : d.stage.code.toNat ≠ Stage.crcDelimiter.code.toNat := fun e => hdel (Stage.code_injective e)
      have hnot : ¬ (d.stage.code.toNat < Stage.crcDelimiter.code.toNat ∧
          Stage.crcDelimiter.code.toNat < d'.stage.code.toNat) := fun ⟨h1, h2⟩ =>
        absurd (hskip .crcDelimiter h1 h2) (by simp [FieldRegs.full])
      rw [decide_eq_decide]
      omega

theorem stfDestuff_en (s : StuffState) (b : Bit) : (stfDestuff s b).2.en = s.en := by
  rcases stfDestuff_cases s b with
    ⟨-, e⟩ | ⟨-, -, e⟩ | ⟨-, -, ⟨-, -, e⟩ | ⟨-, -, e⟩ | ⟨-, -, e⟩ | ⟨-, -, e⟩⟩ <;> simp [e]

/-- Only a violation sets the sticky flag. 41_stuffing.md R146. -/
theorem stfDestuff_viol {s : StuffState} {b : Bit} (h : (stfDestuff s b).1 ≠ .violation) :
    (stfDestuff s b).2.viol = s.viol := by
  rcases stfDestuff_cases s b with
    ⟨-, e⟩ | ⟨-, -, e⟩ | ⟨-, -, ⟨-, -, e⟩ | ⟨-, -, e⟩ | ⟨-, -, e⟩ | ⟨-, -, e⟩⟩ <;> simp [e] at h ⊢

/-- With stuffing off the engine classes every bit `DATA` and stands still, so a symbol always goes through it.
41_stuffing.md R144. -/
theorem received_stf (v : Bit) (a : Bool) (p : Pos) : (received d v a p).stf = (stfDestuff d.stf v).2 := by
  cases hen : d.stf.en
  · simp [received, stfDestuff, hen]
  · simp [received, hen]

theorem class_of_isData {v : Bit} (hd : IsData d v) : (stfDestuff d.stf v).1 = .data := by
  rcases hd with hen | hcls
  · simp [stfDestuff, hen]
  · exact hcls

/-- A data symbol keeps the running invariant. -/
theorem DecState.Running.advance {v : Bit} {a : Bool} {p : Pos} {d' : DecState} (h : d.Running)
    (hd : IsData d v) (ha : (received d v a p).Advances v d') : d'.Running := by
  obtain ⟨hcounts, hmem, -⟩ := ha.stage_cases h.stage h.counts
  exact
    { stage := hmem
      sound := (h.sound.received v a p).advance h.counts ha
      counts := hcounts
      recRun := ha.recRun.trans h.recRun
      noViolation := by
        rw [ha.stf, received_stf]
        exact (stfDestuff_viol (by simp [class_of_isData hd])).trans h.noViolation
      stuffing := ha.stuffing h.stage h.counts (by rw [received_stf, stfDestuff_en]; exact h.stuffing)
      viol := ha.softEntries h.stage h.counts h.viol
      delivered := by
        have hbits := receivedBits_receive h.stage h.counts ha.receivable
        rw [ha.fields, ha.dst]
        exact (congrArg (· ++ [v]) h.delivered).trans (congrArg (dominant :: ·) hbits.symm) }

/-- A stuff bit keeps the running invariant. -/
theorem DecState.Running.stuff {v : Bit} (h : d.Running) (hc : (stfDestuff d.stf v).1 = .stuff) (a : Bool)
    (p : Pos) (g : List Entry) :
    { keepSymbol d v a p with stf := (stfDestuff d.stf v).2, diag := g : DecState }.Running where
  stage := h.stage
  sound := (h.sound.keep v a p).withStf (stfDestuff_bounded h.sound.stf v) g
  counts := h.counts
  recRun := h.recRun
  noViolation := (stfDestuff_viol (by simp [hc])).trans h.noViolation
  stuffing := (stfDestuff_en _ _).trans h.stuffing
  viol := h.viol
  delivered := h.delivered

/-- A fatal violation in a receiving stage leads to a sound `HARD_FAIL`. 42_decoder.md R175, R187, R188, R192. -/
theorem DecState.Sound.failFrame_inv {k : DecState} {S : Stage} {code : EntryCode} (h : k.Sound)
    (hcode : code.cls = .fatal) (hc : k.fields.CountsAt S) (hv : k.viol.map entryShape = k.softEntries S)
    (p : Pos) : (failFrame k code S p).Inv :=
  (h.fail code S p).inv_of_failed rfl
    ⟨rfl, by rw [failFrame_recRun]; decide, k.viol, ⟨code, S, some p⟩, rfl, hcode, hc, hv⟩

/-- Scanning in `HARD_FAIL` keeps the frame as it stood. 42_decoder.md R189. -/
theorem DecState.Inv.scan_step (h : d.Inv) (hs : d.stage = .hardFail) (v : Bit) (a : Bool) (p : Pos)
    {n : BitVec 4} (hn : n.toNat < Config.resyncRun) :
    { keepSymbol d v a p with recRun := n : DecState }.Inv := by
  obtain ⟨hen, -, hfatal⟩ := h.failed hs
  have hsound : { keepSymbol d v a p with recRun := n : DecState }.Sound :=
    { (h.sound (by simp [hs])).keep v a p with }
  exact hsound.inv_of_failed hs ⟨hen, hn, hfatal⟩

end

/-! ### Fresh and started frames -/

/-- The counts of empty registers, in `SOF` and in the first stage of a frame. -/
theorem countsAt_zero {S : Stage} (hS : S = .sof ∨ S = .arbitrationId) : FieldRegs.zero.CountsAt S := by
  rw [countsAt_iff]
  rcases hS with rfl | rfl <;> decide

theorem frameInit_inv (d : DecState) (n : BitVec 32) : { frameInit d with seq := n : DecState }.Inv where
  notEnded := by simp
  crc := ⟨CrcState.fresh_inv, rfl⟩
  stf := (by decide : StuffState.fresh.Bounded)
  idle := fun _ => rfl
  positions := fun e => absurd rfl e
  running := fun _ => ⟨countsAt_zero (.inl rfl), rfl, rfl, rfl, by rw [softEntries_eq]; rfl⟩
  failed := fun e => by cases e
  resync := rfl
  cached := rfl
  delivered := fun e => absurd rfl e
  destuffed := Nat.le_refl _

theorem startedFrame_running (d : DecState) (a : Bool) (p : Pos) : (startedFrame d a p).Running where
  stage := by simp [startedFrame, fieldStages]
  sound :=
    { crc := ⟨CrcState.fresh_inv.step dominant, rfl⟩
      stf := seed_bounded _ _
      start := rfl
      last := rfl
      nonempty := by simp [startedFrame]
      resync := rfl
      cached := rfl
      destuffed := Nat.le_refl _ }
  counts := countsAt_zero (.inr rfl)
  recRun := rfl
  noViolation := rfl
  stuffing := rfl
  viol := by rw [softEntries_eq]; rfl
  delivered := rfl

/-- Every case of a symbol keeps the decoder's invariant. -/
theorem SymbolLeads.inv {d d' : DecState} {v : Bit} {a : Bool} {p : Pos} (hl : SymbolLeads d v a p d')
    (h : d.Inv) : d'.Inv := by
  cases hl with
  | idle hs => exact h
  | start hs hv => exact (startedFrame_running d a p).inv
  | scan hs hn => exact h.scan_step hs v a p hn
  | ended n => exact frameInit_inv d n
  | stuff hS hen hc g => exact ((h.toRunning hS).stuff hc a p g).inv
  | violation hS =>
    have hr := h.toRunning hS
    exact ((hr.sound.keep v a p).withStf (stfDestuff_bounded hr.sound.stf v) d.diag).failFrame_inv
      (by cases v <;> decide) hr.counts hr.viol p
  | dominantTail hS hcode =>
    have hr := h.toRunning hS
    exact (hr.sound.received v a p).failFrame_inv hcode hr.counts hr.viol p
  | advanced hS hd ha => exact ((h.toRunning hS).advance hd ha).inv

end Sys2Proof.Machine
end

section
/-! PROOFS. What a command does to each unit, and O58: every step keeps the invariant of the whole block. -/

namespace Sys2Proof.Machine

/-! ### A fresh CRC engine (40_crc.md R121) -/

/-- Below its leading zeros a nonzero value has its highest set bit. -/
theorem leadingZeros_bounds {w : Nat} (v : BitVec w) (k : Nat) (h0 : 0 < v.toNat) (hk : v.toNat < 2 ^ k) :
    ∃ m, ((bitsMsb v k).takeWhile fun b => !b).length + (m + 1) = k ∧ 2 ^ m ≤ v.toNat ∧
      v.toNat < 2 ^ (m + 1) := by
  induction k with
  | zero => omega
  | succ k ih =>
    cases hb : v.getLsbD k with
    | true => exact ⟨k, by simp [bitsMsb, hb], Nat.ge_two_pow_of_testBit hb, hk⟩
    | false =>
      have hlt : v.toNat < 2 ^ k := by
        refine Nat.lt_pow_two_of_testBit _ fun i hi => ?_
        rcases Nat.eq_or_lt_of_le hi with rfl | hi
        · exact hb
        · exact Nat.testBit_lt_two_pow (Nat.lt_of_lt_of_le hk (Nat.pow_le_pow_right (by omega) hi))
      obtain ⟨m, hm, hle, hlt'⟩ := ih hlt
      refine ⟨m, ?_, hle, hlt'⟩
      simp only [bitsMsb, hb, Bool.not_false, List.takeWhile_cons, if_true, List.length_cons]
      omega

/-- A new engine infers its width from the highest set bit of its generator. 40_crc.md R121. -/
theorem crcNew_inv {poly : BitVec 32} (h : badPoly poly = false) : (crcNew poly).Inv := by
  have h0 : 0 < poly.toNat := by
    simp only [badPoly, decide_eq_false_iff_not] at h
    exact Nat.pos_of_ne_zero fun e => h (BitVec.eq_of_toNat_eq e)
  obtain ⟨m, hm, hle, hlt⟩ := leadingZeros_bounds poly 32 h0 poly.isLt
  have hw : (crcNew poly).width.toNat = m + 1 := by
    simp only [crcNew, clz32, BitVec.toNat_ofNat]
    omega
  unfold CrcState.Inv
  rw [hw]
  exact ⟨by omega, hle, hlt, Nat.two_pow_pos _, Nat.two_pow_pos _⟩

/-! ### Each unit after a command -/

/-- The end of the stream leaves a fresh decoder, the sequence number included. 42_decoder.md R196. -/
theorem decodeEos_dec {d : DecState} (h : d.Inv) : (decodeEos d).1 = { frameInit d with seq := 0 } := by
  by_cases hs : d.stage = .sof
  · obtain ⟨n, rfl⟩ := h.exists_seq hs
    rfl
  · simp only [decodeEos, if_neg hs]
    rfl

section
variable {i : Instr} {s t : State} (ht : exec i s = .next t)
include ht

/-- A command other than `RESET` leaves the units of the other opcode groups alone. -/
theorem exec_other_units (hi : i ≠ .reset) :
    (opcodeGroup i.opcode ≠ 2 → t.crcu = s.crcu) ∧ (opcodeGroup i.opcode ≠ 3 → t.stfu = s.stfu) ∧
      (opcodeGroup i.opcode ≠ 4 → t.dec = s.dec) ∧ (opcodeGroup i.opcode ≠ 6 → t.enc = s.enc) := by
  obtain ⟨u, r, hu, hw⟩ := exec_writesOwnUnit i s hi
  obtain rfl : t = u.answer r := Host.Outcome.next.inj (ht.symm.trans hu)
  obtain ⟨hcrc, hstf, hdec, henc⟩ := hw.group_of_changed
  exact ⟨not_imp_comm.mp hcrc, not_imp_comm.mp hstf, not_imp_comm.mp hdec, not_imp_comm.mp henc⟩

theorem exec_crcu_inv (h : s.crcu.Inv) : t.crcu.Inv := by
  cases i with
  | reset => cases ht; exact crcNew_inv rfl
  | crcInit poly =>
    cases hp : badPoly poly with
    | true => simp only [exec, execCrcInit, hp] at ht; cases ht; exact h
    | false => simp only [exec, execCrcInit, hp] at ht; cases ht; exact crcNew_inv hp
  | crcBit b => cases ht; exact h.step b
  | crcField width value =>
    cases hw : badWidth width with
    | true => simp only [exec, execCrcField, hw] at ht; cases ht; exact h
    | false => simp only [exec, execCrcField, hw] at ht; cases ht; exact h.feed _
  | crcFinal => cases ht; exact h.finalize
  | _ => rw [(exec_other_units ht nofun).1 nofun]; exact h

theorem exec_stfu_bounded (h : s.stfu.Bounded) : t.stfu.Bounded := by
  cases i with
  | reset | stfReset => cases ht; exact (by decide : StuffState.fresh.Bounded)
  | stfDestuff b => cases ht; exact stfDestuff_bounded h b
  | stfStuff b => cases ht; exact stfStuff_bounded h b
  | stfEnable b => cases ht; exact h
  | _ => rw [(exec_other_units ht nofun).2.1 nofun]; exact h

theorem exec_enc_len_le (h : s.enc.len.toNat ≤ Config.maxDataBytes) :
    t.enc.len.toNat ≤ Config.maxDataBytes := by
  cases i with
  | reset => cases ht; exact Nat.zero_le _
  | encHdr id rtr len =>
    cases hl : badLen len with
    | true => simp only [exec, execEncHdr, hl] at ht; cases ht; exact h
    | false =>
      simp only [exec, execEncHdr, hl] at ht
      cases ht
      exact Nat.not_lt.mp fun hlt => by rw [(badLen_iff len).mpr hlt] at hl; cases hl
  | encByte | encRun => cases ht; exact h
  | _ => rw [(exec_other_units ht nofun).2.2.2 nofun]; exact h

/-- The decoder after a command: as it was, fresh, or where a symbol leads it. -/
theorem exec_dec (h : s.dec.Inv) :
    t.dec = s.dec ∨ (∃ n, t.dec = { frameInit s.dec with seq := n }) ∨
      ∃ v a p, SymbolLeads s.dec v a p t.dec := by
  cases i with
  | reset => cases ht; exact .inr (.inl ⟨0, rfl⟩)
  | decBit v a line col =>
    cases ht
    exact .inr (.inr ⟨v, a, ⟨line, col⟩, h.decodeSymbol_leads v a ⟨line, col⟩ (openClass s.free)⟩)
  | decEos =>
    cases ht
    exact .inr (.inl ⟨0, decodeEos_dec h⟩)
  | decAbort => cases ht; exact .inr (.inl ⟨s.dec.seq, rfl⟩)
  | _ => exact .inl ((exec_other_units ht nofun).2.2.1 nofun)

end

/-- A step leaves every unit as it was, or runs a command on the state less its word. -/
theorem step_cases {s t : State} (ht : step s = .next t) :
    (t.crcu = s.crcu ∧ t.stfu = s.stfu ∧ t.dec = s.dec ∧ t.enc = s.enc) ∨
    ∃ i rest, exec i { s with cmds := rest } = .next t := by
  cases hw : s.cmds with
  | nil =>
    simp only [step, takeCommand, hw] at ht
    cases ht
    exact .inl ⟨rfl, rfl, rfl, rfl⟩
  | cons w rest =>
    cases hdec : decode w with
    | ok i =>
      simp only [step, takeCommand, hw, hdec] at ht
      exact .inr ⟨i, rest, ht⟩
    | error e =>
      simp only [step, takeCommand, hw, hdec] at ht
      cases ht
      exact .inl ⟨rfl, rfl, rfl, rfl⟩

/-- A command keeps the decoder's invariant. -/
theorem exec_dec_inv {i : Instr} {s t : State} (ht : exec i s = .next t) (h : s.dec.Inv) : t.dec.Inv := by
  rcases exec_dec ht h with e | ⟨n, e⟩ | ⟨v, a, p, hl⟩
  · rw [e]; exact h
  · rw [e]; exact frameInit_inv _ n
  · exact hl.inv h

end Sys2Proof.Machine

namespace Sys2Proof.Proofs

open Sys2Proof.Machine

/-- Settles O58: a step that runs no command leaves the units alone, and each command keeps each unit's
invariant. -/
theorem everyStepKeepsTheInvariant : Obligations.EveryStepKeepsTheInvariant := by
  intro s t h ht
  rcases step_cases ht with ⟨hcrcu, hstfu, hdec, henc⟩ | ⟨i, rest, hi⟩
  · exact ⟨hcrcu ▸ h.crcu, hstfu ▸ h.stfu, hdec ▸ h.dec, henc ▸ h.enc⟩
  · exact ⟨exec_crcu_inv hi h.crcu, exec_stfu_bounded hi h.stfu, exec_dec_inv hi h.dec,
      exec_enc_len_le hi h.enc⟩

end Sys2Proof.Proofs
end

section
/-! PROOFS. O60: every step keeps it that the destuffed bits are what the stuffing engine leaves of the raw slice
(10_state.md R37; 42_decoder.md R174, R185). -/

namespace Sys2Proof.Machine

open Sys2Proof.Claims (IsData received)

/-! ### Destuffing bit by bit (41_stuffing.md R155) -/

/-- One more bit is classed by the engine that the bits before it leave. -/
theorem destuffClasses_snoc (s : StuffState) (xs : List Bit) (b : Bit) :
    destuffClasses s (xs ++ [b]) =
      ((destuffClasses s xs).1 ++ [(stfDestuff (destuffClasses s xs).2 b).1],
        (stfDestuff (destuffClasses s xs).2 b).2) := by
  induction xs generalizing s with
  | nil => rfl
  | cons x xs ih => simp only [List.cons_append, destuffClasses, ih]

theorem destuffClasses_en (s : StuffState) (xs : List Bit) : (destuffClasses s xs).2.en = s.en := by
  induction xs generalizing s with
  | nil => rfl
  | cons x xs ih => rw [destuffClasses, ih, stfDestuff_en]

/-- Destuffing goes on with the engine that the bits before leave, unless one of them was a violation. -/
theorem destuffBits_append (s : StuffState) (xs ys : List Bit) :
    destuffBits s (xs ++ ys) =
      (destuffBits s xs).bind fun bits => (destuffBits (destuffClasses s xs).2 ys).map (bits ++ ·) := by
  induction xs generalizing s with
  | nil => simp [destuffBits, destuffClasses]
  | cons x xs ih =>
    rcases hx : stfDestuff s x with ⟨cls, t⟩
    cases cls with
    | data =>
      simp only [List.cons_append, destuffBits, destuffClasses, hx, ih]
      cases destuffBits t xs <;> simp [Function.comp_def]
    | stuff => simp only [List.cons_append, destuffBits, destuffClasses, hx, ih]
    | violation => simp only [List.cons_append, destuffBits, hx, Option.bind_none]

/-- A stuff bit at the end is dropped. -/
theorem destuffBits_snoc_stuff {s : StuffState} {xs bits : List Bit} {b : Bit}
    (h : destuffBits s xs = some bits) (hc : (stfDestuff (destuffClasses s xs).2 b).1 = .stuff) :
    destuffBits s (xs ++ [b]) = some bits := by
  rcases hb : stfDestuff (destuffClasses s xs).2 b with ⟨cls, t⟩
  obtain rfl : cls = .stuff := by rw [← hc, hb]
  simp [destuffBits_append, h, destuffBits, hb]

/-- A data bit at the end is kept. -/
theorem destuffBits_snoc_data {s : StuffState} {xs bits : List Bit} {b : Bit}
    (h : destuffBits s xs = some bits) (hc : (stfDestuff (destuffClasses s xs).2 b).1 = .data) :
    destuffBits s (xs ++ [b]) = some (bits ++ [b]) := by
  rcases hb : stfDestuff (destuffClasses s xs).2 b with ⟨cls, t⟩
  obtain rfl : cls = .data := by rw [← hc, hb]
  simp [destuffBits_append, h, destuffBits, hb]

/-! ### The cases of a symbol -/

/-- The bits received through the CRC delimiter, SOF not among them. 42_decoder.md R193. -/
theorem length_receivedBits_ackSlot {f : FieldRegs} (h : f.CountsAt .ackSlot) :
    f.receivedBits.length = (if f.ide.isOne then 54 else 34) + 8 * dlcEff f.dlc.v := by
  have hlen : ∀ T ∈ fieldStages,
      (f.bitsOf T).length = if T.code.toNat < Stage.ackSlot.code.toNat then f.full T else 0 := by
    intro T hT
    have hfilled := countsAt_iff.mp h T hT
    rcases Nat.lt_trichotomy T.code.toNat Stage.ackSlot.code.toNat with hlt | heq | hgt
    · rw [if_pos hlt]; exact (filled_of_after hlt).mp hfilled
    · obtain rfl := Stage.code_injective heq
      exact Nat.lt_one_iff.mp (filled_self.mp hfilled)
    · rw [if_neg (by omega)]; exact (filled_of_before hgt).mp hfilled
  rw [receivedBits_eq, List.length_flatMap, List.map_congr_left hlen]
  cases hi : f.ide.isOne <;> simp [fieldStages, FieldRegs.full, Stage.code, hi] <;> omega

theorem frameInit_rawDestuffs (d : DecState) (n : BitVec 32) :
    { frameInit d with seq := n : DecState }.RawDestuffs := fun _ =>
  ⟨[], [], [], rfl, rfl, rfl, rfl, fun _ => rfl, fun e => by cases e⟩

theorem startedFrame_rawDestuffs (d : DecState) (a : Bool) (p : Pos) :
    (startedFrame d a p).RawDestuffs := fun _ =>
  ⟨[dominant], [dominant], [], rfl, by decide, rfl, rfl, fun _ => rfl, fun e => by cases e⟩

section
variable {d : DecState} {v : Bit}

/-- While stuffing is on, the decoder's engine is the one that the whole raw slice leaves, and nothing has been
delivered past it. -/
theorem DecState.RawDestuffs.engine (h : d.RawDestuffs) (hf : d.stage ≠ .hardFail) (hen : d.stf.en = true) :
    destuffSeq (d.raw.map RawSymbol.value) = some d.dst ∧
      d.stf = (destuffClasses .fresh (d.raw.map RawSymbol.value)).2 := by
  obtain ⟨region, bits, tail, hraw, hseq, hdst, hstf, hon, -⟩ := h hf
  obtain rfl := hon hen
  rw [List.append_nil] at hraw hdst
  rw [hraw, hdst]
  refine ⟨hseq, hstf.trans ?_⟩
  rw [hen]
  exact congrArg (fun e => { (destuffClasses .fresh region).2 with en := e })
    (destuffClasses_en .fresh region).symm

/-- A stuff bit lengthens the raw slice only. 42_decoder.md R174. -/
theorem DecState.RawDestuffs.stuff (h : d.RawDestuffs) (hf : d.stage ≠ .hardFail) (hen : d.stf.en = true)
    (hc : (stfDestuff d.stf v).1 = .stuff) (a : Bool) (p : Pos) (g : List Entry) :
    { keepSymbol d v a p with stf := (stfDestuff d.stf v).2, diag := g : DecState }.RawDestuffs := by
  intro _
  obtain ⟨hseq, hstf⟩ := h.engine hf hen
  have hen' : (stfDestuff d.stf v).2.en = true := (stfDestuff_en _ _).trans hen
  refine ⟨d.raw.map RawSymbol.value ++ [v], d.dst, [], by simp,
    destuffBits_snoc_stuff hseq (hstf ▸ hc), by simp, ?_, fun _ => rfl, fun e => ?_⟩
  · rw [destuffClasses_snoc, ← hstf]
  · rw [hen'] at e; cases e

/-- A data symbol lengthens the stuffed region while stuffing is on and the unstuffed tail once it is off.
42_decoder.md R174, R185. -/
theorem DecState.RawDestuffs.advance {a : Bool} {p : Pos} {d' : DecState} (h : d.RawDestuffs)
    (hr : d.Running) (hd : IsData d v) (ha : (received d v a p).Advances v d') : d'.RawDestuffs := by
  intro _
  have hf := (mem_fieldStages.mp hr.stage).2.2
  have hraw : d'.raw.map RawSymbol.value = d.raw.map RawSymbol.value ++ [v] := by
    rw [ha.raw]; exact List.map_append
  have hdst : d'.dst = d.dst ++ [v] := ha.dst
  have hstf : d'.stf = { (stfDestuff d.stf v).2 with en := d'.stf.en } := by
    rw [ha.stf, received_stf]
  cases hen : d.stf.en with
  | true =>
    obtain ⟨hseq, heng⟩ := h.engine hf hen
    have hcls : (stfDestuff (destuffClasses .fresh (d.raw.map RawSymbol.value)).2 v).1 = .data :=
      heng ▸ class_of_isData hd
    refine ⟨d.raw.map RawSymbol.value ++ [v], d.dst ++ [v], [], by rw [hraw, List.append_nil],
      destuffBits_snoc_data hseq hcls, by rw [hdst, List.append_nil], ?_, fun _ => rfl, fun hoff => ⟨?_, ?_⟩⟩
    · rw [destuffClasses_snoc, ← heng]; exact hstf
    · have hen' : d'.stf.en = (d.stf.en && d.stage != .crcDelimiter) := by
        rw [ha.stf, received_stf, stfDestuff_en]; rfl
      have hdel : d.stage = .crcDelimiter := by simpa [hoff, hen] using hen'
      have hr' := hr.advance hd ha
      have hlen := length_receivedBits_ackSlot (ha.to_ackSlot hr.counts hdel ▸ hr'.counts)
      rw [← hdst, hr'.delivered, List.length_cons, hlen]
      split <;> omega
    · rw [destuffClasses_snoc, hcls, List.getLast?_concat]
  | false =>
    obtain ⟨region, bits, tail, hraw0, hseq, hdst0, hstf0, -, hoff⟩ := h hf
    have hpast : ¬ d.stage.code.toNat ≤ Stage.crcDelimiter.code.toNat :=
      of_decide_eq_false (hr.stuffing.symm.trans hen)
    have hide : d'.fields.ide = d.fields.ide := by
      rw [ha.fields]
      exact ide_receive _ _ fun e => hpast (by rw [show d.stage = .ide from e]; decide)
    have hdlc : d'.fields.dlc = d.fields.dlc := by
      rw [ha.fields]
      exact dlc_receive _ _ fun e => hpast (by rw [show d.stage = .dlc from e]; decide)
    have hidle : (stfDestuff d.stf v).2 = d.stf := by simp [stfDestuff, hen]
    refine ⟨region, bits, tail ++ [v], by rw [hraw, hraw0, List.append_assoc], hseq,
      by rw [hdst, hdst0, List.append_assoc], ?_, fun e => ?_, fun _ => ?_⟩
    · rw [hstf, hidle, hstf0]
    · rw [ha.stf, received_stf, hidle, hen] at e; cases e
    · rw [hide, hdlc]; exact hoff hen

end

/-- Every case of a symbol keeps raw and destuffed bits together. -/
theorem SymbolLeads.rawDestuffs {d d' : DecState} {v : Bit} {a : Bool} {p : Pos} (hl : SymbolLeads d v a p d')
    (hi : d.Inv) (h : d.RawDestuffs) : d'.RawDestuffs := by
  cases hl with
  | idle hs => exact h
  | start hs hv => exact startedFrame_rawDestuffs d a p
  | scan hs hn => exact fun hf => absurd hs hf
  | ended n => exact frameInit_rawDestuffs d n
  | stuff hS hen hc g => exact h.stuff (mem_fieldStages.mp hS).2.2 hen hc a p g
  | violation hS => exact fun hf => absurd rfl hf
  | dominantTail hS hcode => exact fun hf => absurd rfl hf
  | advanced hS hd ha => exact h.advance (hi.toRunning hS) hd ha

end Sys2Proof.Machine

namespace Sys2Proof.Proofs

open Sys2Proof.Machine

/-- Settles O60: a step that runs no command or a command outside the decoder leaves the decoder alone, and a
symbol lengthens the stuffed region, the unstuffed tail or neither. -/
theorem everyStepKeepsRawAndDestuffedTogether : Obligations.EveryStepKeepsRawAndDestuffedTogether := by
  intro s t hs h ht
  rcases step_cases ht with ⟨-, -, e, -⟩ | ⟨i, rest, hi⟩
  · rw [e]; exact h
  · rcases exec_dec hi hs.dec with e | ⟨n, e⟩ | ⟨v, a, p, hl⟩
    · rw [e]; exact h
    · rw [e]; exact frameInit_rawDestuffs _ n
    · exact hl.rawDestuffs hs.dec h

end Sys2Proof.Proofs
end

section
/-! PROOFS. O10: a run of as many steps as there are words pending empties the port (20_memory.md R69,
60_exceptions.md R268). -/

namespace Sys2Proof.Machine

/-- A run whose first step goes on is that step and the run of the others. -/
theorem run_succ_of_step {s s' : State} (h : step s = .next s') (k : Nat) :
    core.run (k + 1) s = core.run k s' := by
  have hcore : core.step s = .next s' := h
  simp only [Host.Core.run, hcore]

/-- A run over the words pending takes them all and appends one response for each. -/
theorem run_takes_all (ws : List Command) (s : State) (hs : s.cmds = ws) :
    ∃ (t : State) (answers : List Response), core.run ws.length s = .next t ∧ t.cmds = [] ∧
      t.responses = s.responses ++ answers ∧ answers.length = ws.length := by
  induction ws generalizing s with
  | nil => exact ⟨s, [], rfl, hs, (List.append_nil _).symm, rfl⟩
  | cons w rest ih =>
    obtain ⟨u, r, hstep, hcmds, hresp⟩ := step_answers s w rest hs
    obtain ⟨t, answers, hrun, hempty, hall, hlen⟩ := ih (u.answer r) hcmds
    refine ⟨t, r :: answers, (run_succ_of_step hstep rest.length).trans hrun, hempty, ?_,
      congrArg (· + 1) hlen⟩
    rw [hall, answer_responses, hresp, List.append_assoc, List.singleton_append]

end Sys2Proof.Machine

namespace Sys2Proof.Proofs

open Sys2Proof.Machine

/-- Settles O10, by induction on the words pending: each step takes the oldest and answers it. -/
theorem pendingCommandsAllComplete : Obligations.PendingCommandsAllComplete :=
  fun s => run_takes_all s.cmds s rfl

end Sys2Proof.Proofs
end

section
/-! PROOFS. O1 and O2: encoding and decoding are inverse to each other (30_encoding.md R95 to R102). -/

namespace Sys2Proof

/-- Every command's word has its opcode byte and no reserved bit. 30_encoding.md R95 to R102. -/
theorem encodedForm (i : Instr) : Laws.EncodedForm.Statement i := by
  cases i with
  | nop => exact Laws.EncodedForm.nop
  | reset => exact Laws.EncodedForm.reset
  | status => exact Laws.EncodedForm.status
  | crcInit poly => exact Laws.EncodedForm.crcInit poly
  | crcBit b => exact Laws.EncodedForm.crcBit b
  | crcField width value => exact Laws.EncodedForm.crcField width value
  | crcFinal => exact Laws.EncodedForm.crcFinal
  | stfReset => exact Laws.EncodedForm.stfReset
  | stfDestuff b => exact Laws.EncodedForm.stfDestuff b
  | stfStuff b => exact Laws.EncodedForm.stfStuff b
  | stfEnable b => exact Laws.EncodedForm.stfEnable b
  | decBit value annot line col => exact Laws.EncodedForm.decBit value annot line col
  | decEos => exact Laws.EncodedForm.decEos
  | decAbort => exact Laws.EncodedForm.decAbort
  | encHdr id rtr len => exact Laws.EncodedForm.encHdr id rtr len
  | encByte index byte => exact Laws.EncodedForm.encByte index byte
  | encRun => exact Laws.EncodedForm.encRun

/-! ### Operands of an encoded word -/

/-- A field below the opcode byte is read from the operand bits. -/
theorem cmdField_encode (i : Instr) {lo n : Nat} (h : lo + n ≤ 56) :
    cmdField (encode i) lo n = i.operandBits.extractLsb' lo n :=
  BitVec.extractLsb'_append_eq_of_add_le h

/-- The low bit of a one-bit operand behind what stands above it. -/
theorem getLsbD_append_ofBool {n : Nat} (x : BitVec n) (b : Bit) : (x ++ BitVec.ofBool b).getLsbD 0 = b := by
  rw [BitVec.getLsbD_append, if_pos Nat.one_pos]
  simp

/-- Every operand is extracted from the word it was written to: the fields below it are skipped, and those above
it are cut off. 30_encoding.md R97 to R101. -/
theorem operands_encode (i : Instr) : i.opcode.operands (encode i) = i := by
  cases i <;>
    simp only [Instr.opcode, Opcode.operands, cmdField_encode, getLsbD_encode, Instr.operandBits,
      Nat.reduceAdd, Nat.reduceLT, Nat.reduceLeDiff, Instr.decBit.injEq, Instr.encHdr.injEq]
  case crcBit | stfDestuff | stfStuff | stfEnable => rw [getLsbD_append_ofBool]
  case crcInit => rw [BitVec.extractLsb'_append_eq_right]
  case crcField | encByte =>
    rw [BitVec.extractLsb'_append_eq_of_le (by decide), BitVec.extractLsb'_append_eq_right,
      BitVec.extractLsb'_append_eq_right]
  case decBit value annot line col =>
    refine ⟨?value, ?annot, ?line, ?col⟩
    case value => rw [getLsbD_append_ofBool]
    case annot => rw [BitVec.getLsbD_append, if_neg (by decide), getLsbD_append_ofBool]
    case line =>
      iterate 3 rw [BitVec.extractLsb'_append_eq_of_le (by decide)]
      rw [BitVec.extractLsb'_append_eq_left]
    case col =>
      iterate 3 rw [BitVec.extractLsb'_append_eq_of_le (by decide)]
      rw [BitVec.extractLsb'_append_eq_right]
  case encHdr id rtr len =>
    refine ⟨?id, ?rtr, ?len⟩
    case id => rw [BitVec.extractLsb'_append_eq_right]
    case rtr =>
      iterate 2 rw [BitVec.getLsbD_append, if_neg (by decide)]
      rw [getLsbD_append_ofBool]
    case len =>
      iterate 4 rw [BitVec.extractLsb'_append_eq_of_le (by decide)]
      rw [BitVec.extractLsb'_append_eq_right]

/-- The opcode map finds the opcode, no reserved bit stops the word, and the operands come back. -/
theorem decode_encode (i : Instr) : decode (encode i) = .ok i := by
  obtain ⟨hop, hres⟩ := encodedForm i
  simp only [decode, hop, ofCode_code, hres, if_true, operands_encode]

/-! ### Words that decode -/

/-- What a word that decodes holds: its command's opcode byte, no reserved bit, and the operands. -/
theorem decode_ok {w : Command} {i : Instr} (h : decode w = .ok i) :
    cmdField w 56 8 = i.opcode.code ∧ w &&& i.opcode.format.reserved = 0 ∧ i.opcode.operands w = i := by
  unfold decode at h
  split at h
  · cases h
  next op hop =>
    split at h
    next hres =>
      cases h
      have e : (op.operands w).opcode = op := by cases op <;> rfl
      rw [e]
      exact ⟨(code_of_ofCode hop).symm, hres, rfl⟩
    · cases h

/-- Words with the same field have the same bits there. -/
theorem getLsbD_eq_of_cmdField {w u : Command} {lo n k : Nat} (h : cmdField w lo n = cmdField u lo n)
    (hlo : lo ≤ k) (hk : k < lo + n) : w.getLsbD k = u.getLsbD k := by
  have hb := congrArg (·.getLsbD (k - lo)) h
  simpa [cmdField, BitVec.getLsbD_extractLsb', show k - lo < n by omega, Nat.add_sub_cancel' hlo] using hb

/-- The operands of a command take every operand bit that its format does not reserve.
30_encoding.md R97 to R101. -/
theorem getLsbD_eq_of_operands {op : Opcode} {w u : Command} (h : op.operands w = op.operands u) {k : Nat}
    (hk : k < 56) (hr : op.format.reserved.getLsbD k = false) : w.getLsbD k = u.getLsbD k := by
  cases op <;>
    simp only [Opcode.format, Format.reserved, BitVec.getLsbD_or, getLsbD_bitRange, Nat.reduceLT,
      Bool.and_eq_false_iff, Bool.or_eq_false_iff, decide_eq_false_iff_not] at hr
  case nop | reset | status | crcFinal | stfReset | decEos | decAbort | encRun => omega
  case crcBit | stfDestuff | stfStuff | stfEnable =>
    obtain rfl : k = 0 := by omega
    simpa [Opcode.operands] using h
  case crcInit => exact getLsbD_eq_of_cmdField (Instr.crcInit.inj h) (Nat.zero_le k) (by omega)
  case crcField =>
    obtain ⟨hwidth, hvalue⟩ := Instr.crcField.inj h
    rcases Nat.lt_or_ge k 32 with hlt | hge
    · exact getLsbD_eq_of_cmdField hvalue (Nat.zero_le k) (by omega)
    · exact getLsbD_eq_of_cmdField hwidth hge (by omega)
  case decBit =>
    obtain ⟨hvalue, hannot, hline, hcol⟩ := Instr.decBit.inj h
    obtain rfl | rfl | ⟨hge, hlt⟩ | hge : k = 0 ∨ k = 1 ∨ (8 ≤ k ∧ k < 32) ∨ 32 ≤ k := by omega
    · exact hvalue
    · exact hannot
    · exact getLsbD_eq_of_cmdField hcol hge hlt
    · exact getLsbD_eq_of_cmdField hline hge hk
  case encHdr =>
    obtain ⟨hid, hrtr, hlen⟩ := Instr.encHdr.inj h
    obtain hlt | rfl | ⟨hge, hlt⟩ : k < 29 ∨ k = 32 ∨ (40 ≤ k ∧ k < 44) := by omega
    · exact getLsbD_eq_of_cmdField hid (Nat.zero_le k) (by omega)
    · exact hrtr
    · exact getLsbD_eq_of_cmdField hlen hge hlt
  case encByte =>
    obtain ⟨hindex, hbyte⟩ := Instr.encByte.inj h
    rcases Nat.lt_or_ge k 8 with hlt | hge
    · exact getLsbD_eq_of_cmdField hbyte (Nat.zero_le k) (by omega)
    · exact getLsbD_eq_of_cmdField hindex hge (by omega)

/-- Two words that decode to the same command are the same word: opcode byte, reserved bits and operands are all
its bits. 30_encoding.md R95 to R102. -/
theorem decode_injective {w u : Command} {i : Instr} (hw : decode w = .ok i) (hu : decode u = .ok i) : w = u := by
  obtain ⟨hopw, hresw, hargw⟩ := decode_ok hw
  obtain ⟨hopu, hresu, hargu⟩ := decode_ok hu
  refine BitVec.eq_of_getLsbD_eq fun k hk => ?_
  by_cases h56 : k < 56
  · cases hr : i.opcode.format.reserved.getLsbD k with
    | false => exact getLsbD_eq_of_operands (hargw.trans hargu.symm) h56 hr
    | true =>
      have clear {x : Command} (hx : x &&& i.opcode.format.reserved = 0) : x.getLsbD k = false := by
        have hb := congrArg (·.getLsbD k) hx
        simpa [BitVec.getLsbD_and, hr] using hb
      rw [clear hresw, clear hresu]
  · exact getLsbD_eq_of_cmdField (hopw.trans hopu.symm) (by omega) (by omega)

end Sys2Proof

namespace Sys2Proof.Proofs

/-- Settles O1: the word of a command has its opcode byte, no reserved bit, and its operands in their fields. -/
theorem decodeInvertsEncode : Obligations.DecodeInvertsEncode := decode_encode

/-- Settles O2: the word decoded and the encoding of its command decode alike, and no two words do. -/
theorem encodeInvertsDecode : Obligations.EncodeInvertsDecode :=
  fun _ i h => decode_injective (decode_encode i) h

end Sys2Proof.Proofs
end

section
/-! PROOFS. O59: every step keeps it that the frame CRC covers the destuffed bits from SOF through the last data
bit (30_encoding.md R82; 42_decoder.md R176, R182). -/

namespace Sys2Proof.Machine

open Sys2Proof.Claims (IsData received)

/-- In a stage the registers hold the full fields of the earlier stages and what its own has received.
42_decoder.md R193. -/
theorem length_receivedBits {S : Stage} {f : FieldRegs} (h : f.CountsAt S) :
    f.receivedBits.length =
      (fieldStages.map fun T =>
        if T.code.toNat < S.code.toNat then f.full T else if T = S then (f.bitsOf S).length else 0).sum := by
  rw [receivedBits_eq, List.length_flatMap]
  refine congrArg List.sum (List.map_congr_left fun T hT => ?_)
  have hfilled := countsAt_iff.mp h T hT
  rcases Nat.lt_trichotomy T.code.toNat S.code.toNat with hlt | heq | hgt
  · rw [if_pos hlt, (filled_of_after hlt).mp hfilled]
  · obtain rfl := Stage.code_injective heq
    rw [if_neg (Nat.lt_irrefl _), if_pos rfl]
  · have hne : T ≠ S := by rintro rfl; omega
    rw [if_neg (by omega), if_neg hne, (filled_of_before hgt).mp hfilled]

/-- The bits received before the first CRC bit, SOF not among them. 30_encoding.md R78, R79, R82. -/
theorem length_receivedBits_firstCrcBit {f : FieldRegs} (h : f.CountsAt .crc) (h0 : f.crcRx.n = 0) :
    f.receivedBits.length = (if f.ide.isOne then 38 else 18) + 8 * dlcEff f.dlc.v := by
  rw [length_receivedBits h]
  cases hi : f.ide.isOne <;>
    simp [fieldStages, FieldRegs.full, FieldRegs.bitsOf, length_bitsMsb, Stage.code, hi, h0] <;> omega

theorem crcFeed_snoc (s : CrcState) (xs : List Bit) (b : Bit) : crcFeed s (xs ++ [b]) = crcStep (crcFeed s xs) b :=
  crcFeed_append s xs [b]

/-- The covered stages are those before the CRC. 42_decoder.md R176. -/
theorem crcCovered_iff {S : Stage} : S.crcCovered = true ↔ S.code.toNat < Stage.crc.code.toNat := by
  cases S <;> decide

theorem received_crc (d : DecState) (v : Bit) (a : Bool) (p : Pos) :
    (received d v a p).crc = if d.stage.crcCovered then crcStep d.crc v else d.crc := by
  simp only [crcCovered_iff]
  exact if_congr Nat.lt_succ_iff.symm rfl rfl

theorem frameInit_crcCovers (d : DecState) (n : BitVec 32) : { frameInit d with seq := n : DecState }.CrcCovers :=
  ⟨fun _ => rfl, fun e => by simp at e, fun e => absurd rfl e⟩

theorem startedFrame_crcCovers (d : DecState) (a : Bool) (p : Pos) : (startedFrame d a p).CrcCovers :=
  ⟨fun _ => rfl, fun e => by simp [startedFrame] at e, fun e => absurd rfl e⟩

section
variable {d d' : DecState} {v : Bit}

/-- Once it is cached, the computed CRC stays that of the covered bits as further bits are delivered. -/
theorem DecState.CrcCovers.cached_append (h : d.CrcCovers) (hn : d.fields.crcRx.n ≠ 0)
    (hide : d'.fields.ide = d.fields.ide) (hdlc : d'.fields.dlc = d.fields.dlc) (hcalc : d'.crcCalc = d.crcCalc)
    {more : List Bit} (hdst : d'.dst = d.dst ++ more) :
    ∃ covered rest, d'.dst = covered ++ rest ∧
      covered.length = (if d'.fields.ide.isOne then 39 else 19) + 8 * dlcEff d'.fields.dlc.v ∧
      d'.crcCalc = ((crcFinalize (crcFeed .fresh covered)).value.setWidth 15) := by
  obtain ⟨covered, rest, hsplit, hlen, hcached⟩ := h.2.2 hn
  exact ⟨covered, rest ++ more, by rw [hdst, hsplit, List.append_assoc], by rw [hide, hdlc, hlen],
    hcalc.trans hcached⟩

/-- In `HARD_FAIL` no bit is fed and only the cached CRC is spoken of. -/
theorem DecState.CrcCovers.fail (h : d.CrcCovers) (hf : d'.stage = .hardFail) (hfields : d'.fields = d.fields)
    (hcalc : d'.crcCalc = d.crcCalc) {more : List Bit} (hdst : d'.dst = d.dst ++ more) : d'.CrcCovers :=
  ⟨fun e => by simp [hf, Stage.crcCovered] at e, fun e => by simp [hf] at e,
    fun hn => h.cached_append (by rwa [← hfields]) (by rw [hfields]) (by rw [hfields]) hcalc hdst⟩

/-- A bit delivered in a covered stage is fed, and no CRC bit has been received. 42_decoder.md R176. -/
theorem DecState.CrcCovers.advance_covered {a : Bool} {p : Pos} (h : d.CrcCovers) (hr : d.Running)
    (hcov : d.stage.crcCovered = true) (ha : (received d v a p).Advances v d') : d'.CrcCovers := by
  have hlt : d.stage.code.toNat < Stage.crc.code.toNat := crcCovered_iff.mp hcov
  have hcrc : d.stage ≠ .crc := by intro e; rw [e] at hlt; omega
  have hrx : d'.fields.crcRx.n = 0 := by
    have hkept : d'.fields.crcRx = d.fields.crcRx := by rw [ha.fields]; exact crcRx_receive _ _ hcrc
    rw [hkept]
    exact BitVec.eq_of_toNat_eq ((filled_of_before hlt).mp hr.counts.crcRx)
  have hfed : d'.crc = crcFeed .fresh d'.dst := by
    rw [ha.crc, if_neg fun e => hcrc e.1, received_crc, if_pos hcov, h.1 hcov, ha.dst]
    exact (crcFeed_snoc _ _ _).symm
  exact ⟨fun _ => hfed, fun _ _ => hfed, fun hn => absurd hrx hn⟩

/-- Past the covered stages a CRC bit has been received, or the next bit is the first. -/
theorem DecState.Running.crcRx_ne_zero (hr : d.Running) (hcov : d.stage.crcCovered ≠ true)
    (hfirst : ¬ d.AtFirstCrcBit) : d.fields.crcRx.n ≠ 0 := by
  by_cases hcrc : d.stage = .crc
  · exact fun h0 => hfirst ⟨hcrc, h0⟩
  · have hne : d.stage.code.toNat ≠ Stage.crc.code.toNat := fun e => hcrc (Stage.code_injective e)
    have hlt : Stage.crc.code.toNat < d.stage.code.toNat := by
      have hge := mt crcCovered_iff.mpr hcov
      omega
    intro h0
    have hfull := (filled_of_after hlt).mp hr.counts.crcRx
    simp [h0] at hfull

/-- The CRC that the first CRC bit caches is that of the bits delivered before it. 42_decoder.md R182. -/
theorem DecState.CrcCovers.cached_first {a : Bool} {p : Pos} (h : d.CrcCovers) (hr : d.Running)
    (hfirst : d.AtFirstCrcBit) (ha : (received d v a p).Advances v d') :
    d'.crcCalc = ((crcFinalize (crcFeed .fresh d.dst)).value.setWidth 15) ∧
      d.dst.length = (if d.fields.ide.isOne then 39 else 19) + 8 * dlcEff d.fields.dlc.v := by
  obtain ⟨hcrc, h0⟩ := hfirst
  refine ⟨?_, ?_⟩
  · rw [ha.crcCalc, if_pos ⟨hcrc, h0⟩, received_crc, hcrc, ← h.2.1 hcrc h0]
    rfl
  · rw [hr.delivered, List.length_cons, length_receivedBits_firstCrcBit (hcrc ▸ hr.counts) h0]
    split <;> omega

/-- A data symbol keeps the coverage: in a covered stage it is fed, and afterwards it leaves the covered bits
alone, the first CRC bit caching their CRC. -/
theorem DecState.CrcCovers.advance {a : Bool} {p : Pos} (h : d.CrcCovers) (hr : d.Running)
    (ha : (received d v a p).Advances v d') : d'.CrcCovers := by
  by_cases hcov : d.stage.crcCovered = true
  · exact h.advance_covered hr hcov ha
  have hpast : Stage.crc.code.toNat ≤ d.stage.code.toNat := Nat.le_of_not_lt (mt crcCovered_iff.mpr hcov)
  have hlater : d.stage.code.toNat ≤ d'.stage.code.toNat := by
    obtain ⟨-, -, e | ⟨hlt, -⟩⟩ := ha.stage_cases hr.stage hr.counts
    · exact Nat.le_of_eq (congrArg (·.code.toNat) e.symm)
    · exact Nat.le_of_lt hlt
  have hide : d'.fields.ide = d.fields.ide := by
    rw [ha.fields]
    exact ide_receive _ _ fun e => absurd hpast (by rw [show d.stage = .ide from e]; decide)
  have hdlc : d'.fields.dlc = d.fields.dlc := by
    rw [ha.fields]
    exact dlc_receive _ _ fun e => absurd hpast (by rw [show d.stage = .dlc from e]; decide)
  have hvalid : d'.crcCalcValid = true := by
    rw [ha.crcCalcValid]
    split
    · rfl
    next hfirst => exact hr.sound.cached.trans (decide_eq_true (hr.crcRx_ne_zero hcov hfirst))
  have hrx : d'.fields.crcRx.n ≠ 0 :=
    of_decide_eq_true ((ha.cached hr.counts hr.sound.cached).symm.trans hvalid)
  refine ⟨fun e => absurd (crcCovered_iff.mp e) (by omega), fun _ h0 => absurd h0 hrx, fun _ => ?_⟩
  by_cases hfirst : d.AtFirstCrcBit
  · obtain ⟨hcalc, hlen⟩ := h.cached_first hr hfirst ha
    exact ⟨d.dst, [v], ha.dst, by rw [hide, hdlc, hlen], hcalc⟩
  · exact h.cached_append (hr.crcRx_ne_zero hcov hfirst) hide hdlc (ha.crcCalc.trans (if_neg hfirst)) ha.dst

end

/-- Every case of a symbol keeps the coverage. -/
theorem SymbolLeads.crcCovers {d d' : DecState} {v : Bit} {a : Bool} {p : Pos} (hl : SymbolLeads d v a p d')
    (hi : d.Inv) (h : d.CrcCovers) : d'.CrcCovers := by
  cases hl with
  | idle hs => exact h
  | start hs hv => exact startedFrame_crcCovers d a p
  | scan hs hn => exact h
  | ended n => exact frameInit_crcCovers d n
  | stuff hS hen hc g => exact h
  | violation hS => exact h.fail rfl rfl rfl (List.append_nil _).symm
  | dominantTail hS hcode => exact h.fail rfl rfl rfl rfl
  | advanced hS hd ha => exact h.advance (hi.toRunning hS) ha

end Sys2Proof.Machine

namespace Sys2Proof.Proofs

open Sys2Proof.Machine

/-- Settles O59: a step that runs no command or a command outside the decoder leaves the decoder alone, and a
symbol in a covered stage is fed, any other not. -/
theorem everyStepKeepsTheCrcCoverage : Obligations.EveryStepKeepsTheCrcCoverage := by
  intro s t hs h ht
  rcases step_cases ht with ⟨-, -, e, -⟩ | ⟨i, rest, hi⟩
  · rw [e]; exact h
  · rcases exec_dec hi hs.dec with e | ⟨n, e⟩ | ⟨v, a, p, hl⟩
    · rw [e]; exact h
    · rw [e]; exact frameInit_crcCovers _ n
    · exact hl.crcCovers hs.dec h

end Sys2Proof.Proofs
end

section
/-! PROOFS. O53 and O54: the text at the block's boundary, character by character (30_encoding.md R86 to R93,
R111). -/

namespace Sys2Proof.Machine

open Sys2Proof.Claims

/-! ### Annotated text (30_encoding.md R93) -/

/-- A bit's character is read back as the bit and its annotation. 30_encoding.md R86, R93. -/
theorem bitChar_charxy (b : StuffBit) : bitChar b.charxy = some (b.bit, b.isStuff) := by
  obtain ⟨bit, isStuff⟩ := b
  cases bit <;> cases isStuff <;> rfl

/-- Annotated text is read back from any column on. 30_encoding.md R111. -/
theorem decBitsFrom_charxy (bits : List StuffBit) (col : Nat) :
    decBitsFrom col (bits.map StuffBit.charxy) =
      bits.mapIdx fun k b => .decBit b.bit b.isStuff 1 (BitVec.ofNat 24 (k + col)) := by
  induction bits generalizing col with
  | nil => rfl
  | cons b bits ih =>
    simp only [List.map_cons, decBitsFrom, bitChar_charxy, ih, List.mapIdx_cons, symbolCommand, Nat.zero_add]
    congr 3
    funext k c
    rw [Nat.add_right_comm, Nat.add_assoc]

/-! ### The Bit Source (30_encoding.md R86 to R92) -/

/-- The bit characters are those of the table. 30_encoding.md R86. -/
theorem lookup_charSymbols (c : Char) : charSymbols.lookup c = bitChar c := by
  unfold bitChar
  split
  case h_7 => simp_all [List.lookup_eq_none_iff, charSymbols]
  all_goals rfl

/-- The `DEC_BIT` of a character at a line and column, if it is a bit character. 30_encoding.md R91. -/
def commandAt (s : Nat × Nat × Option Char) (c : Char) : Option Instr :=
  (bitChar c).map fun v => symbolCommand v s.1 s.2.1

/-- The `DEC_BIT`s of a text's characters, the first of them read in `s`. -/
def commandsFrom (s : Nat × Nat × Option Char) (text : List Char) : List Instr :=
  (List.range text.length).filterMap fun i => text[i]?.bind (commandAt ((text.take i).foldl advance s))

theorem commandsFrom_reset (text : List Char) :
    (List.range text.length).filterMap (charCommand text) = commandsFrom (1, 1, none) text := by
  refine congrArg (List.filterMap · _) (funext fun i => ?_)
  simp only [charCommand, lookup_charSymbols, Option.map_bind]
  rfl

@[simp] theorem commandsFrom_nil (s : Nat × Nat × Option Char) : commandsFrom s [] = [] := rfl

/-- Each character is read where those before it have led. -/
theorem commandsFrom_cons (s : Nat × Nat × Option Char) (c : Char) (text : List Char) :
    commandsFrom s (c :: text) = (commandAt s c).toList ++ commandsFrom (advance s c) text := by
  simp only [commandsFrom, List.length_cons, List.range_succ_eq_map, List.filterMap_cons, List.filterMap_map]
  cases h : commandAt s c <;> simp [h, Function.comp_def]

theorem isNewline_iff {c : Char} : isNewline c = true ↔ c = '\r' ∨ c = '\n' := by simp [isNewline]

/-- A newline is no bit character. 30_encoding.md R87. -/
theorem commandAt_newline {c : Char} (h : isNewline c = true) (s : Nat × Nat × Option Char) :
    commandAt s c = none := by
  rcases isNewline_iff.mp h with rfl | rfl <;> rfl

/-- Bit characters and skipped characters take a column, other characters none. 30_encoding.md R88 to R90. -/
theorem advance_symbol {c : Char} (h : isNewline c = false) (s : Nat × Nat × Option Char) :
    advance s c = (s.1, if (bitChar c).isSome || isSkipped c then s.2.1 + 1 else s.2.1, none) := by
  have hmem : (c ∈ charSymbols.map Prod.fst ++ [' ', '\t', Char.ofNat 0x0B, Char.ofNat 0x0C]) ↔
      ((bitChar c).isSome || isSkipped c) = true := by
    have hbit : c ∈ charSymbols.map Prod.fst ↔ (bitChar c).isSome = true := by
      rw [← lookup_charSymbols, List.lookup_isSome_iff]
      simp
    rw [List.mem_append, hbit, Bool.or_eq_true]
    simp [isSkipped, or_assoc]
  rw [advance, if_neg (mt isNewline_iff.mpr (by simp [h]))]
  simp only [hmem]
  split <;> rfl

/-- A newline after an unpaired other newline belongs to it, and any other newline starts a line.
30_encoding.md R87. -/
theorem advance_newline {c : Char} (h : isNewline c = true) (s : Nat × Nat × Option Char) :
    advance s c = if s.2.2 ≠ none ∧ s.2.2 ≠ some c then (s.1, s.2.1, none) else (s.1 + 1, 1, some c) :=
  if_pos (isNewline_iff.mp h)

section
variable {c c' : Char} (line col : Nat) (text : List Char)

/-- A newline with none unpaired before it starts a line. 30_encoding.md R87. -/
theorem commandsFrom_newline (hc : isNewline c = true) :
    commandsFrom (line, col, none) (c :: text) = commandsFrom (line + 1, 1, some c) text := by
  rw [commandsFrom_cons, commandAt_newline hc, advance_newline hc, if_neg (by simp)]
  rfl

/-- The other newline right after it is part of it. 30_encoding.md R87. -/
theorem commandsFrom_paired (hc : (isNewline c' && c' != c) = true) :
    commandsFrom (line, col, some c) (c' :: text) = commandsFrom (line, col, none) text := by
  obtain ⟨hn, hne⟩ := Bool.and_eq_true_iff.mp hc
  rw [commandsFrom_cons, commandAt_newline hn, advance_newline hn,
    if_pos ⟨by simp, by simpa using Ne.symm (bne_iff_ne.mp hne)⟩]
  rfl

/-- Anything else right after it is read as if the newline were complete. -/
theorem commandsFrom_unpaired (hc : ¬ (isNewline c' && c' != c) = true) :
    commandsFrom (line, col, some c) (c' :: text) = commandsFrom (line, col, none) (c' :: text) := by
  rw [commandsFrom_cons, commandsFrom_cons]
  cases hn : isNewline c' with
  | false => simp only [advance_symbol hn]; rfl
  | true =>
    obtain rfl : c' = c := by simpa [hn] using hc
    rw [advance_newline hn, advance_newline hn, if_neg (by simp), if_neg (by simp)]
    rfl

/-- Any other character issues its symbol, if it is a bit character, and moves the column. -/
theorem commandsFrom_other (hc : ¬ isNewline c = true) :
    commandsFrom (line, col, none) (c :: text) =
      (commandAt (line, col, none) c).toList ++
        commandsFrom (line, if (bitChar c).isSome || isSkipped c then col + 1 else col, none) text := by
  rw [commandsFrom_cons, advance_symbol (Bool.eq_false_iff.mpr hc)]

end

/-- The Bit Source issues the text's `DEC_BIT`s, each character read where those before it have led, and then the
`DEC_EOS`. 30_encoding.md R87 to R92. -/
theorem bitSourceFrom_eq (line col : Nat) (text : List Char) :
    bitSourceFrom line col text = commandsFrom (line, col, none) text ++ [.decEos] := by
  fun_induction bitSourceFrom line col text with
  | case1 => rfl
  | case2 line col c hc => rw [commandsFrom_newline _ _ _ hc]; rfl
  | case3 line col c hc s hs => simp [commandsFrom_other _ _ _ hc, commandAt, hs]
  | case4 line col c hc hs => simp [commandsFrom_other _ _ _ hc, commandAt, hs]
  | case5 line col c c' rest hc hpair ih =>
    rw [ih, commandsFrom_newline _ _ _ hc, commandsFrom_paired _ _ _ hpair]
  | case6 line col c c' rest hc hpair ih =>
    rw [ih, commandsFrom_newline _ _ _ hc, commandsFrom_unpaired _ _ _ hpair]
  | case7 line col c c' rest hc s hs ih => simp [ih, commandsFrom_other _ _ _ hc, commandAt, hs]
  | case8 line col c c' rest hc hs ih => simp [ih, commandsFrom_other _ _ _ hc, commandAt, hs]

end Sys2Proof.Machine

namespace Sys2Proof.Proofs

open Sys2Proof.Machine

/-- Settles O53: each character is the bit's own, at its column. -/
theorem annotatedTextReadsBack : Obligations.AnnotatedTextReadsBack := fun bits => decBitsFrom_charxy bits 1

/-- Settles O54: the scan that reads ahead for a paired newline and the position fold that looks back for one agree
at every character. -/
theorem bitSourceEndsEveryStream : Obligations.BitSourceEndsEveryStream := by
  intro text
  rw [commandsFrom_reset]
  exact bitSourceFrom_eq 1 1 text

end Sys2Proof.Proofs
end

section
/-! PROOFS. O47: annotations and positions never affect the parsing (30_encoding.md R85, 44_roundtrip.md R249). Each
operation of the decoder keeps it that two decoders differ at most in them. -/

namespace Sys2Proof.Machine

open Sys2Proof.Claims (SameParse SameRecord entryShape resyncShape IsData)

/-! ### The end of a frame -/

/-- The class of an entry is that of its shape. -/
theorem hasClass_eq (k : EntryClass) : Entry.hasClass k = (fun s => decide (s.1.cls = k)) ∘ entryShape := rfl

section
variable {viol viol' : List Entry} (h : viol.map entryShape = viol'.map entryShape)
include h

theorem any_hasClass_congr (k : EntryClass) : viol.any (Entry.hasClass k) = viol'.any (Entry.hasClass k) := by
  rw [hasClass_eq, ← List.any_map, ← List.any_map, h]

theorem find_hasClass_congr (k : EntryClass) :
    (viol.find? (Entry.hasClass k)).map entryShape = (viol'.find? (Entry.hasClass k)).map entryShape := by
  rw [hasClass_eq, ← List.find?_map, ← List.find?_map, h]

theorem outcomeOf_congr : outcomeOf viol = outcomeOf viol' := by
  have hnil : viol = [] ↔ viol' = [] := by
    rw [← List.map_eq_nil_iff (f := entryShape), h, List.map_eq_nil_iff]
  simp only [outcomeOf, any_hasClass_congr h, ne_eq, hnil]

theorem primaryOf_congr (o : FrameOutcome) :
    (primaryOf viol o).map entryShape = (primaryOf viol' o).map entryShape := by
  cases o with
  | success => rfl
  | softFailure => rw [primaryOf, primaryOf, ← List.head?_map, ← List.head?_map, h]
  | fatalFailure => exact find_hasClass_congr h .fatal
  | internalError => exact find_hasClass_congr h .internal

end

/-- The verifier compares values alone. 44_roundtrip.md R249. -/
theorem verify_congr (msg : Message) {raw raw' : List RawSymbol}
    (h : raw.map RawSymbol.value = raw'.map RawSymbol.value) : verify msg raw = verify msg raw' := by
  simp only [verify, h]

section
variable {d e : DecState} (h : SameParse d e)
include h

theorem frameVerdict_congr :
    (frameVerdict d).1.map entryShape = (frameVerdict e).1.map entryShape ∧
      (frameVerdict d).2 = (frameVerdict e).2 := by
  simp only [frameVerdict, outcomeOf_congr h.viol, h.fields, verify_congr _ h.raw]
  split
  · split
    · exact ⟨h.viol, rfl⟩
    · exact ⟨by simp [h.viol, entryShape], rfl⟩
  all_goals exact ⟨h.viol, rfl⟩

theorem frameRecord_congr : SameRecord (frameRecord d) (frameRecord e) := by
  obtain ⟨hviol, hrest⟩ := frameVerdict_congr h
  exact
    { seq := by simp only [frameRecord, h.seq]
      start := h.start
      resync := h.resync
      crcCalc := h.crcCalc
      crcCalcValid := h.crcCalcValid
      raw := h.raw
      dst := h.dst
      fields := h.fields
      message := congrArg FieldRegs.message h.fields
      outcome := by simp only [frameRecord, hrest]
      primary := by simp only [frameRecord, hrest, primaryOf_congr hviol]
      violations := hviol
      presentation := by simp only [frameRecord, hrest] }

/-! ### The named operations -/

theorem violate_congr (c : EntryCode) (S : Stage) (p q : Option Pos) :
    SameParse (violate d c S p) (violate e c S q) :=
  { h with viol := by simp [h.viol, entryShape] }

theorem failFrame_congr (c : EntryCode) (S : Stage) (p q : Pos) :
    SameParse (failFrame d c S p) (failFrame e c S q) :=
  { violate_congr h c S (some p) (some q) with
    stage := rfl
    recRun := rfl
    stf := by rw [failFrame_stf, failFrame_stf, h.stf] }

theorem keepSymbol_congr (v a b : Bool) (p q : Pos) : SameParse (keepSymbol d v a p) (keepSymbol e v b q) :=
  { h with raw := by simp [h.raw], last := rfl }

theorem recordBit_congr (v : Bit) : SameParse (recordBit d v) (recordBit e v) :=
  { h with dst := by simp [h.dst], crc := by simp [h.crc, h.stage] }

end

/-! ### The stages -/

/-- The delimiter check and the CRC comparison, in their order. 42_decoder.md R183 to R185. -/
theorem stageCrcDelimiter_eq (d : DecState) (v : Bit) (p : Pos) :
    stageCrcDelimiter d v p =
      { d with
        fields := { d.fields with crcDel := d.fields.crcDel.shift v }
        viol := d.viol ++ (if v then [] else [⟨.crcDelimDominant, .crcDelimiter, some p⟩]) ++
          if d.crcCalc ≠ d.fields.crcRx.v then [⟨.crcMismatch, .crcDelimiter, some p⟩] else []
        stf := { d.stf with en := false }
        stage := .ackSlot } := by
  by_cases hm : d.crcCalc = d.fields.crcRx.v <;> cases v <;> simp [stageCrcDelimiter, violate, hm]

/-- Two decoders, and the records emitted with them, that differ at most in annotations, positions and
diagnostics. -/
abbrev SameAnswer (x y : DecState × Option FrameRecord) : Prop :=
  SameParse x.1 y.1 ∧ Option.Rel SameRecord x.2 y.2

section
variable {d e : DecState} (h : SameParse d e)
include h

/-- The next frame is fresh but for the sequence number, and the record is the decoder's. 42_decoder.md R190. -/
theorem finish_congr : SameAnswer ((finish d).1, some (finish d).2) ((finish e).1, some (finish e).2) := by
  refine ⟨?_, .some (frameRecord_congr h)⟩
  simp only [finish, frameInit, h.seq]
  constructor <;> rfl

theorem finishAt_congr {R R' : Resync} (hR : resyncShape R = resyncShape R') :
    SameAnswer ((finishAt d R).1, some (finishAt d R).2) ((finishAt e R').1, some (finishAt e R').2) :=
  finish_congr { h with resync := hR, stage := rfl }

theorem setFields_congr (f : FieldRegs) : SameParse { d with fields := f } { e with fields := f } :=
  { h with fields := rfl }

theorem setStage_congr (S : Stage) : SameParse { d with stage := S } { e with stage := S } :=
  { h with stage := rfl }

/-- A field set alike, and the same next stage. -/
theorem move_congr (f : FieldRegs) (S : Stage) :
    SameParse { d with fields := f, stage := S } { e with fields := f, stage := S } :=
  setStage_congr (setFields_congr h f) S

variable (v : Bit) (p q : Pos)

theorem stageDlc_congr : SameParse (stageDlc d v p) (stageDlc e v q) := by
  have hf := setFields_congr h { d.fields with dlc := d.fields.dlc.shift v }
  simp only [stageDlc, ← h.fields]
  split
  · refine setStage_congr ?_ _
    split
    · exact violate_congr hf _ _ _ _
    · exact hf
  · exact hf

theorem cacheCrc_congr : SameParse (cacheCrc d) (cacheCrc e) := by
  simp only [cacheCrc, ← h.fields, ← h.crc]
  split
  · exact { h with fields := rfl, crc := rfl, crcCalc := rfl, crcCalcValid := rfl }
  · exact h

theorem stageCrc_congr : SameParse (stageCrc d v) (stageCrc e v) := by
  have hc := cacheCrc_congr h
  simp only [stageCrc, ← hc.fields]
  exact move_congr hc _ _

theorem stageCrcDelimiter_congr : SameParse (stageCrcDelimiter d v p) (stageCrcDelimiter e v q) := by
  rw [stageCrcDelimiter_eq, stageCrcDelimiter_eq]
  exact
    { h with
      fields := by rw [h.fields]
      stf := by rw [h.stf]
      stage := rfl
      viol := by
        simp only [List.map_append, apply_ite (List.map entryShape), List.map_cons, List.map_nil, entryShape,
          h.viol, h.crcCalc, h.fields] }

theorem stageAckSlot_congr : SameParse (stageAckSlot d v p) (stageAckSlot e v q) := by
  have hf := setFields_congr h { d.fields with ack := d.fields.ack.shift v }
  simp only [stageAckSlot, ← h.fields]
  cases v
  · exact setStage_congr (violate_congr hf _ _ _ _) _
  · exact setStage_congr hf _

theorem stageAckDelimiter_congr : SameParse (stageAckDelimiter d v p) (stageAckDelimiter e v q) := by
  have hf := setFields_congr h { d.fields with ackDel := d.fields.ackDel.shift v }
  simp only [stageAckDelimiter, ← h.fields]
  cases v
  · exact setStage_congr (violate_congr hf _ _ _ _) _
  · exact setStage_congr hf _

theorem stageEof_congr : SameParse (stageEof d v p) (stageEof e v q) := by
  cases v
  · exact failFrame_congr h .eofDominant .eof p q
  · simp only [stageEof, ← h.fields]
    exact move_congr h _ _

theorem stageIfs_congr : SameAnswer (stageIfs d v p) (stageIfs e v q) := by
  cases v
  · exact ⟨failFrame_congr h .ifsDominant .ifs p q, .none⟩
  · simp only [stageIfs, ← h.fields, if_true]
    split
    · exact finish_congr (move_congr h _ .ended)
    · exact ⟨{ h with fields := rfl }, .none⟩

theorem stageAction_congr : SameAnswer (stageAction d v p) (stageAction e v q) := by
  cases hd : d.stage <;> simp only [stageAction, hd, ← h.stage]
  case sof => exact ⟨{ h with stage := rfl }, .none⟩
  case arbitrationId | rtrOrSrr | ide | extendedId | rtr | r1 | r0 | data =>
    simp only [stageArbitrationId, stageRtrOrSrr, stageIde, stageExtendedId, stageRtr, stageR1, stageR0,
      stageData, ← h.fields]
    exact ⟨move_congr h _ _, .none⟩
  case dlc => exact ⟨stageDlc_congr h v p q, .none⟩
  case crc => exact ⟨stageCrc_congr h v, .none⟩
  case crcDelimiter => exact ⟨stageCrcDelimiter_congr h v p q, .none⟩
  case ackSlot => exact ⟨stageAckSlot_congr h v p q, .none⟩
  case ackDelimiter => exact ⟨stageAckDelimiter_congr h v p q, .none⟩
  case eof => exact ⟨stageEof_congr h v p q, .none⟩
  case ifs => exact stageIfs_congr h v p q
  case ended | hardFail => exact ⟨h, .none⟩

theorem scan_congr : SameAnswer (scan d v p) (scan e v q) := by
  have hrun : SameParse { d with recRun := if v then d.recRun + 1 else 0 }
      { e with recRun := if v then e.recRun + 1 else 0 } := { h with recRun := by rw [h.recRun] }
  simp only [scan, ← h.recRun] at hrun ⊢
  by_cases hn : (if v then d.recRun + 1 else 0).toNat = Config.resyncRun
  · rw [if_pos hn, if_pos hn]
    exact finishAt_congr hrun rfl
  · rw [if_neg hn, if_neg hn]
    exact ⟨hrun, .none⟩

end

/-! ### One symbol -/

/-- Two results of a symbol that differ at most in annotations, positions and diagnostics. -/
structure SameResult (x y : SymbolResult) : Prop where
  dec : SameParse x.dec y.dec
  cls : x.cls = y.cls
  record : Option.Rel SameRecord x.record y.record

section
variable {d e : DecState} (h : SameParse d e) (v a b : Bool) (p q : Pos)
include h

/-- An annotation on a bit that is no stuff bit is a diagnostic and no more. 42_decoder.md R174. -/
theorem acceptData_congr : SameResult (acceptData d v a p) (acceptData e v b q) := by
  have hdiag : SameParse (if a then diagnose d .stuffAnnotSpurious d.stage (some p) else d)
      (if b then diagnose e .stuffAnnotSpurious e.stage (some q) else e) := by
    cases a <;> cases b <;> exact { h with }
  obtain ⟨hdec, hrec⟩ := stageAction_congr (recordBit_congr hdiag v) v p q
  exact ⟨hdec, rfl, hrec⟩

/-- A symbol's case depends on the stage and on the class that the stuffing engine gives its value.
42_decoder.md R172 to R175. -/
theorem decodeSymbol_congr (c : BitClass) : SameResult (decodeSymbol d v a p c) (decodeSymbol e v b q c) := by
  have hkeep := keepSymbol_congr h v a b p q
  by_cases hs : d.stage = .sof
  · have hs' := h.stage ▸ hs
    cases v with
    | false =>
      rw [decodeSymbol_start a p c hs, decodeSymbol_start b q c hs']
      refine acceptData_congr ?_ _ _ _ _ _
      exact { h with start := rfl, last := rfl, raw := rfl, stf := by rw [h.stf] }
    | true =>
      rw [decodeSymbol_idle a p c hs, decodeSymbol_idle b q c hs']
      exact ⟨h, rfl, .none⟩
  by_cases he : d.stage = .ended
  · rw [decodeSymbol_ended v a p c he, decodeSymbol_ended v b q c (h.stage ▸ he)]
    obtain ⟨hdec, hrec⟩ := finish_congr (violate_congr h .internalUnreachable .ended (some p) (some q))
    exact ⟨hdec, rfl, hrec⟩
  by_cases hf : d.stage = .hardFail
  · rw [decodeSymbol_hardFail v a p c hf, decodeSymbol_hardFail v b q c (h.stage ▸ hf)]
    obtain ⟨hdec, hrec⟩ := scan_congr hkeep v p q
    exact ⟨hdec, rfl, hrec⟩
  have hs' : e.stage ≠ .sof := h.stage ▸ hs
  have he' : e.stage ≠ .ended := h.stage ▸ he
  have hf' : e.stage ≠ .hardFail := h.stage ▸ hf
  by_cases hd : IsData d v
  · rw [decodeSymbol_data v a p c hs he hf hd, decodeSymbol_data v b q c hs' he' hf' (h.stf ▸ hd)]
    refine acceptData_congr ?_ _ _ _ _ _
    exact { hkeep with stf := by rw [h.stf] }
  obtain ⟨hen, hcls⟩ := not_or.mp hd
  rw [Bool.not_eq_false] at hen
  cases hc : (stfDestuff d.stf v).1 with
  | data => exact absurd hc hcls
  | stuff =>
    rw [decodeSymbol_stuff v a p c hs he hf hen hc,
      decodeSymbol_stuff v b q c hs' he' hf' (h.stf ▸ hen) (h.stf ▸ hc)]
    refine ⟨?_, rfl, .none⟩
    cases a <;> cases b <;> exact { hkeep with stf := by simp [h.stf] }
  | violation =>
    rw [decodeSymbol_violation v a p c hs he hf hen hc,
      decodeSymbol_violation v b q c hs' he' hf' (h.stf ▸ hen) (h.stf ▸ hc), ← h.stage]
    refine ⟨failFrame_congr ?_ _ _ p q, rfl, .none⟩
    exact { hkeep with stf := by rw [h.stf] }

end

/-- Related answers hold a record both or neither. -/
theorem sameRecords_of_rel {x y : Option FrameRecord} (h : Option.Rel SameRecord x y) :
    x.isSome = y.isSome ∧ ∀ r ∈ x, ∀ r' ∈ y, SameRecord r r' := by
  cases h with
  | some hr => exact ⟨rfl, by simpa using hr⟩
  | none => exact ⟨rfl, by simp⟩

end Sys2Proof.Machine

namespace Sys2Proof.Proofs

open Sys2Proof.Machine

/-- Settles O47: every operation of the decoder branches on values, stages and engines alone. -/
theorem annotationsAndPositionsDoNotAffectParsing : Obligations.AnnotationsAndPositionsDoNotAffectParsing := by
  intro d e v a b p q cls h
  obtain ⟨hdec, hcls, hrec⟩ := decodeSymbol_congr h v a b p q cls
  exact ⟨hdec, hcls, sameRecords_of_rel hrec⟩

end Sys2Proof.Proofs
end

section
/-! PROOFS. O51: the encoded frame is the stuffing of its fields and their CRC, segment by segment, and the tail
(30_encoding.md R78 to R82, R93, R94; 43_encoder.md R226 to R229). -/

namespace Sys2Proof.Machine

open Sys2Proof.Claims (headerBits wireSegments)

/-! ### Fields on the wire -/

/-- A field's bits are those of its value, at its width. -/
theorem bits_wireField {n : Nat} (label : Label) (v : BitVec n) (hn : n ≤ 32) :
    (wireField label v).bits = bitsMsb v n :=
  bitsMsb_congr _ _ _ fun k hk => by
    have hk' : k < 32 := Nat.lt_of_lt_of_le hk hn
    simp only [wireField, BitVec.getLsbD_setWidth, hk', decide_true, Bool.true_and]

@[simp] theorem bits_wireBit (label : Label) (b : Bit) : (wireBit label b).bits = [b] := by
  rw [wireBit, bits_wireField _ _ (by decide)]
  cases b <;> rfl

/-- The base-ID field of an extended identifier is its upper eleven bits. 43_encoder.md R222. -/
theorem bits_baseIdOf (id : BitVec 29) : bitsMsb (baseIdOf id) 11 = bitsMsb (id >>> 18) 11 :=
  bitsMsb_congr _ _ _ fun k hk => by
    have hmask : ∀ j < 11, (0x1FFC0000#29).getLsbD (18 + j) = true := by decide
    simp only [baseIdOf, BitVec.getLsbD_setWidth, BitVec.getLsbD_ushiftRight, BitVec.getLsbD_and, hmask k hk, hk,
      decide_true, Bool.true_and, Bool.and_true]

/-- The extended-ID field is the lower eighteen bits. 43_encoder.md R222. -/
theorem bits_extIdOf (id : BitVec 29) : bitsMsb (extIdOf id) 18 = bitsMsb id 18 :=
  bitsMsb_congr _ _ _ fun k hk => by
    have hmask : ∀ j < 18, (0x3FFFF#29).getLsbD j = true := by decide
    simp only [extIdOf, BitVec.getLsbD_setWidth, BitVec.getLsbD_and, hmask k hk, hk, decide_true, Bool.true_and,
      Bool.and_true]

theorem bits_baseId (id : BitVec 29) : bitsMsb (id.setWidth 11) 11 = bitsMsb id 11 :=
  bitsMsb_congr _ _ _ fun k hk => by simp only [BitVec.getLsbD_setWidth, hk, decide_true, Bool.true_and]

/-- The DLC counts the bytes sent. 43_encoder.md R224, R233. -/
theorem sentDlc_eq (rtr : Bool) (data : List Byte) :
    sentDlc rtr data = BitVec.ofNat 4 (sentBytes rtr data).length := by
  cases rtr <;> rfl

/-- The text of a field's label with its bits. 30_encoding.md R94. -/
def WireField.labelled (f : WireField) : List Char × List Bit := (f.label.text, f.bits)

theorem labelled_wireField {n : Nat} (label : Label) (v : BitVec n) (hn : n ≤ 32) :
    (wireField label v).labelled = (label.text, bitsMsb v n) := congrArg _ (bits_wireField label v hn)

theorem labelled_wireBit (label : Label) (b : Bit) : (wireBit label b).labelled = (label.text, [b]) :=
  congrArg _ (bits_wireBit label b)

theorem labelled_dataWire (i : Nat) (bytes : List Byte) :
    (dataWire i bytes).map WireField.labelled =
      bytes.mapIdx fun k b => ('D' :: Nat.toDigits 10 (k + i), bitsMsb b 8) := by
  induction bytes generalizing i with
  | nil => rfl
  | cons b bytes ih =>
    have hnext (k : Nat) : k + (i + 1) = k + 1 + i := by omega
    simp only [dataWire, List.map_cons, ih, List.mapIdx_cons, labelled_wireField _ _ (show 8 ≤ 32 by decide),
      Label.text.eq_def, Nat.zero_add, hnext]

theorem bits_dataWire (i : Nat) (bytes : List Byte) :
    (dataWire i bytes).flatMap WireField.bits = bytes.flatMap fun b => bitsMsb b 8 := by
  induction bytes generalizing i with
  | nil => rfl
  | cons b bytes ih => rw [dataWire, List.flatMap_cons, List.flatMap_cons, ih, bits_wireField _ _ (by decide)]

theorem width_dataWire (i : Nat) (bytes : List Byte) : ∀ f ∈ dataWire i bytes, f.width = 8 := by
  induction bytes generalizing i with
  | nil => simp [dataWire]
  | cons b bytes ih => exact List.forall_mem_cons.mpr ⟨rfl, ih _⟩

section
variable (id : BitVec 29) (rtr : Bool) (data : List Byte)

/-- The fields of the standard format. 30_encoding.md R78. -/
theorem wire_standard (h : id.toNat ≤ 0x7FF) :
    (headerFields id rtr data).wire =
      [wireBit .sof false, wireField .id (id.setWidth 11), wireBit .rtr rtr, wireBit .ide false, wireBit .r0 false,
        wireField .dlc (BitVec.ofNat 4 (sentBytes rtr data).length)] ++ dataWire 0 (sentBytes rtr data) := by
  simp [headerFields, isStandardId, h, FrameFields.wire, sentDlc_eq]

/-- The fields of the extended format. 30_encoding.md R79. -/
theorem wire_extended (h : ¬ id.toNat ≤ 0x7FF) :
    (headerFields id rtr data).wire =
      [wireBit .sof false, wireField .id (baseIdOf id), wireBit .srr true, wireBit .ide true,
        wireField .eid (extIdOf id), wireBit .rtr rtr, wireBit .r1 false, wireBit .r0 false,
        wireField .dlc (BitVec.ofNat 4 (sentBytes rtr data).length)] ++ dataWire 0 (sentBytes rtr data) := by
  simp [headerFields, isStandardId, h, FrameFields.wire, sentDlc_eq]

/-- The bits sent from SOF through the last data byte. 30_encoding.md R78, R79, R82. -/
theorem bits_wire : (headerFields id rtr data).wire.flatMap WireField.bits = headerBits id rtr data := by
  by_cases h : id.toNat ≤ 0x7FF
  · rw [wire_standard _ _ _ h, List.flatMap_append, bits_dataWire]
    simp [headerBits, h, bits_wireField, bits_baseId, sentBytes]
  · rw [wire_extended _ _ _ h, List.flatMap_append, bits_dataWire]
    simp [headerBits, h, bits_wireField, bits_baseIdOf, bits_extIdOf, sentBytes]

/-- No field of a frame is empty. -/
theorem width_wire_pos (crc : BitVec 15) :
    ∀ f ∈ (headerFields id rtr data).wire ++ [wireField .crc crc], 0 < f.width := by
  have hdata : ∀ f ∈ dataWire 0 (sentBytes rtr data), 0 < f.width := fun f hf => by
    rw [width_dataWire _ _ f hf]
    decide
  by_cases h : id.toNat ≤ 0x7FF
  · rw [wire_standard _ _ _ h]
    simpa [wireBit, wireField, or_imp, forall_and] using hdata
  · rw [wire_extended _ _ _ h]
    simpa [wireBit, wireField, or_imp, forall_and] using hdata

/-- The labelled fields and the tail are the frame's segments less their stuff bits. 30_encoding.md R94;
43_encoder.md R228, R229. -/
theorem labelled_wire (crc : BitVec 15) :
    (((headerFields id rtr data).wire ++ [wireField .crc crc]).map WireField.labelled) ++
      (tailSegments.map fun g => (g.label.text, g.bits.map StuffBit.bit)) = wireSegments id rtr data crc := by
  have htail : (tailSegments.map fun g => (g.label.text, g.bits.map StuffBit.bit)) =
      [("CRC_DEL".toList, [true]), ("ACK".toList, [true]), ("ACK_DEL".toList, [true]),
        ("EOF".toList, List.replicate 7 true), ("IFS".toList, List.replicate 3 true)] := rfl
  by_cases h : id.toNat ≤ 0x7FF
  · rw [wire_standard _ _ _ h, htail]
    simp [wireSegments, h, labelled_dataWire, sentBytes, labelled_wireField, labelled_wireBit, Label.text.eq_def,
      bits_baseId]
  · rw [wire_extended _ _ _ h, htail]
    simp [wireSegments, h, labelled_dataWire, sentBytes, labelled_wireField, labelled_wireBit, Label.text.eq_def,
      bits_baseIdOf, bits_extIdOf]

end

/-! ### The stuffing pass -/

theorem stuffBits_append (s : StuffState) (xs ys : List Bit) :
    stuffBits s (xs ++ ys) =
      ((stuffBits s xs).1 ++ (stuffBits (stuffBits s xs).2 ys).1, (stuffBits (stuffBits s xs).2 ys).2) := by
  induction xs generalizing s with
  | nil => rfl
  | cons x xs ih => simp only [List.cons_append, stuffBits, ih, List.append_assoc]

/-- Field by field the stuffing pass is the stuffing of all the bits. 43_encoder.md R227. -/
theorem bits_stuffFields (s : StuffState) (fs : List WireField) :
    (stuffFields s fs).1.flatMap Segment.bits = (stuffBits s (fs.flatMap WireField.bits)).1 := by
  induction fs generalizing s with
  | nil => rfl
  | cons f fs ih => simp only [stuffFields, List.flatMap_cons, stuffBits_append, ih]

/-- A bit is emitted first, as data, and what may follow it is a stuff bit. 41_stuffing.md R148. -/
theorem stfStuff_emits (s : StuffState) (b : Bit) :
    (stfStuff s b).1 = [⟨b, false⟩] ∨ (stfStuff s b).1 = [⟨b, false⟩, ⟨!b, true⟩] := by
  rcases stfStuff_cases s b with ⟨-, e⟩ | ⟨-, ⟨-, e⟩ | ⟨-, e⟩ | ⟨-, -, e⟩⟩ <;> simp [e]

/-- The bits emitted that are no stuff bits are the bits given. 41_stuffing.md R148. -/
theorem stuffBits_data (s : StuffState) (xs : List Bit) :
    ((stuffBits s xs).1.filter fun x => !x.isStuff).map StuffBit.bit = xs := by
  induction xs generalizing s with
  | nil => rfl
  | cons x xs ih => rcases stfStuff_emits s x with e | e <;> simp [stuffBits, e, ih]

/-- The first bit emitted is no stuff bit. -/
theorem stuffBits_head (s : StuffState) {xs : List Bit} (h : xs ≠ []) :
    (stuffBits s xs).1.head?.map StuffBit.isStuff = some false := by
  obtain ⟨x, xs, rfl⟩ := List.exists_cons_of_ne_nil h
  rcases stfStuff_emits s x with e | e <;> simp [stuffBits, e]

theorem labelled_stuffFields (s : StuffState) (fs : List WireField) :
    ((stuffFields s fs).1.map fun g =>
      (g.label.text, (g.bits.filter fun x => !x.isStuff).map StuffBit.bit)) = fs.map WireField.labelled := by
  induction fs generalizing s with
  | nil => rfl
  | cons f fs ih => simp [stuffFields, ih, stuffBits_data, WireField.labelled]

theorem head_stuffFields (s : StuffState) {fs : List WireField} (h : ∀ f ∈ fs, 0 < f.width) :
    ∀ g ∈ (stuffFields s fs).1, g.bits.head?.map StuffBit.isStuff = some false := by
  induction fs generalizing s with
  | nil => simp [stuffFields]
  | cons f fs ih =>
    obtain ⟨hf, hfs⟩ := List.forall_mem_cons.mp h
    have hne : f.bits ≠ [] := List.ne_nil_of_length_pos (Nat.lt_of_lt_of_eq hf (length_bitsMsb _ _).symm)
    exact List.forall_mem_cons.mpr ⟨stuffBits_head s hne, ih _ hfs⟩

/-! ### The CRC -/

/-- Feeding field by field is feeding all the bits. 40_crc.md R125. -/
theorem foldl_crcField (c : CrcState) (fs : List WireField) :
    fs.foldl (fun c f => crcField c f.value f.width) c = crcFeed c (fs.flatMap WireField.bits) := by
  induction fs generalizing c with
  | nil => rfl
  | cons f fs ih => rw [List.foldl_cons, ih, List.flatMap_cons, crcFeed_append]; rfl

/-- The frame CRC is the value of the engine that has been fed the fields' bits: it has 15 bits, so none is cut off.
43_encoder.md R226, 40_crc.md R127. -/
theorem setWidth_frameCrc (fs : List WireField) :
    (frameCrc fs).setWidth 32 =
      (crcFinalize (crcFeed (crcNew Config.canCrcPoly) (fs.flatMap WireField.bits))).value := by
  rw [frameCrc, foldl_crcField, crcNew_can]
  obtain ⟨-, -, -, -, hvalue⟩ := (CrcState.fresh_inv.feed (fs.flatMap WireField.bits)).finalize
  rw [crcFinalize_width, crcFeed_width, show CrcState.fresh.width.toNat = 15 from rfl] at hvalue
  apply BitVec.eq_of_toNat_eq
  rw [BitVec.toNat_setWidth, BitVec.toNat_setWidth]
  omega

end Sys2Proof.Machine

namespace Sys2Proof.Proofs

open Sys2Proof.Machine

/-- Settles O51: the stuffing pass over the wire fields, taken as one list of bits and segment by segment. -/
theorem encodedFrameIsStuffedHeaderCrcAndTail : Obligations.EncodedFrameIsStuffedHeaderCrcAndTail := by
  intro id rtr data header r
  have hcrc : r.fields.crc = frameCrc (headerFields id rtr data).wire := rfl
  have hbits : r.bits = r.segments.flatMap Segment.bits := rfl
  have hsegments : r.segments =
      (stuffFields .fresh ((headerFields id rtr data).wire ++ [wireField .crc r.fields.crc])).1 ++ tailSegments := rfl
  refine ⟨?crc, ?bits, hbits, ?segments, ?heads, rfl, rfl⟩
  case crc =>
    rw [hcrc, setWidth_frameCrc, bits_wire]
    rfl
  case bits =>
    rw [hbits, hsegments, List.flatMap_append, bits_stuffFields, List.flatMap_append, bits_wire,
      List.flatMap_singleton, bits_wireField _ _ (by decide)]
    rfl
  case segments =>
    rw [hsegments, List.map_append, labelled_stuffFields, ← labelled_wire]
    rfl
  case heads =>
    rw [hsegments, List.forall_mem_append]
    exact ⟨head_stuffFields _ (width_wire_pos id rtr data r.fields.crc), by decide⟩

end Sys2Proof.Proofs
end

section
/-! PROOFS. The CRC engine as polynomial division over GF(2): its bits after a step, the remainder it keeps, its
linearity and the shift-register form (40_crc.md R121 to R132). -/

namespace Sys2Proof.Machine

open Polynomial
open Sys2Proof.Claims (runAll)

/-! ### The remainder register, bit by bit -/

/-- The remainder register of a feed is the division step folded over the bits. 40_crc.md R123. -/
theorem crcFeed_reg (s : CrcState) (bs : List Bit) :
    (crcFeed s bs).reg = bs.foldl (crcDivide s.poly s.width.toNat) s.reg := by
  induction bs generalizing s with
  | nil => rfl
  | cons b bs ih => simp [ih]

/-- Below bit `W` a division step shifts, and subtracts the generator where the highest remainder bit was 1.
40_crc.md R123. -/
theorem getLsbD_crcDivide (p : BitVec 32) {W : Nat} (reg : BitVec 33) (b : Bit) (h1 : 1 ≤ W) (hW : W ≤ 32)
    {i : Nat} (hi : i < W) :
    (crcDivide p W reg b).getLsbD i =
      ((if i = 0 then b else reg.getLsbD (i - 1)) ^^ (reg.getLsbD (W - 1) && p.getLsbD i)) := by
  have htop : (shiftIn reg b).getLsbD W = reg.getLsbD (W - 1) := by
    rw [getLsbD_shiftIn, decide_eq_true (show W < 33 by omega), if_neg (show W ≠ 0 by omega), Bool.true_and]
  have hlow : (shiftIn reg b).getLsbD i = if i = 0 then b else reg.getLsbD (i - 1) := by
    rw [getLsbD_shiftIn, decide_eq_true (show i < 33 by omega), Bool.true_and]
  rw [crcDivide, htop, ← hlow]
  cases reg.getLsbD (W - 1) with
  | false => simp
  | true => simp [hi, show i < 33 by omega]

/-- The remainder register after the `W` zero bits of a finalize. 40_crc.md R127. -/
def crcPad (p : BitVec 32) (W : Nat) (reg : BitVec 33) : BitVec 33 :=
  (List.replicate W false).foldl (crcDivide p W) reg

theorem crcFeed_zeros_reg (s : CrcState) :
    (crcFeed s (List.replicate s.width.toNat false)).reg = crcPad s.poly s.width.toNat s.reg := crcFeed_reg s _

/-- A zero bit may be fed before the padding or after it. -/
theorem crcPad_crcDivide_zero (p : BitVec 32) (W : Nat) (reg : BitVec 33) :
    crcPad p W (crcDivide p W reg false) = crcDivide p W (crcPad p W reg) false := by
  rw [crcPad, crcPad, ← List.foldl_cons, ← List.replicate_succ, List.replicate_succ', List.foldl_append]
  rfl

/-- The value of a finalize is the padded remainder, which the mask leaves as it is. 40_crc.md R127. -/
theorem crcFinalize_value_eq {s : CrcState} (h : s.Inv) :
    (crcFinalize s).value = (crcPad s.poly s.width.toNat s.reg).setWidth 32 := by
  have hvalue := crcFinalize_value h
  rw [crcFeed_zeros_reg] at hvalue
  apply BitVec.eq_of_toNat_eq
  rw [BitVec.toNat_setWidth, ← hvalue, Nat.mod_eq_of_lt (BitVec.isLt _)]

/-- What a finalize writes. 40_crc.md R127. -/
theorem crcFinalize_eq {s : CrcState} (h : s.Inv) :
    crcFinalize s =
      { s with
        reg := crcPad s.poly s.width.toNat s.reg
        nbits := s.nbits + s.width.setWidth 32
        value := (crcPad s.poly s.width.toNat s.reg).setWidth 32 } := by
  have hreg : (crcFinalize s).reg = crcPad s.poly s.width.toNat s.reg := crcFeed_zeros_reg s
  have hnbits : (crcFinalize s).nbits = s.nbits + s.width.setWidth 32 := by
    rw [← BitVec.ofNat_toNat, ← List.length_replicate (n := s.width.toNat) (a := false)]
    exact crcFeed_nbits s _
  rw [← crcFinalize_value_eq h, ← hreg, ← hnbits, ← crcFinalize_poly s, ← crcFinalize_width s]

/-! ### Polynomials over GF(2) -/

/-- The polynomial over GF(2) with the `n` coefficients `f 0, ..., f (n - 1)`. 40_crc.md R129. -/
noncomputable def gf2Poly (n : Nat) (f : Nat → Bool) : (ZMod 2)[X] :=
  ∑ i ∈ Finset.range n, if f i then X ^ i else 0

theorem gf2Poly_succ (n : Nat) (f : Nat → Bool) :
    gf2Poly (n + 1) f = gf2Poly n f + if f n then X ^ n else 0 := Finset.sum_range_succ _ n

theorem gf2Poly_congr {n : Nat} {f g : Nat → Bool} (h : ∀ i < n, f i = g i) : gf2Poly n f = gf2Poly n g :=
  Finset.sum_congr rfl fun i hi => by rw [h i (Finset.mem_range.mp hi)]

/-- Addition of coefficients is XOR. 40_crc.md R129. -/
theorem gf2Poly_xor (n : Nat) (f g : Nat → Bool) :
    gf2Poly n (fun i => f i ^^ g i) = gf2Poly n f + gf2Poly n g := by
  rw [gf2Poly, gf2Poly, gf2Poly, ← Finset.sum_add_distrib]
  refine Finset.sum_congr rfl fun i _ => ?_
  cases f i with
  | false => simp
  | true => cases g i <;> simp [CharTwo.add_self_eq_zero]

/-- Coefficients moved up one place below a new constant one. -/
theorem gf2Poly_shift (n : Nat) (b : Bool) (f : Nat → Bool) :
    gf2Poly (n + 1) (fun i => if i = 0 then b else f (i - 1)) = gf2Poly n f * X + if b then 1 else 0 := by
  rw [gf2Poly, Finset.sum_range_succ', gf2Poly, Finset.sum_mul]
  simp [ite_mul, pow_succ]

theorem degree_gf2Poly_lt (n : Nat) (f : Nat → Bool) : (gf2Poly n f).degree < n := by
  rw [← mem_degreeLT]
  refine Submodule.sum_mem _ fun i hi => ?_
  split
  · rw [mem_degreeLT, degree_X_pow]
    exact Nat.cast_lt.mpr (Finset.mem_range.mp hi)
  · exact Submodule.zero_mem _

/-- Coefficients that are all 0 from `n` on add nothing. -/
theorem gf2Poly_of_lt_two_pow {w n k : Nat} {v : BitVec w} (hv : v.toNat < 2 ^ n) (hk : n ≤ k) :
    gf2Poly k v.getLsbD = gf2Poly n v.getLsbD := by
  refine (Finset.sum_subset (Finset.range_mono hk) fun i _ hi => if_neg ?_).symm
  have hni : n ≤ i := by simpa using hi
  exact Bool.eq_false_iff.mp (Nat.testBit_lt_two_pow (Nat.lt_of_lt_of_le hv (Nat.pow_le_pow_right (by omega) hni)))

/-! ### The engine divides -/

/-- The generator `G(x) = x^W + sum of p[i] x^i` of an engine. 40_crc.md R121. -/
noncomputable def CrcState.generator (s : CrcState) : (ZMod 2)[X] :=
  X ^ s.width.toNat + gf2Poly s.width.toNat s.poly.getLsbD

/-- The remainder register as a polynomial. -/
noncomputable def CrcState.remainder (s : CrcState) : (ZMod 2)[X] := gf2Poly s.width.toNat s.reg.getLsbD

/-- `M(x)`: the first bit is the coefficient of the highest power. 40_crc.md R129. -/
noncomputable def messagePoly (m : List Bit) : (ZMod 2)[X] :=
  gf2Poly m.length fun i => m.getD (m.length - 1 - i) false

theorem messagePoly_cons (b : Bit) (m : List Bit) :
    messagePoly (b :: m) = (if b then 1 else 0) * X ^ m.length + messagePoly m := by
  rw [messagePoly, List.length_cons, gf2Poly_succ, add_comm]
  congr 1
  · simp
  · refine gf2Poly_congr fun i hi => ?_
    rw [show m.length + 1 - 1 - i = (m.length - 1 - i) + 1 by omega, List.getD_cons_succ]

theorem messagePoly_replicate_false (n : Nat) : messagePoly (List.replicate n false) = 0 := by
  induction n with
  | zero => rfl
  | succ n ih => rw [List.replicate_succ, messagePoly_cons, ih]; simp

/-- The generator's lower terms lie below its width, so all 32 coefficients may be summed. 40_crc.md R121. -/
theorem CrcState.Inv.generator_eq {s : CrcState} (h : s.Inv) :
    s.generator = X ^ s.width.toNat + gf2Poly 32 s.poly.getLsbD := by
  have hw := h.width_le
  obtain ⟨-, -, hpoly, -, -⟩ := h
  rw [generator, gf2Poly_of_lt_two_pow hpoly hw]

theorem CrcState.generator_monic (s : CrcState) : s.generator.Monic := monic_X_pow_add (degree_gf2Poly_lt _ _)

/-- The remainder has a lower degree than the generator. 40_crc.md R123. -/
theorem CrcState.degree_remainder_lt (s : CrcState) : s.remainder.degree < s.generator.degree := by
  rw [generator, degree_add_eq_left_of_degree_lt, degree_X_pow]
  · exact degree_gf2Poly_lt _ _
  · rw [degree_X_pow]
    exact degree_gf2Poly_lt _ _

theorem crcFeed_generator (s : CrcState) (m : List Bit) : (crcFeed s m).generator = s.generator := by
  rw [CrcState.generator, crcFeed_poly, crcFeed_width, ← CrcState.generator]

/-- One step multiplies the remainder by `x`, adds the bit, and adds the generator where the highest remainder bit
was 1. 40_crc.md R123. -/
theorem CrcState.Inv.crcStep_remainder {s : CrcState} (h : s.Inv) (b : Bit) :
    (crcStep s b).remainder = (s.remainder * X + if b then 1 else 0) +
      if s.reg.getLsbD (s.width.toNat - 1) then s.generator else 0 := by
  have hpos : 1 ≤ s.width.toNat := h.1
  have hbits := gf2Poly_congr fun i (hi : i < s.width.toNat) =>
    getLsbD_crcDivide s.poly s.reg b hpos h.width_le hi
  have hshift := gf2Poly_shift s.width.toNat b s.reg.getLsbD
  rw [gf2Poly_succ, if_neg (Nat.ne_of_gt hpos)] at hshift
  rw [remainder, crcStep_width, crcStep_reg, hbits, gf2Poly_xor, remainder, ← hshift, generator]
  cases s.reg.getLsbD (s.width.toNat - 1) with
  | false => simp [gf2Poly]
  | true => simp [add_assoc, CharTwo.add_cancel_left]

/-- Feeding a message of `k` bits multiplies the remainder by `x^k` and adds the message, modulo the generator.
40_crc.md R129. -/
theorem CrcState.Inv.crcFeed_remainder {s : CrcState} (h : s.Inv) (m : List Bit) :
    s.generator ∣ (crcFeed s m).remainder - (s.remainder * X ^ m.length + messagePoly m) := by
  induction m generalizing s with
  | nil => simp [messagePoly, gf2Poly]
  | cons b m ih =>
    have hstep : s.generator ∣ (crcStep s b).remainder - (s.remainder * X + if b then 1 else 0) := by
      rw [h.crcStep_remainder, add_sub_cancel_left]
      split
      · exact dvd_rfl
      · exact dvd_zero _
    have hfeed : s.generator ∣
        (crcFeed (crcStep s b) m).remainder - ((crcStep s b).remainder * X ^ m.length + messagePoly m) := ih (h.step b)
    rw [crcFeed_cons, messagePoly_cons, List.length_cons]
    convert dvd_add hfeed (hstep.mul_right (X ^ m.length)) using 1
    ring

/-- The value of a finalize is the remainder of the message times `x^W`. 40_crc.md R129. -/
theorem CrcState.Inv.finalize_remainder {s : CrcState} (h : s.Inv) (hr : s.reg = 0) (m : List Bit) :
    gf2Poly s.width.toNat (crcFinalize (crcFeed s m)).value.getLsbD =
      (messagePoly m * X ^ s.width.toNat) %ₘ s.generator := by
  have hpad := (h.feed m).crcFeed_remainder (List.replicate s.width.toNat false)
  have hmsg := h.crcFeed_remainder m
  rw [crcFeed_generator, messagePoly_replicate_false, List.length_replicate, add_zero] at hpad
  rw [show s.remainder = 0 by simp [remainder, hr, gf2Poly], zero_mul, zero_add] at hmsg
  have hlt := degree_remainder_lt (crcFeed (crcFeed s m) (List.replicate s.width.toNat false))
  rw [crcFeed_generator, crcFeed_generator] at hlt
  calc gf2Poly s.width.toNat (crcFinalize (crcFeed s m)).value.getLsbD
      = (crcFeed (crcFeed s m) (List.replicate s.width.toNat false)).remainder := by
        have hvalue := crcFinalize_value (h.feed m)
        rw [crcFeed_width] at hvalue
        rw [remainder, crcFeed_width, crcFeed_width]
        exact gf2Poly_congr fun i _ => congrArg (·.testBit i) hvalue
    _ = (crcFeed (crcFeed s m) (List.replicate s.width.toNat false)).remainder %ₘ s.generator :=
        ((modByMonic_eq_self_iff s.generator_monic).mpr hlt).symm
    _ = (messagePoly m * X ^ s.width.toNat) %ₘ s.generator := by
        refine modByMonic_eq_of_dvd_sub s.generator_monic ?_
        convert dvd_add hpad (hmsg.mul_right (X ^ s.width.toNat)) using 1
        ring

/-! ### The engine is linear -/

theorem shiftIn_xor {w : Nat} (u v : BitVec w) (b c : Bit) :
    shiftIn (u ^^^ v) (b ^^ c) = shiftIn u b ^^^ shiftIn v c := by
  apply BitVec.eq_of_getLsbD_eq
  intro i hi
  simp only [BitVec.getLsbD_xor, getLsbD_shiftIn, hi, decide_true, Bool.true_and]
  split <;> rfl

/-- A division step is linear: the generator is subtracted from the sum exactly where it is from one summand.
40_crc.md R132. -/
theorem crcDivide_xor (p : BitVec 32) (W : Nat) (u v : BitVec 33) (b c : Bit) :
    crcDivide p W (u ^^^ v) (b ^^ c) = crcDivide p W u b ^^^ crcDivide p W v c := by
  rw [crcDivide, crcDivide, crcDivide, shiftIn_xor, BitVec.getLsbD_xor]
  generalize shiftIn u b = x, shiftIn v c = y, 1#33 <<< W ||| p.setWidth 33 = g
  cases x.getLsbD W with
  | false =>
    cases y.getLsbD W with
    | false => rfl
    | true => exact BitVec.xor_assoc x y g
  | true =>
    cases y.getLsbD W with
    | false =>
      calc (x ^^^ y) ^^^ g = (x ^^^ g) ^^^ y := by ac_rfl
    | true =>
      calc x ^^^ y = (x ^^^ y) ^^^ (g ^^^ g) := by rw [BitVec.xor_self, BitVec.xor_zero]
        _ = (x ^^^ g) ^^^ (y ^^^ g) := by ac_rfl

theorem crcDivide_zero (p : BitVec 32) (W : Nat) : crcDivide p W 0 false = 0 := by
  simpa using crcDivide_xor p W 0 0 false false

/-- Feeding is linear in the register and the message. 40_crc.md R132. -/
theorem foldl_crcDivide_xor (p : BitVec 32) (W : Nat) (u v : BitVec 33) {m n : List Bit} (h : m.length = n.length) :
    (List.zipWith Bool.xor m n).foldl (crcDivide p W) (u ^^^ v) =
      m.foldl (crcDivide p W) u ^^^ n.foldl (crcDivide p W) v := by
  induction m generalizing n u v with
  | nil => simp [List.length_eq_zero_iff.mp h.symm]
  | cons b m ih =>
    cases n with
    | nil => cases h
    | cons c n =>
      rw [List.zipWith_cons_cons, List.foldl_cons, crcDivide_xor, ih _ _ (Nat.succ.inj h)]
      rfl

theorem crcPad_xor (p : BitVec 32) (W : Nat) (u v : BitVec 33) :
    crcPad p W (u ^^^ v) = crcPad p W u ^^^ crcPad p W v := by
  rw [crcPad, crcPad, crcPad, ← foldl_crcDivide_xor _ _ _ _ rfl, List.zipWith_replicate, Nat.min_self]
  rfl

theorem crcPad_zero (p : BitVec 32) (W : Nat) : crcPad p W 0 = 0 := by simpa using crcPad_xor p W 0 0

/-- The values of two equal-length messages add up to the value of their sum. 40_crc.md R132. -/
theorem crcFinalize_crcFeed_xor {s : CrcState} (h : s.Inv) (hr : s.reg = 0) {m n : List Bit}
    (hlen : m.length = n.length) :
    (crcFinalize (crcFeed s (List.zipWith Bool.xor m n))).value =
      (crcFinalize (crcFeed s m)).value ^^^ (crcFinalize (crcFeed s n)).value := by
  have hreg : (crcFeed s (List.zipWith Bool.xor m n)).reg = (crcFeed s m).reg ^^^ (crcFeed s n).reg := by
    simp only [crcFeed_reg]
    rw [← foldl_crcDivide_xor _ _ _ _ hlen, BitVec.xor_self, hr]
    rfl
  simp only [crcFinalize_value_eq (h.feed _), crcFeed_poly, crcFeed_width, hreg, crcPad_xor, BitVec.setWidth_xor]

/-! ### The shift-register form of CAN -/

/-- One step of the shift register of CAN. 40_crc.md R130. -/
def canShift (r : BitVec 15) (b : Bit) : BitVec 15 :=
  if Bool.xor b (r.getLsbD 14) then (r <<< 1) ^^^ 0x4599 else r <<< 1

/-- Feeding a 0 is shifting a 0 into the shift register. 40_crc.md R130. -/
theorem setWidth_crcDivide_can (reg : BitVec 33) :
    (crcDivide Config.canCrcPoly 15 reg false).setWidth 15 = canShift (reg.setWidth 15) false := by
  have htop : (reg.setWidth 15).getLsbD 14 = reg.getLsbD 14 := by simp
  apply BitVec.eq_of_getLsbD_eq
  intro i hi
  rw [BitVec.getLsbD_setWidth, decide_eq_true hi, Bool.true_and,
    getLsbD_crcDivide _ _ _ (by decide) (by decide) hi, canShift, htop]
  have hlow : ((reg.setWidth 15 : BitVec 15) <<< 1).getLsbD i = if i = 0 then false else reg.getLsbD (i - 1) := by
    cases i with
    | zero => simp
    | succ i => simp [hi]
  have hpoly : (0x4599#15).getLsbD i = Config.canCrcPoly.getLsbD i := by
    rw [show 0x4599#15 = Config.canCrcPoly.setWidth 15 from rfl, BitVec.getLsbD_setWidth, decide_eq_true hi,
      Bool.true_and]
  cases reg.getLsbD 14 with
  | false => simpa using hlow.symm
  | true => simp [← hlow, ← hpoly]

/-- A 1 fed to the shift register adds the generator. 40_crc.md R130. -/
theorem canShift_eq_xor (r : BitVec 15) (b : Bit) :
    canShift r b = canShift r false ^^^ if b then 0x4599#15 else 0 := by
  cases b with
  | false => exact BitVec.xor_zero.symm
  | true =>
    rw [canShift, canShift, Bool.true_xor, Bool.false_xor]
    cases r.getLsbD 14 with
    | false => rfl
    | true =>
      calc r <<< 1 = r <<< 1 ^^^ (0x4599 ^^^ 0x4599) := by rw [BitVec.xor_self, BitVec.xor_zero]
        _ = r <<< 1 ^^^ 0x4599 ^^^ 0x4599 := (BitVec.xor_assoc _ _ _).symm

/-- A lone 1, padded, leaves the generator's lower terms. 40_crc.md R129. -/
theorem crcPad_can_one : crcPad Config.canCrcPoly 15 (crcDivide Config.canCrcPoly 15 0 true) = 0x4599 := by
  simp [crcPad, crcDivide, shiftIn]

/-- A bit fed before the padding is a bit fed to the shift register, which needs none. 40_crc.md R130. -/
theorem setWidth_crcPad_can (reg : BitVec 33) (b : Bit) :
    (crcPad Config.canCrcPoly 15 (crcDivide Config.canCrcPoly 15 reg b)).setWidth 15 =
      canShift ((crcPad Config.canCrcPoly 15 reg).setWidth 15) b := by
  have hbit : (crcPad Config.canCrcPoly 15 (crcDivide Config.canCrcPoly 15 0 b)).setWidth 15 =
      if b then 0x4599#15 else 0 := by
    cases b with
    | false => rw [crcDivide_zero, crcPad_zero]; rfl
    | true => rw [crcPad_can_one]; rfl
  have hsplit := crcDivide_xor Config.canCrcPoly 15 reg 0 false b
  rw [Bool.false_xor, show reg ^^^ 0 = reg from BitVec.xor_zero] at hsplit
  rw [hsplit, crcPad_xor, BitVec.setWidth_xor, hbit, crcPad_crcDivide_zero, setWidth_crcDivide_can, ← canShift_eq_xor]

/-- Padding an engine of the CAN generator gives the shift register fed with the message alone. 40_crc.md R130. -/
theorem setWidth_crcPad_crcFeed_can (m : List Bit) :
    (crcPad Config.canCrcPoly 15 (crcFeed .fresh m).reg).setWidth 15 = m.foldl canShift 0 := by
  induction m using List.reverseRecOn with
  | nil => rw [crcFeed_nil, show CrcState.fresh.reg = 0 from rfl, crcPad_zero]; rfl
  | append_singleton m b ih =>
    rw [crcFeed_snoc, crcStep_reg, crcFeed_poly, crcFeed_width, List.foldl_append, ← ih]
    exact setWidth_crcPad_can _ b

/-! ### Commands that feed the standalone engine -/

/-- `CRC_BIT`s one after another are one feed. 40_crc.md R124. -/
theorem runAll_crcBits (bs : List Bit) (s : State) :
    (runAll (bs.map .crcBit) s).map State.crcu = some (crcFeed s.crcu bs) := by
  induction bs generalizing s with
  | nil => rfl
  | cons b bs ih => exact ih _

/-- The bits of a field from the highest down, by their number. 00_scope.md R12. -/
theorem bitsMsb_eq_map_range {w : Nat} (v : BitVec w) (n : Nat) :
    bitsMsb v n = (List.range n).map fun k => v.getLsbD (n - 1 - k) := by
  induction n with
  | zero => rfl
  | succ n ih =>
    rw [bitsMsb, ih, List.range_succ_eq_map, List.map_cons, List.map_map]
    congr 1
    refine List.map_congr_left fun k hk => ?_
    simp only [Function.comp, Nat.add_sub_cancel, Nat.succ_eq_add_one]
    rw [Nat.sub_sub, Nat.add_comm 1]

end Sys2Proof.Machine

namespace Sys2Proof.Proofs

open Sys2Proof.Machine

/-- Settles O20: every step keeps the remainder of what was fed, and the padding multiplies it by `x^W`. -/
theorem crcIsPolynomialRemainder : Obligations.CrcIsPolynomialRemainder := by
  intro p m hp
  have hinv : (crcNew p).Inv := crcNew_inv (decide_eq_false hp)
  have hrem := hinv.finalize_remainder rfl m
  rw [hinv.generator_eq] at hrem
  exact hrem

/-- Settles O16: the leading zeros give the highest set bit. -/
theorem crcInitInfersWidth : Obligations.CrcInitInfersWidth := by
  intro poly s hp
  have hgood : badPoly poly = false := decide_eq_false hp
  have hinv := crcNew_inv hgood
  have hw := CrcState.Inv.width_le hinv
  obtain ⟨h1, hlow, hhigh, -, -⟩ := hinv
  exact ⟨(crcNew poly).width, h1, hw, hlow, hhigh, if_neg (Bool.eq_false_iff.mp hgood)⟩

/-- Settles O17: one division step, as numbers. -/
theorem crcBitDividesOneStep : Obligations.CrcBitDividesOneStep := by
  intro b s h
  have hw := CrcState.Inv.width_le h
  obtain ⟨-, -, hp, hr, -⟩ := h
  have hstep := toNat_crcDivide s.crcu.poly s.crcu.width.toNat s.crcu.reg b hw hp hr
  refine ⟨crcDivide s.crcu.poly s.crcu.width.toNat s.crcu.reg b, rfl, fun hlt => ?_, fun hle => ?_,
    crcDivide_lt _ _ _ _ hw hp hr⟩
  · rw [hstep, if_neg (Nat.not_le.mpr hlt)]
  · rw [hstep, if_pos hle]

/-- Settles O18: the field's bits, fed one after another. -/
theorem crcFieldFeedsMsbFirst : Obligations.CrcFieldFeedsMsbFirst := by
  intro width value s h1 h32
  have hgood : ¬ badWidth width = true := fun h => by have := (badWidth_iff width).mp h; omega
  refine ⟨crcField s.crcu value width.toNat, if_neg hgood, ?_, ?_, crcFeed_poly _ _, crcFeed_width _ _,
    crcFeed_value _ _⟩
  · have hrun := runAll_crcBits (bitsMsb value width.toNat) s
    rw [bitsMsb_eq_map_range, List.map_map, ← bitsMsb_eq_map_range] at hrun
    exact hrun
  · rw [crcField, crcFeed_nbits, length_bitsMsb, BitVec.ofNat_toNat]

/-- Settles O19: finalizing pads with zero bits, as many `CRC_BIT`s do. -/
theorem crcFinalPadsAndReturnsRemainder : Obligations.CrcFinalPadsAndReturnsRemainder := by
  intro s h
  refine ⟨crcPad s.crcu.poly s.crcu.width.toNat s.crcu.reg, ?_, ?_, ?_⟩
  · rw [exec, execCrcFinal, crcFinalize_eq h]
    rfl
  · have hrun := congrArg (Option.map CrcState.reg) (runAll_crcBits (List.replicate s.crcu.width.toNat false) s)
    rw [List.map_replicate, Option.map_map, Option.map_some, crcFeed_zeros_reg] at hrun
    exact hrun
  · rw [← crcFeed_zeros_reg]
    obtain ⟨-, -, -, hr, -⟩ := CrcState.Inv.feed h (List.replicate s.crcu.width.toNat false)
    rwa [crcFeed_width] at hr

/-- Settles O21: the shift register holds at each bit what the engine would hold after its padding. -/
theorem canCrcIsTheShiftRegisterForm : Obligations.CanCrcIsTheShiftRegisterForm := by
  intro m
  have hvalue := crcFinalize_value_eq (CrcState.fresh_inv.feed m)
  rw [show crcNew 0x4599 = .fresh from crcNew_can, hvalue, crcFeed_poly, crcFeed_width,
    BitVec.setWidth_setWidth_of_le _ (by decide)]
  exact setWidth_crcPad_crcFeed_can m

/-- Settles O22: feeding and padding are linear. -/
theorem crcIsLinear : Obligations.CrcIsLinear := fun _ _ _ hp hlen =>
  crcFinalize_crcFeed_xor (crcNew_inv (decide_eq_false hp)) rfl hlen

end Sys2Proof.Proofs
end

section
/-! PROOFS. The stuffing engine: its two directions by case, destuffing as the inverse of stuffing, and the bound on
the runs of a stuffed sequence (41_stuffing.md R141 to R158). -/

namespace Sys2Proof.Machine

open Sys2Proof.Claims (runAll runOf withRuns withTotal)

/-! ### The registers in the claims' terms -/

theorem runOf_eq_run (s : StuffState) (b : Bit) : runOf s b = s.run b := rfl

theorem withRuns_one_zero (s : StuffState) (b : Bit) : withRuns s b 1 0 = s.seed b := by cases b <;> rfl

theorem withRuns_other_kept (s : StuffState) (b : Bit) (n : BitVec 3) :
    withRuns s b n (s.run (!b)) = s.setRun b n := by cases b <;> rfl

theorem withTotal_eq_bumpTot (s : StuffState) (b : Bit) : withTotal s b = s.bumpTot b := by cases b <;> rfl

theorem full_iff {s : StuffState} {b : Bit} : s.full b = true ↔ s.run b = 5 := by
  rw [← BitVec.toNat_inj]; exact decide_eq_true_iff

theorem full_eq_false_iff {s : StuffState} {b : Bit} : s.full b = false ↔ s.run b ≠ 5 := by
  rw [← Bool.not_eq_true, full_iff]

theorem StuffState.Bounded.run_le {s : StuffState} (h : s.Bounded) (b : Bit) : (s.run b).toNat ≤ 5 := by
  obtain ⟨-, h0, h1⟩ := h
  cases b
  · exact h0
  · exact h1

/-! ### The decode direction, an equation for each case (41_stuffing.md R144) -/

section
variable {s : StuffState} {b : Bit}

theorem stfDestuff_disabled (hen : s.en = false) : stfDestuff s b = (.data, s) := if_pos hen

theorem stfDestuff_violated (hen : s.en = true) (hv : s.viol = true) : stfDestuff s b = (.violation, s) := by
  simp [stfDestuff, hen, hv]

variable (hen : s.en = true) (hv : s.viol = false)
include hen hv

/-- The bit after a full run of the other polarity is a stuff bit. -/
theorem stfDestuff_stuff (hr : s.run b = 0) (hf : s.run (!b) = 5) :
    stfDestuff s b = (.stuff, (s.seed b).bumpTot b) := by
  simpa [hen, hv, hr, full_iff.mpr hf] using stfDestuff_cases s b

/-- A bit that ends a run short of the trigger starts its own. -/
theorem stfDestuff_seeds (hr : s.run b = 0) (hf : s.run (!b) ≠ 5) : stfDestuff s b = (.data, s.seed b) := by
  simpa [hen, hv, hr, full_eq_false_iff.mpr hf] using stfDestuff_cases s b

/-- One more bit of a full run is a violation. -/
theorem stfDestuff_violates (hr : s.run b = 5) : stfDestuff s b = (.violation, { s with viol := true }) := by
  simpa [hen, hv, hr, full_iff.mpr hr] using stfDestuff_cases s b

/-- One more bit of a run short of the trigger is counted. -/
theorem stfDestuff_counts (hr : s.run b ≠ 0) (hlt : (s.run b).toNat < 5) :
    stfDestuff s b = (.data, s.setRun b (s.run b + 1)) := by
  have hf : s.full b = false := full_eq_false_iff.mpr fun h => by simp [h] at hlt
  have h0 : ¬ s.run b = 0#3 := hr
  simpa [hen, hv, h0, hf, countRun_below hlt] using stfDestuff_cases s b

end

/-- A violation answers with the flag set and the runs kept. 41_stuffing.md R146. -/
theorem stfDestuff_of_violation {s : StuffState} {b : Bit} (h : (stfDestuff s b).1 = .violation) :
    s.en = true ∧ stfDestuff s b = (.violation, { s with viol := true }) := by
  rcases stfDestuff_cases s b with
    ⟨-, e⟩ | ⟨hen, hv, e⟩ | ⟨hen, -, ⟨-, -, e⟩ | ⟨-, -, e⟩ | ⟨-, -, e⟩ | ⟨-, -, e⟩⟩
  · simp [e] at h
  · exact ⟨hen, by rw [e, ← hv]⟩
  · simp [e] at h
  · simp [e] at h
  · exact ⟨hen, e⟩
  · simp [e] at h

/-- A bit classified while stuffing is on leaves a run of its own polarity. 41_stuffing.md R144. -/
theorem stfDestuff_run_ne_zero {s : StuffState} {b : Bit} (hen : s.en = true) (hv : s.viol = false) :
    (stfDestuff s b).2.run b ≠ 0 := by
  rcases stfDestuff_cases s b with
    ⟨h, -⟩ | ⟨-, h, -⟩ | ⟨-, -, ⟨-, -, e⟩ | ⟨-, -, e⟩ | ⟨hr, -, e⟩ | ⟨hr, -, e⟩⟩
  · simp [hen] at h
  · simp [hv] at h
  · simp [e]
  · simp [e]
  · rw [e]; exact hr
  · rw [e, StuffState.countRun, setRun_run]
    generalize s.run b = r at hr
    revert r; decide

/-! ### The encode direction, an equation for each case (41_stuffing.md R148) -/

section
variable {s : StuffState} {b : Bit}

theorem stfStuff_disabled (hen : s.en = false) : stfStuff s b = ([⟨b, false⟩], s) := if_pos hen

variable (hen : s.en = true)
include hen

theorem stfStuff_seeds (hr : s.run b = 0) : stfStuff s b = ([⟨b, false⟩], s.seed b) := by
  simpa [hen, hr] using stfStuff_cases s b

/-- The bit that fills a run, or meets a full one, is followed by a stuff bit. -/
theorem stfStuff_inserts (hr : 4 ≤ (s.run b).toNat) :
    stfStuff s b = ([⟨b, false⟩, ⟨!b, true⟩], (s.seed (!b)).bumpTot (!b)) := by
  have h0 : ¬ s.run b = 0#3 := fun h => by simp [h] at hr
  simpa [hen, h0, hr, Nat.not_lt.mpr hr] using stfStuff_cases s b

theorem stfStuff_counts (hr : s.run b ≠ 0) (hlt : (s.run b).toNat < 4) :
    stfStuff s b = ([⟨b, false⟩], s.setRun b (s.run b + 1)) := by
  have h0 : ¬ s.run b = 0#3 := hr
  simpa [hen, h0, hlt, Nat.not_le.mpr hlt] using stfStuff_cases s b

/-- A bit stuffed while stuffing is on leaves a run: its own, or that of the stuff bit after it. -/
theorem stfStuff_exists_run_ne_zero : ∃ c, (stfStuff s b).2.run c ≠ 0 := by
  rcases stfStuff_cases s b with ⟨h, -⟩ | ⟨-, ⟨-, e⟩ | ⟨-, e⟩ | ⟨-, hlt, e⟩⟩
  · simp [hen] at h
  · exact ⟨b, by simp [e]⟩
  · exact ⟨!b, by simp [e]⟩
  · refine ⟨b, ?_⟩
    rw [e, setRun_run]
    generalize s.run b = r at hlt
    revert r; decide

end

/-! ### The commands -/

/-- `STF_DESTUFF` answers the class and writes the engine. 41_stuffing.md R143. -/
theorem exec_stfDestuff {s : State} {b : Bit} {c : StuffClass} {e : StuffState} (h : stfDestuff s.stfu b = (c, e)) :
    exec (.stfDestuff b) s =
      .next { s with stfu := e, responses := s.responses ++ [⟨.ok, .destuffed c⟩] } := by
  rw [exec, execStfDestuff, h]; rfl

/-- `STF_STUFF` answers the bits emitted and writes the engine. 41_stuffing.md R150. -/
theorem exec_stfStuff {s : State} {b : Bit} {out : List StuffBit} {e : StuffState} (h : stfStuff s.stfu b = (out, e)) :
    exec (.stfStuff b) s =
      .next { s with stfu := e, responses := s.responses ++ [⟨.ok, .stuffed out⟩] } := by
  rw [exec, execStfStuff, h]; rfl

/-- On a violated engine `STF_DESTUFF`s only answer. 41_stuffing.md R146. -/
theorem runAll_stfDestuff_violated {s : State} (hen : s.stfu.en = true) (hv : s.stfu.viol = true) (bs : List Bit) :
    runAll (bs.map .stfDestuff) s =
      some { s with responses := s.responses ++ bs.map fun _ => ⟨.ok, .destuffed .violation⟩ } := by
  induction bs generalizing s with
  | nil => simp [runAll]
  | cons b bs ih =>
    simp only [List.map_cons, runAll, exec_stfDestuff (stfDestuff_violated hen hv)]
    refine (ih ?_ ?_).trans ?_
    · exact hen
    · exact hv
    · rw [List.append_assoc]; rfl

/-! ### Destuffing a stuffed sequence (41_stuffing.md R157) -/

/-- The class that the decode direction is to answer for a bit of the encode direction. -/
def StuffBit.cls (b : StuffBit) : StuffClass := if b.isStuff then .stuff else .data

/-- Classing goes on with the engine that the bits before leave. -/
theorem destuffClasses_append (s : StuffState) (xs ys : List Bit) :
    destuffClasses s (xs ++ ys) =
      ((destuffClasses s xs).1 ++ (destuffClasses (destuffClasses s xs).2 ys).1,
        (destuffClasses (destuffClasses s xs).2 ys).2) := by
  induction xs generalizing s with
  | nil => rfl
  | cons x xs ih => simp only [List.cons_append, destuffClasses, ih]

/-- Where no class is a violation, destuffing drops exactly the bits classed `STUFF`. 41_stuffing.md R155. -/
theorem destuffBits_of_classes {s : StuffState} {ys : List StuffBit}
    (h : (destuffClasses s (ys.map StuffBit.bit)).1 = ys.map StuffBit.cls) :
    destuffBits s (ys.map StuffBit.bit) = some ((ys.filter fun y => !y.isStuff).map StuffBit.bit) := by
  induction ys generalizing s with
  | nil => rfl
  | cons y ys ih =>
    rcases hy : stfDestuff s y.bit with ⟨c, t⟩
    simp only [List.map_cons, destuffClasses, hy, List.cons.injEq] at h
    obtain ⟨rfl, hrest⟩ := h
    cases hstuff : y.isStuff <;> simp [destuffBits, hy, StuffBit.cls, hstuff, ih hrest]

/-- An engine that only the encode direction has run: one polarity at most has a run, each run is short of the
trigger, and no violation has been seen. 41_stuffing.md R148. -/
structure StuffState.Encoding (s : StuffState) : Prop where
  oneRun : s.OneRun
  run_le : ∀ b, (s.run b).toNat ≤ 4
  viol : s.viol = false

theorem StuffState.fresh_encoding : StuffState.fresh.Encoding := ⟨by decide, by decide, rfl⟩

theorem StuffState.Encoding.run_ne_five {s : StuffState} (h : s.Encoding) (b : Bit) : s.run b ≠ 5 := fun e => by
  have := h.run_le b
  simp [e] at this

theorem StuffState.OneRun.other_eq_zero {s : StuffState} (h : s.OneRun) {b : Bit} (hb : s.run b ≠ 0) :
    s.run (!b) = 0 := by
  cases b
  · exact h.resolve_left hb
  · exact h.resolve_right hb

theorem StuffState.Encoding.seed {s : StuffState} (h : s.Encoding) (b : Bit) : (s.seed b).Encoding where
  oneRun := seed_oneRun s b
  run_le := by cases b <;> simp [StuffState.seed, StuffState.run]
  viol := (seed_viol s b).trans h.viol

theorem StuffState.Encoding.bumpTot {s : StuffState} (h : s.Encoding) (b : Bit) : (s.bumpTot b).Encoding where
  oneRun := by simpa [StuffState.OneRun] using h.oneRun
  run_le := by simpa using h.run_le
  viol := (bumpTot_viol s b).trans h.viol

theorem StuffState.Encoding.setRun {s : StuffState} (h : s.Encoding) {b : Bit} (hb : s.run b ≠ 0) {n : BitVec 3}
    (hn : n.toNat ≤ 4) : (s.setRun b n).Encoding where
  oneRun := setRun_oneRun h.oneRun hb n
  run_le c := by
    rcases Bool.eq_or_eq_not c b with rfl | rfl
    · rwa [setRun_run]
    · rw [setRun_run_not]; exact h.run_le _
  viol := (setRun_viol s b n).trans h.viol

theorem toNat_run_succ_le {r : BitVec 3} (h : r.toNat < 4) : (r + 1).toNat ≤ 4 := by
  revert r; decide

/-- The encode direction keeps its engine so. 41_stuffing.md R148. -/
theorem stfStuff_encoding {s : StuffState} (h : s.Encoding) (b : Bit) : (stfStuff s b).2.Encoding := by
  rcases stfStuff_cases s b with ⟨-, e⟩ | ⟨-, ⟨-, e⟩ | ⟨-, e⟩ | ⟨hr, hlt, e⟩⟩ <;> rw [e]
  · exact h
  · exact h.seed b
  · exact (h.seed (!b)).bumpTot (!b)
  · exact h.setRun hr (toNat_run_succ_le hlt)

/-- The bits emitted for one bit are classed as emitted, and leave the decode direction the engine that they left
the encode direction. 41_stuffing.md R157. -/
theorem StuffState.Encoding.destuffs_stfStuff {s : StuffState} (h : s.Encoding) (b : Bit) :
    destuffClasses s ((stfStuff s b).1.map StuffBit.bit) =
      ((stfStuff s b).1.map StuffBit.cls, (stfStuff s b).2) := by
  rcases stfStuff_cases s b with ⟨hen, e⟩ | ⟨hen, ⟨hr, e⟩ | ⟨h4, e⟩ | ⟨hr, hlt, e⟩⟩ <;> rw [e]
  · simp [destuffClasses, stfDestuff_disabled hen, StuffBit.cls]
  · simp [destuffClasses, stfDestuff_seeds hen h.viol hr (h.run_ne_five _), StuffBit.cls]
  · -- the run is 4: the bit fills it, and the bit after it is the stuff bit of a full run
    have hr : s.run b = 4 := BitVec.eq_of_toNat_eq (Nat.le_antisymm (h.run_le b) h4)
    have hr0 : s.run b ≠ 0 := by simp [hr]
    have hfill : stfDestuff s b = (.data, s.setRun b 5) := by
      rw [stfDestuff_counts hen h.viol hr0 (by simp [hr]), hr]; rfl
    have hstuff := stfDestuff_stuff (s := s.setRun b 5) (b := !b) ((setRun_en ..).trans hen)
      ((setRun_viol ..).trans h.viol) ((setRun_run_not ..).trans (h.oneRun.other_eq_zero hr0)) (by simp)
    have hseed : (s.setRun b 5).seed (!b) = s.seed (!b) := by cases b <;> rfl
    simp only [List.map_cons, List.map_nil, destuffClasses, hfill, hstuff, hseed]
    rfl
  · simp [destuffClasses, stfDestuff_counts hen h.viol hr (by omega), StuffBit.cls]

/-- Over a sequence the decode direction classes every bit as the encode direction emitted it, and the two
engines agree at the end. 41_stuffing.md R157. -/
theorem StuffState.Encoding.destuffs_stuffBits {s : StuffState} (h : s.Encoding) (xs : List Bit) :
    destuffClasses s ((stuffBits s xs).1.map StuffBit.bit) =
      ((stuffBits s xs).1.map StuffBit.cls, (stuffBits s xs).2) := by
  induction xs generalizing s with
  | nil => rfl
  | cons x xs ih =>
    simp only [stuffBits, List.map_append, destuffClasses_append, h.destuffs_stfStuff x, ih (stfStuff_encoding h x)]

theorem destuffClasses_stuffSeq (x : List Bit) :
    (destuffClasses .fresh ((stuffSeq x).map StuffBit.bit)).1 = (stuffSeq x).map StuffBit.cls :=
  congrArg Prod.fst (StuffState.fresh_encoding.destuffs_stuffBits x)

/-! ### Six identical bits violate (41_stuffing.md R158) -/

theorem destuffClasses_bounded {s : StuffState} (h : s.Bounded) (xs : List Bit) : (destuffClasses s xs).2.Bounded := by
  induction xs generalizing s with
  | nil => exact h
  | cons x xs ih => exact ih (stfDestuff_bounded h x)

/-- A bit either violates or is one more of its run. -/
theorem stfDestuff_violates_or_counts {s : StuffState} (h : s.Bounded) (hen : s.en = true) (b : Bit) :
    (stfDestuff s b).1 = .violation ∨ ((stfDestuff s b).2.run b).toNat = (s.run b).toNat + 1 := by
  rcases stfDestuff_cases s b with
    ⟨hoff, -⟩ | ⟨-, -, e⟩ | ⟨-, -, ⟨hr, -, e⟩ | ⟨hr, -, e⟩ | ⟨-, -, e⟩ | ⟨-, hf, e⟩⟩
  · simp [hen] at hoff
  · exact .inl (by rw [e])
  · exact .inr (by simp [e, hr])
  · exact .inr (by simp [e, hr])
  · exact .inl (by rw [e])
  · have hne := full_eq_false_iff.mp hf
    have hlt : (s.run b).toNat < 5 :=
      Nat.lt_of_le_of_ne (h.run_le b) fun h5 => hne (BitVec.eq_of_toNat_eq h5)
    refine .inr ?_
    rw [e, countRun_below hlt, setRun_run, BitVec.toNat_add_of_lt (by simp; omega)]
    rfl

/-- Enough equal bits to pass the trigger hold a violation. -/
theorem violation_mem_of_replicate {s : StuffState} (h : s.Bounded) (hen : s.en = true) (b : Bit) (n : Nat)
    (hn : 5 < (s.run b).toNat + n) : .violation ∈ (destuffClasses s (List.replicate n b)).1 := by
  induction n generalizing s with
  | zero => exact absurd (h.run_le b) (by omega)
  | succ n ih =>
    rw [List.replicate_succ, destuffClasses, List.mem_cons]
    rcases stfDestuff_violates_or_counts h hen b with hv | hcount
    · exact .inl hv.symm
    · exact .inr (ih (stfDestuff_bounded h b) ((stfDestuff_en s b).trans hen) (by omega))

end Sys2Proof.Machine

namespace Sys2Proof.Proofs

open Sys2Proof.Machine

/-- Settles O28: the decode direction follows the encode direction's engine bit for bit, so its classes are the
insertion marks, and the bits left are those given. -/
theorem destuffingInvertsStuffing : Obligations.DestuffingInvertsStuffing := by
  intro x
  have hclasses := destuffClasses_stuffSeq x
  refine ⟨?_, hclasses⟩
  rw [destuffSeq, destuffBits_of_classes hclasses]
  exact congrArg some (stuffBits_data .fresh x)

/-- Settles O24: an equation of the decode direction for each clause. -/
theorem stfDestuffClassifies : Obligations.StfDestuffClassifies := by
  intro b s
  simp only [runOf_eq_run, withRuns_one_zero, withRuns_other_kept, withTotal_eq_bumpTot]
  refine ⟨fun hen => exec_stfDestuff (stfDestuff_disabled hen),
    fun hen hv => exec_stfDestuff (stfDestuff_violated hen hv), fun hen hv h0 h1 => ⟨?_, ?_, ?_, ?_⟩⟩
  · exact fun hr hf => exec_stfDestuff (stfDestuff_stuff hen hv hr hf)
  · exact fun hr hf => exec_stfDestuff (stfDestuff_seeds hen hv hr hf)
  · exact fun hr => exec_stfDestuff (stfDestuff_violates hen hv hr)
  · intro hr hne
    have hle : (s.stfu.run b).toNat ≤ 5 := by cases b <;> assumption
    have hlt := Nat.lt_of_le_of_ne hle fun h5 => hne (BitVec.eq_of_toNat_eq h5)
    exact exec_stfDestuff (stfDestuff_counts hen hv hr hlt)

/-- Settles O25: an equation of the encode direction for each clause. -/
theorem stfStuffEmitsAndInserts : Obligations.StfStuffEmitsAndInserts := by
  intro b s
  simp only [runOf_eq_run, withRuns_one_zero, withRuns_other_kept, withTotal_eq_bumpTot]
  refine ⟨fun hen => exec_stfStuff (stfStuff_disabled hen), fun hen => ⟨?_, ?_, ?_⟩⟩
  · exact fun hr => exec_stfStuff (stfStuff_seeds hen hr)
  · exact fun hr => exec_stfStuff (stfStuff_inserts hen (by simp [hr]))
  · exact fun hr hlt => exec_stfStuff (stfStuff_counts hen hr hlt)

/-- Settles O26: a full run is stuffed like one of 4, and both directions keep the bound and count the bit. -/
theorem mixedDirectionsStayWithinTheTrigger : Obligations.MixedDirectionsStayWithinTheTrigger := by
  intro b s hb hen
  refine ⟨fun hr => ?_, fun t ht => ⟨exec_stfu_bounded ht hb, ?_⟩, fun t hv ht => ⟨exec_stfu_bounded ht hb, ?_⟩⟩
  · rw [withRuns_one_zero, withTotal_eq_bumpTot]
    exact exec_stfStuff (stfStuff_inserts hen (by rw [← runOf_eq_run, hr]; decide))
  · cases ht
    obtain ⟨c, hc⟩ := stfStuff_exists_run_ne_zero hen (b := b)
    cases c
    · exact .inl hc
    · exact .inr hc
  · cases ht
    exact stfDestuff_run_ne_zero hen hv

/-- Settles O27: the violating bit sets the flag alone, and the later bits find it set. -/
theorem stuffViolationIsSticky : Obligations.StuffViolationIsSticky := by
  intro b bs s h
  obtain ⟨hen, e⟩ := stfDestuff_of_violation h
  refine ⟨_, exec_stfDestuff e, rfl, ?_⟩
  refine runAll_stfDestuff_violated ?_ rfl bs
  exact hen

/-- Settles O29: six identical bits hold a violation whatever went before, and a stuffed sequence holds none. -/
theorem stuffedSequencesHaveNoRunOfSix : Obligations.StuffedSequencesHaveNoRunOfSix := by
  intro x front back b hx
  have hviol : StuffClass.violation ∈ (destuffClasses .fresh (front ++ List.replicate 6 b ++ back)).1 := by
    have hfront := destuffClasses_bounded (by decide : StuffState.fresh.Bounded) front
    have hsix := violation_mem_of_replicate hfront (destuffClasses_en .fresh front) b 6 (by omega)
    simp only [destuffClasses_append, List.mem_append]
    exact .inl (.inr hsix)
  rw [← hx, destuffClasses_stuffSeq] at hviol
  obtain ⟨y, -, hy⟩ := List.mem_map.mp hviol
  cases hs : y.isStuff <;> simp [StuffBit.cls, hs] at hy

/-- Settles O23: what the two commands write. -/
theorem stfResetAndEnableWriteTheirRegisters : Obligations.StfResetAndEnableWriteTheirRegisters :=
  ⟨fun _ => rfl, fun _ _ => rfl⟩

end Sys2Proof.Proofs
end

section
/-! PROOFS. What a `DEC_BIT` answers inside and at the start of a frame: the cases of a symbol and the actions of the
stages in the claims' terms (42_decoder.md R172 to R188). -/

namespace Sys2Proof.Machine

open Sys2Proof.Claims (DecBitGives IsData received)

/-! ### The answer to a symbol -/

section
variable {s : State} {v : Bit} {a : Bool} {p : Pos}

/-- Outside stage `ENDED` no free value is drawn, so a `DEC_BIT` answers what the symbol does to the decoder.
42_decoder.md R172, log 6. -/
theorem decBitGives_of_decodeSymbol {d : DecState} {cls : BitClass} {record : Option FrameRecord}
    (he : s.dec.stage ≠ .ended) (h : ∀ c, decodeSymbol s.dec v a p c = ⟨d, cls, record⟩) :
    DecBitGives s v a p d cls record := by
  rw [DecBitGives, exec, execDecBit, h, drawCount, if_neg he]
  rfl

/-- A data symbol is received, and then the stage acts on it: what `decodeSymbol_received` says of the decoder, with
the class and the record. 42_decoder.md R174, R176. -/
theorem decodeSymbol_isData {d : DecState} (a : Bool) (p : Pos) (c : BitClass) (hS : d.stage ∈ fieldStages)
    (hd : IsData d v) :
    decodeSymbol d v a p c =
      ⟨(stageAction (received d v a p) v p).1, .data, (stageAction (received d v a p) v p).2⟩ := by
  obtain ⟨hs, he, hf⟩ := mem_fieldStages.mp hS
  have hcov : d.stage.crcCovered = decide (d.stage.code.toNat ≤ Stage.data.code.toNat) := by
    cases d.stage <;> rfl
  rw [decodeSymbol_data v a p c hs he hf hd]
  cases a <;> simp [acceptData, deliver, recordBit, received, keepSymbol, diagnose, hcov]

/-- A `DEC_BIT` of a data symbol in a stage that fills a field answers what the stage does with the bit. -/
theorem decBitGives_of_stageAction {S : Stage} {d : DecState} {record : Option FrameRecord} (hd : IsData s.dec v)
    (hs : s.dec.stage = S) (hS : S ∈ fieldStages)
    (h : (received s.dec v a p).stage = S → stageAction (received s.dec v a p) v p = (d, record)) :
    DecBitGives s v a p d .data record := by
  subst hs
  obtain ⟨-, he, -⟩ := mem_fieldStages.mp hS
  exact decBitGives_of_decodeSymbol he fun c => by rw [decodeSymbol_isData a p c hS hd, h rfl]

end

/-! ### The stages' checks as values -/

/-- A one-bit register that holds 1, as a value. -/
theorem isOne_iff {c : Nat} (f : FieldReg 1 c) : f.isOne = true ↔ f.v = 1 := by
  rw [FieldReg.isOne]
  generalize f.v = x
  revert x; decide

/-- The remote-request bit is the RTR of the format received. 42_decoder.md R180. -/
theorem remote_iff (f : FieldRegs) :
    f.remote = true ↔ if f.ide.v = 1 then f.rtr.v = 1 else f.rtrSrr.v = 1 := by
  simp only [FieldRegs.remote, ← isOne_iff]
  split <;> rfl

/-- A count has reached a number as it has the number's register value. -/
theorem ite_count_eq {c k : Nat} {n : BitVec c} {S T : Stage} (hk : k < 2 ^ c) :
    (if n.toNat = k then S else T) = if n = BitVec.ofNat c k then S else T := by
  refine if_congr ?_ rfl rfl
  rw [← BitVec.toNat_inj, BitVec.toNat_ofNat, Nat.mod_eq_of_lt hk]

section
variable {d : DecState} {v : Bit} {p : Pos}

/-- The eleventh base-ID bit leaves the stage. 42_decoder.md R177. -/
theorem stageAction_arbitrationId (hs : d.stage = .arbitrationId) :
    stageAction d v p =
      ({ d with
        fields := { d.fields with base := d.fields.base.shift v }
        stage := if d.fields.base.n + 1 = 11 then .rtrOrSrr else .arbitrationId }, none) := by
  simp only [stageAction, hs, stageArbitrationId]
  rw [ite_count_eq (by decide)]
  rfl

/-- The eighteenth extended-ID bit leaves the stage. 42_decoder.md R179. -/
theorem stageAction_extendedId (hs : d.stage = .extendedId) :
    stageAction d v p =
      ({ d with
        fields := { d.fields with ext := d.fields.ext.shift v }
        stage := if d.fields.ext.n + 1 = 18 then .rtr else .extendedId }, none) := by
  simp only [stageAction, hs, stageExtendedId]
  rw [ite_count_eq (by decide)]
  rfl

/-- The first three DLC bits are only shifted in. 42_decoder.md R180. -/
theorem stageAction_dlc_earlier (hs : d.stage = .dlc) (hn : d.fields.dlc.n + 1 ≠ 4) :
    stageAction d v p = ({ d with fields := { d.fields with dlc := d.fields.dlc.shift v } }, none) := by
  have h4 : ¬ (d.fields.dlc.shift v).n.toNat = 4 := fun h => hn (BitVec.eq_of_toNat_eq h)
  simp only [stageAction, hs, stageDlc, if_neg h4]

/-- The fourth DLC bit leaves the stage and checks a remote request. 42_decoder.md R180. -/
theorem stageAction_dlc_fourth (hs : d.stage = .dlc) (hn : d.fields.dlc.n + 1 = 4) :
    stageAction d v p =
      ({ d with
        fields := { d.fields with dlc := d.fields.dlc.shift v }
        stage := if 0 < dlcEff (d.fields.dlc.shift v).v then .data else .crc
        viol := if (if d.fields.ide.v = 1 then d.fields.rtr.v = 1 else d.fields.rtrSrr.v = 1) ∧
            0 < (d.fields.dlc.shift v).v.toNat
          then d.viol ++ [⟨.rtrWithNonzeroDlc, .dlc, some p⟩] else d.viol }, none) := by
  have h4 : (d.fields.dlc.shift v).n.toNat = 4 := by rw [shift_n, hn]; rfl
  have hviol (c : Prop) [Decidable c] (e : Entry) :
      (d.viol ++ if c then [e] else []) = if c then d.viol ++ [e] else d.viol := by
    rw [apply_ite (d.viol ++ ·), List.append_nil]
  simp only [stageAction, hs, stageDlc, h4, if_true, Bool.and_eq_true, decide_eq_true_eq, remote_iff, violate_if,
    hviol]

/-- The first CRC bit finalizes the engine and caches its value. 42_decoder.md R182. -/
theorem stageAction_crc_first (hs : d.stage = .crc) (hn : d.fields.crcRx.n = 0) :
    stageAction d v p =
      ({ d with
        fields := { d.fields with crcRx := d.fields.crcRx.shift v }
        stage := if d.fields.crcRx.n + 1 = 15 then .crcDelimiter else .crc
        crc := crcFinalize d.crc
        crcCalc := (crcFinalize d.crc).value.setWidth 15
        crcCalcValid := true }, none) := by
  simp only [stageAction, hs, stageCrc, cacheCrc, if_pos hn]
  rw [ite_count_eq (by decide)]
  rfl

/-- The later CRC bits are only shifted in. 42_decoder.md R182. -/
theorem stageAction_crc_later (hs : d.stage = .crc) (hn : d.fields.crcRx.n ≠ 0) :
    stageAction d v p =
      ({ d with
        fields := { d.fields with crcRx := d.fields.crcRx.shift v }
        stage := if d.fields.crcRx.n + 1 = 15 then .crcDelimiter else .crc }, none) := by
  simp only [stageAction, hs, stageCrc, cacheCrc, if_neg hn]
  rw [ite_count_eq (by decide)]
  rfl

/-- The ACK slot is recorded, and a dominant one is a soft violation. 42_decoder.md R186. -/
theorem stageAction_ackSlot (hs : d.stage = .ackSlot) :
    stageAction d v p =
      ({ d with
        fields := { d.fields with ack := d.fields.ack.shift v }
        stage := .ackDelimiter
        viol := d.viol ++ if v then [] else [⟨.ackSlotDominant, .ackSlot, some p⟩] }, none) := by
  cases v <;> simp [stageAction, hs, stageAckSlot, violate]

/-- The ACK delimiter is recorded, and a dominant one is a soft violation. 42_decoder.md R186. -/
theorem stageAction_ackDelimiter (hs : d.stage = .ackDelimiter) :
    stageAction d v p =
      ({ d with
        fields := { d.fields with ackDel := d.fields.ackDel.shift v }
        stage := .eof
        viol := d.viol ++ if v then [] else [⟨.ackDelimDominant, .ackDelimiter, some p⟩] }, none) := by
  cases v <;> simp [stageAction, hs, stageAckDelimiter, violate]

/-- A recessive EOF bit is counted. 42_decoder.md R187. -/
theorem stageAction_eof_recessive (hs : d.stage = .eof) :
    stageAction d recessive p =
      ({ d with
        fields := { d.fields with eofN := d.fields.eofN + 1 }
        stage := if d.fields.eofN + 1 = 7 then .ifs else .eof }, none) := by
  simp only [stageAction, hs, stageEof, if_true]
  rw [ite_count_eq (by decide)]
  rfl

/-- A recessive IFS bit short of the third is counted. 42_decoder.md R188. -/
theorem stageAction_ifs_recessive (hs : d.stage = .ifs) (hn : d.fields.ifsN + 1 ≠ 3) :
    stageAction d recessive p = ({ d with fields := { d.fields with ifsN := d.fields.ifsN + 1 } }, none) := by
  have h3 : ¬ (d.fields.ifsN + 1).toNat = 3 := fun h => hn (BitVec.eq_of_toNat_eq h)
  simp only [stageAction, hs, stageIfs, if_true, if_neg h3]

/-- A dominant EOF or IFS bit fails the frame. 42_decoder.md R187, R188. -/
theorem stageAction_tail_dominant (hs : d.stage = .eof ∨ d.stage = .ifs) :
    stageAction d dominant p =
      (failFrame d (if d.stage = .eof then .eofDominant else .ifsDominant) d.stage p, none) := by
  rcases hs with hs | hs <;> rw [stageAction, hs] <;> rfl

end

end Sys2Proof.Machine

namespace Sys2Proof.Proofs

open Sys2Proof.Machine
open Sys2Proof.Claims (received)

/-- Settles O30: the starting bit is delivered in stage `SOF` to an engine that has counted nothing. -/
theorem sofStageSkipsIdleAndStartsFrames : Obligations.SofStageSkipsIdleAndStartsFrames := by
  intro a p s hs
  have he : s.dec.stage ≠ .ended := by simp [hs]
  refine ⟨decBitGives_of_decodeSymbol he fun c => decodeSymbol_idle a p c hs, fun hstf => ?_⟩
  refine decBitGives_of_decodeSymbol he fun c => ?_
  have hseed : (stfDestuff s.dec.stf dominant).2 = ⟨1, 0, 0, 0, true, false⟩ := by rw [hstf]; decide
  rw [decodeSymbol_start a p c hs, hseed]
  cases a <;> simp [acceptData, deliver, recordBit, stageAction, diagnose, hs, Stage.crcCovered]

/-- Settles O31: the case of a stuff bit, with its annotation and without. -/
theorem stuffBitIsDropped : Obligations.StuffBitIsDropped := by
  intro v a p s hS hen hc
  obtain ⟨hs, he, hf⟩ := hS
  refine decBitGives_of_decodeSymbol he fun c => ?_
  rw [decodeSymbol_stuff v a p c hs he hf hen hc]
  cases a <;> rfl

/-- Settles O32: the engine of a violation is the one before it with the flag set. -/
theorem stuffViolationEntersHardFail : Obligations.StuffViolationEntersHardFail := by
  intro v a p s hS hen hc
  obtain ⟨hs, he, hf⟩ := hS
  obtain ⟨-, e⟩ := stfDestuff_of_violation hc
  refine decBitGives_of_decodeSymbol he fun c => ?_
  rw [decodeSymbol_violation v a p c hs he hf hen hc, e]
  rfl

/-- Settles O33: the two identifier stages count their bits, and the five single bits move on at once. -/
theorem headerStagesFillTheirFields : Obligations.HeaderStagesFillTheirFields := by
  intro v a p s hd
  refine ⟨fun hs => ?_, fun hs => ?_, fun hs => ?_, fun hs => ?_, fun hs => ?_, fun hs => ?_, fun hs => ?_⟩ <;>
    refine decBitGives_of_stageAction hd hs (by decide) fun hr => ?_
  · exact stageAction_arbitrationId hr
  · rw [stageAction, hr]; rfl
  · rw [stageAction, hr]; rfl
  · exact stageAction_extendedId hr
  · rw [stageAction, hr]; rfl
  · rw [stageAction, hr]; rfl
  · rw [stageAction, hr]; rfl

/-- Settles O34: the fourth bit is told by the count. -/
theorem dlcStageClampsAndChecksRemote : Obligations.DlcStageClampsAndChecksRemote := by
  intro v a p s hd hs
  refine ⟨fun hn => ?_, fun hn => ?_⟩ <;> refine decBitGives_of_stageAction hd hs (by decide) fun hr => ?_
  · exact stageAction_dlc_earlier hr hn
  · exact stageAction_dlc_fourth hr hn

/-- Settles O35: the count is compared with eight times the clamped length. -/
theorem dataStageTakesTheClampedLength : Obligations.DataStageTakesTheClampedLength := by
  intro v a p s hd hs
  exact decBitGives_of_stageAction hd hs (by decide) fun hr => by rw [stageAction, hr]; rfl

/-- Settles O36: stage CRC is not covered, so the engine finalized is the one before the symbol. -/
theorem crcStageCachesOnFirstBit : Obligations.CrcStageCachesOnFirstBit := by
  intro v a p s hd hs
  have hcrc : (received s.dec v a p).crc = s.dec.crc := by rw [received, hs]; rfl
  refine ⟨fun hn => ?_, fun hn => ?_⟩ <;> refine decBitGives_of_stageAction hd hs (by decide) fun hr => ?_
  · rw [← hcrc]
    exact stageAction_crc_first hr hn
  · exact stageAction_crc_later hr hn

/-- Settles O37: the stage's three checks in their order. -/
theorem crcDelimiterChecksAndSwitchesStuffingOff : Obligations.CrcDelimiterChecksAndSwitchesStuffingOff := by
  intro v a p s hd hs
  refine decBitGives_of_stageAction hd hs (by decide) fun hr => ?_
  rw [stageAction, hr, stageCrcDelimiter_eq, ite_not]
  rfl

/-- Settles O38: each of the two stages moves on, with its entry on a dominant bit. -/
theorem ackStagesCheckRecessive : Obligations.AckStagesCheckRecessive := by
  intro v a p s hd
  refine ⟨fun hs => ?_, fun hs => ?_⟩ <;> refine decBitGives_of_stageAction hd hs (by decide) fun hr => ?_
  · exact stageAction_ackSlot hr
  · exact stageAction_ackDelimiter hr

/-- Settles O39: a recessive bit is counted, a dominant one fails the frame. -/
theorem tailStagesCountRecessiveAndFailOnDominant : Obligations.TailStagesCountRecessiveAndFailOnDominant := by
  intro a p s
  refine ⟨fun hs hd => ?_, fun hs hd hn => ?_, fun hs hd => ?_⟩
  · exact decBitGives_of_stageAction hd hs (by decide) fun hr => stageAction_eof_recessive hr
  · exact decBitGives_of_stageAction hd hs (by decide) fun hr => stageAction_ifs_recessive hr hn
  · have hS : s.dec.stage ∈ fieldStages := by rcases hs with hs | hs <;> rw [hs] <;> decide
    exact decBitGives_of_stageAction hd rfl hS fun _ => stageAction_tail_dominant hs

end Sys2Proof.Proofs
end

section
/-! PROOFS. How a frame ends outside its last bit: the record with a fatal or an internal entry, the scan, the end of
the stream and the abort (42_decoder.md R189 to R198; 60_exceptions.md R276, R277). -/

namespace Sys2Proof.Machine

open Sys2Proof.Claims (recordOf nextFrame entryShape)

/-! ### The record of a frame that ends -/

/-- The soft violations of a stage are soft. 60_exceptions.md R271, R275. -/
theorem cls_of_mem_softEntries {d : DecState} {S : Stage} {x : EntryCode × Stage} (hx : x ∈ d.softEntries S) :
    x.1.cls = .soft := by
  have hite {P : Prop} [Decidable P] {y : EntryCode × Stage} (h : x ∈ if P then [y] else []) : x = y := by
    split at h
    · exact List.mem_singleton.mp h
    · cases h
  simp only [DecState.softEntries, List.mem_append] at hx
  rcases hx with (((hx | hx) | hx) | hx) | hx <;> rw [hite hx] <;> rfl

/-- A list of entries whose shapes are soft violations holds soft entries only. -/
theorem cls_of_map_eq_softEntries {d : DecState} {S : Stage} {soft : List Entry}
    (h : soft.map entryShape = d.softEntries S) : ∀ x ∈ soft, x.code.cls = .soft := fun x hx =>
  cls_of_mem_softEntries (x := entryShape x) (h ▸ List.mem_map_of_mem hx)

/-- After soft entries a fatal one decides the outcome and is the primary entry. 60_exceptions.md R276, R277. -/
theorem outcome_of_fatal {soft : List Entry} {e : Entry} (hsoft : ∀ x ∈ soft, x.code.cls = .soft)
    (he : e.code.cls = .fatal) :
    outcomeOf (soft ++ [e]) = .fatalFailure ∧ primaryOf (soft ++ [e]) .fatalFailure = some e := by
  have hnone {k : EntryClass} (hk : k ≠ .soft) : soft.find? (Entry.hasClass k) = none :=
    List.find?_eq_none.mpr fun x hx => by simpa [Entry.hasClass, hsoft x hx] using hk.symm
  have hany {k : EntryClass} (hk : k ≠ .soft) : soft.any (Entry.hasClass k) = false :=
    List.any_eq_false.mpr fun x hx => by simpa [Entry.hasClass, hsoft x hx] using hk.symm
  constructor
  · simp [outcomeOf, hany, Entry.hasClass, he]
  · simp [primaryOf, hnone, Entry.hasClass, he]

/-- An internal entry decides the outcome, and is the primary entry where it is the only one of its class.
60_exceptions.md R276, R277. -/
theorem outcome_of_internal {viol : List Entry} {e : Entry} (hviol : ∀ x ∈ viol, x.code.cls ≠ .internal)
    (he : e.code.cls = .internal) :
    outcomeOf (viol ++ [e]) = .internalError ∧ primaryOf (viol ++ [e]) .internalError = some e := by
  have hnone : viol.find? (Entry.hasClass .internal) = none :=
    List.find?_eq_none.mpr fun x hx => by simpa [Entry.hasClass] using hviol x hx
  constructor
  · simp [outcomeOf, Entry.hasClass, he]
  · simp [primaryOf, hnone, Entry.hasClass, he]

/-- A frame that fails is not verified: its record has its violations as they are. 44_roundtrip.md R246. -/
theorem frameRecord_of_outcome {d : DecState} {o : FrameOutcome} {primary : Option Entry}
    (ho : outcomeOf d.viol = o) (hne : o ≠ .success) (hp : primaryOf d.viol o = primary) :
    frameRecord d = recordOf d o primary d.viol none := by
  have hverdict : frameVerdict d = (d.viol, o, none) := by
    rw [frameVerdict, ho]
    cases o with
    | success => exact absurd rfl hne
    | softFailure | fatalFailure | internalError => rfl
  simp only [frameRecord, hverdict, hp]
  rfl

/-- The record of a frame whose last entry is its one fatal entry. 60_exceptions.md R276, R277. -/
theorem frameRecord_of_fatal {d : DecState} {soft : List Entry} {e : Entry} (hviol : d.viol = soft ++ [e])
    (hsoft : ∀ x ∈ soft, x.code.cls = .soft) (he : e.code.cls = .fatal) :
    frameRecord d = recordOf d .fatalFailure (some e) d.viol none := by
  obtain ⟨ho, hp⟩ := outcome_of_fatal hsoft he
  exact frameRecord_of_outcome (hviol ▸ ho) (by decide) (hviol ▸ hp)

/-- The record of a frame that ends in `HARD_FAIL`: the fatal entry that led there is primary.
42_decoder.md R189, R196; 60_exceptions.md R278. -/
theorem DecState.Inv.frameRecord_of_hardFail {d d' : DecState} (h : d.Inv) (hs : d.stage = .hardFail)
    (hviol : d'.viol = d.viol) : frameRecord d' = recordOf d' .fatalFailure d.viol.getLast? d.viol none := by
  obtain ⟨-, -, soft, e, hv, he, -, hsoft⟩ := h.failed hs
  have hlast : d.viol.getLast? = some e := by rw [hv, List.getLast?_concat]
  rw [frameRecord_of_fatal (hviol.trans hv) (cls_of_map_eq_softEntries hsoft) he, hlast, hviol]

/-! ### The end of the stream -/

/-- `DEC_EOS` in a frame ends it, and outside `HARD_FAIL` records that the stream ended. 42_decoder.md R196. -/
theorem decodeEos_record {d : DecState} (hs : d.stage ≠ .sof) :
    (decodeEos d).2 =
      some (frameRecord { (if d.stage = .hardFail then d else violate d .streamEndedMidFrame d.stage d.last) with
        resync := .endOfStream, stage := .ended }) := by
  rw [decodeEos, if_neg hs]
  rfl

/-- `DEC_EOS` answers its record and leaves a fresh decoder. 42_decoder.md R196. -/
theorem exec_decEos {s : State} {record : Option FrameRecord} (h : s.dec.Inv) (hr : (decodeEos s.dec).2 = record) :
    exec .decEos s =
      .next { s with dec := nextFrame 0, responses := s.responses ++ [⟨.ok, .decEos record⟩] } := by
  rw [exec, execDecEos, decodeEos_dec h, hr]
  rfl

end Sys2Proof.Machine

namespace Sys2Proof.Proofs

open Sys2Proof.Machine
open Sys2Proof.Claims (DecBitGives)

/-- Settles O41: the three cases of the scan; by the invariant the last violation is the one fatal entry. -/
theorem hardFailScansForTenRecessiveBits : Obligations.HardFailScansForTenRecessiveBits := by
  intro v a p s h hs
  have hscan {d : DecState} {record : Option FrameRecord} (e : scan (keepSymbol s.dec v a p) v p = (d, record)) :
      DecBitGives s v a p d .resyncScan record :=
    decBitGives_of_decodeSymbol h.notEnded fun c => by rw [decodeSymbol_hardFail v a p c hs, e]
  rcases scan_cases (keepSymbol s.dec v a p) v p with ⟨hv, e⟩ | ⟨hv, hn, e⟩ | ⟨hv, hn, r, e, hr⟩
  · exact ⟨fun _ => hscan e, fun h1 => by simp [hv] at h1, fun h1 => by simp [hv] at h1⟩
  · exact ⟨fun h1 => by simp [hv] at h1, fun _ _ => hscan e, fun _ h9 => absurd h9 hn⟩
  · refine ⟨fun h1 => by simp [hv] at h1, fun _ h9 => absurd hn h9, fun _ _ => hscan (e.trans ?_)⟩
    rw [hr]
    exact congrArg (Prod.mk _ <| some ·) (h.frameRecord_of_hardFail hs rfl)

/-- Settles O42: the entry added mid-frame is the one fatal entry, after soft ones; in `HARD_FAIL` there is one. -/
theorem endOfStreamReportsUnfinishedFrames : Obligations.EndOfStreamReportsUnfinishedFrames := by
  intro s h
  refine ⟨fun hs => exec_decEos h ?_, fun hS => exec_decEos h ?_, fun hs => exec_decEos h ?_⟩
  · rw [decodeEos, if_pos hs]
  · obtain ⟨hs, -, hf⟩ := hS
    obtain ⟨-, -, -, -, hsoft⟩ := h.running hf
    rw [decodeEos_record hs, if_neg hf]
    exact congrArg some (frameRecord_of_fatal rfl (cls_of_map_eq_softEntries hsoft) rfl)
  · rw [decodeEos_record (by simp [hs]), if_pos hs]
    exact congrArg some (h.frameRecord_of_hardFail hs rfl)

/-- Settles O43: what `frame_init` writes. -/
theorem abortDiscardsTheFrame : Obligations.AbortDiscardsTheFrame := fun _ => rfl

/-- Settles O44: the class is the one drawn, and the entry added is the first internal one. -/
theorem endedStageIsAnInternalError : Obligations.EndedStageIsAnInternalError := by
  intro v a p s hs hviol
  obtain ⟨ho, hp⟩ := outcome_of_internal (e := ⟨.internalUnreachable, .ended, some p⟩) hviol rfl
  refine ⟨openClass s.free, ?_⟩
  have hrecord := frameRecord_of_outcome (d := violate s.dec .internalUnreachable .ended (some p)) ho (by decide) hp
  rw [exec, execDecBit, decodeSymbol_ended v a _ _ hs, drawCount, if_pos hs]
  simp only [internalUnreachable, finish]
  rw [hrecord]
  rfl

end Sys2Proof.Proofs
end

section
/-! PROOFS. The data register as the list of its bits, and the bytes read back from it (10_state.md R35; 20_memory.md
R64; 42_decoder.md R191). -/

namespace Sys2Proof.Machine

/-- Bits shifted into an empty register lie in it with the last one lowest. 10_state.md R35. -/
theorem getLsbD_foldl_shiftIn {w : Nat} (l : List Bit) (i : Nat) :
    (l.foldl shiftIn (0 : BitVec w)).getLsbD i = (decide (i < w) && l.reverse.getD i false) := by
  induction l using List.reverseRecOn generalizing i with
  | nil => simp
  | append_singleton l b ih =>
    rw [List.foldl_append, List.foldl_cons, List.foldl_nil, getLsbD_shiftIn]
    cases i with
    | zero => simp
    | succ i =>
      rw [ih]
      by_cases hi : i + 1 < w
      · simp [hi, Nat.lt_of_succ_lt hi]
      · simp [hi]

/-- A field's bits in wire order, read from the last, are its bits from the least significant. 00_scope.md R12. -/
theorem getElem?_reverse_bitsMsb {w : Nat} (v : BitVec w) (n i : Nat) (hi : i < n) :
    (bitsMsb v n).reverse[i]? = some (v.getLsbD i) := by
  induction n with
  | zero => omega
  | succ n ih =>
    rw [bitsMsb, List.reverse_cons]
    by_cases h : i < n
    · rw [List.getElem?_append_left (by simpa [length_bitsMsb] using h), ih h]
    · obtain rfl : i = n := by omega
      rw [List.getElem?_append_right (by simp [length_bitsMsb])]
      simp [length_bitsMsb]

/-- The wire bits of bytes, eight each. -/
theorem length_flatMap_bitsMsb (bytes : List Byte) :
    (bytes.flatMap fun b => bitsMsb b 8).length = 8 * bytes.length := by
  simp [List.length_flatMap, length_bitsMsb, Nat.mul_comm]

/-- A byte with `back` bytes and `extra` bits behind it is read back from the register. 42_decoder.md R191. -/
theorem dataByte_foldl_shiftIn {front back : List Byte} {b : Byte} {extra : List Bit}
    (h : 8 * (front ++ b :: back).length + extra.length ≤ 64) :
    dataByte ((((front ++ b :: back).flatMap fun b => bitsMsb b 8) ++ extra).foldl shiftIn 0)
      (front ++ b :: back).length extra.length front.length = b := by
  have hrev : (((front ++ b :: back).flatMap fun b => bitsMsb b 8) ++ extra).reverse =
      (extra.reverse ++ (back.flatMap fun b => bitsMsb b 8).reverse) ++
        ((bitsMsb b 8).reverse ++ (front.flatMap fun b => bitsMsb b 8).reverse) := by
    simp
  have hbehind : (extra.reverse ++ (back.flatMap fun b => bitsMsb b 8).reverse).length =
      extra.length + 8 * back.length := by
    rw [List.length_append, List.length_reverse, List.length_reverse, length_flatMap_bitsMsb]
  have hback : (front ++ b :: back).length - 1 - front.length = back.length := by simp
  refine BitVec.eq_of_getLsbD_eq fun j hj => ?_
  have hfits : extra.length + 8 * back.length + j < 64 := by simp at h; omega
  have hbit : (bitsMsb b 8).reverse[j]? = some (b.getLsbD j) := getElem?_reverse_bitsMsb b 8 j hj
  rw [dataByte, hback, BitVec.getLsbD_setWidth, BitVec.getLsbD_ushiftRight, getLsbD_foldl_shiftIn, hrev,
    List.getD_eq_getElem?_getD, List.getElem?_append_right (by omega), hbehind, Nat.add_sub_cancel_left,
    List.getElem?_append_left (by simpa [length_bitsMsb] using hj), hbit]
  simp [hj, hfits]

end Sys2Proof.Machine

namespace Sys2Proof.Proofs

open Sys2Proof.Machine

/-- Settles O46: byte for byte, each with the bytes after it and the further bits behind it. -/
theorem completeDataBytesComeBackInOrder : Obligations.CompleteDataBytesComeBackInOrder := by
  intro bytes extra hextra hfits
  have hdiv : (8 * bytes.length + extra.length) / 8 = bytes.length := by omega
  have hmod : (8 * bytes.length + extra.length) % 8 = extra.length := by omega
  rw [dataBytes, hdiv, hmod]
  refine List.ext_getElem (by simp) fun i _ hi => ?_
  have hsplit : bytes = bytes.take i ++ bytes[i] :: bytes.drop (i + 1) := by simp
  have hbyte := dataByte_foldl_shiftIn (front := bytes.take i) (hsplit ▸ hfits)
  rw [← hsplit, List.length_take_of_le (Nat.le_of_lt hi)] at hbyte
  simpa using hbyte

end Sys2Proof.Proofs
end

section
/-! PROOFS. The encoder: the staging registers, the field values it writes, and the length of a frame
(43_encoder.md R221 to R230, R233; 20_memory.md R65). -/

namespace Sys2Proof.Machine

open Sys2Proof.Claims (headerBits)

/-! ### The staging registers -/

/-- `ENC_HDR` with a legal length writes its three registers. 43_encoder.md R221. -/
theorem exec_encHdr_of_le {len : BitVec 4} (h : len.toNat ≤ 8) (id : BitVec 29) (rtr : Bit) (s : State) :
    exec (.encHdr id rtr len) s =
      .next ({ s with enc := { s.enc with id := id, rtr := rtr, len := len } }.answer ⟨.ok, .empty⟩) :=
  if_neg (mt (badLen_iff len).mp (Nat.not_lt.mpr h))

/-- `ENC_HDR` with a length above 8 is rejected. 43_encoder.md R221. -/
theorem exec_encHdr_of_gt {len : BitVec 4} (h : 8 < len.toNat) (id : BitVec 29) (rtr : Bit) (s : State) :
    exec (.encHdr id rtr len) s = .next (s.answer ⟨.badOperand, .empty⟩) :=
  if_pos ((badLen_iff len).mpr h)

/-- `ENC_BYTE` writes the byte at its index and keeps the others. 43_encoder.md R223. -/
theorem getElem_stageByte (e : EncState) (index : BitVec 3) (byte : Byte) (k : Nat) (hk : k < 8) :
    (stageByte e index byte).data[k] = if k = index.toNat then byte else e.data[k] := by
  simp only [stageByte, Vector.getElem_set, eq_comm]

/-- The staged message has the staged length. 43_encoder.md R225. -/
theorem length_message {e : EncState} (h : e.len.toNat ≤ 8) : e.message.length = e.len.toNat := by
  simp [EncState.message, h]

/-- The staged message holds the staged bytes in order. 43_encoder.md R225. -/
theorem getElem?_message (e : EncState) {k : Nat} (hk : k < 8) (hlen : k < e.len.toNat) :
    e.message[k]? = some e.data[k] := by
  simp [EncState.message, hk, hlen]

/-! ### The field values -/

/-- The base-ID field of an extended identifier, as a number. 20_memory.md R65. -/
theorem toNat_baseIdOf (id : BitVec 29) : (baseIdOf id).toNat = id.toNat / 2 ^ 18 := by
  have hmask : (id &&& 0x1FFC0000#29) >>> 18 = (id >>> 18) &&& 0x7FF#29 := BitVec.ushiftRight_and_distrib ..
  have hlt : id.toNat / 2 ^ 18 < 2 ^ 11 := Nat.div_lt_of_lt_mul id.isLt
  calc (baseIdOf id).toNat = (id.toNat / 2 ^ 18 &&& (2 ^ 11 - 1)) % 2 ^ 11 := by
        rw [baseIdOf, hmask, BitVec.toNat_setWidth, BitVec.toNat_and, BitVec.toNat_ushiftRight,
          Nat.shiftRight_eq_div_pow]
        rfl
    _ = id.toNat / 2 ^ 18 := by
        rw [Nat.and_two_pow_sub_one_eq_mod, Nat.mod_mod, Nat.mod_eq_of_lt hlt]

/-- The extended-ID field, as a number. 20_memory.md R65. -/
theorem toNat_extIdOf (id : BitVec 29) : (extIdOf id).toNat = id.toNat % 2 ^ 18 :=
  calc (extIdOf id).toNat = (id.toNat &&& (2 ^ 18 - 1)) % 2 ^ 18 := by
        rw [extIdOf, BitVec.toNat_setWidth, BitVec.toNat_and]
        rfl
    _ = id.toNat % 2 ^ 18 := by rw [Nat.and_two_pow_sub_one_eq_mod, Nat.mod_mod]

/-- The two parts of an extended identifier join to it. 20_memory.md R65. -/
theorem toNat_join_baseIdOf_extIdOf (id : BitVec 29) :
    id.toNat = (baseIdOf id).toNat * 2 ^ 18 + (extIdOf id).toNat := by
  rw [toNat_baseIdOf, toNat_extIdOf, Nat.div_add_mod']

section
variable (id : BitVec 29) (rtr : Bool) (data : List Byte)

/-- The field values of the standard format. 43_encoder.md R222, R224. -/
theorem headerFields_standard (h : id.toNat ≤ 0x7FF) :
    headerFields id rtr data =
      { base := id.setWidth 11, rtrSrr := rtr, ide := false, ext := none, rtr := none, r1 := none, r0 := false,
        dlc := sentDlc rtr data, data := sentBytes rtr data, crc := 0 } :=
  if_pos (decide_eq_true h)

/-- The field values of the extended format. 43_encoder.md R222, R224. -/
theorem headerFields_extended (h : 0x7FF < id.toNat) :
    headerFields id rtr data =
      { base := baseIdOf id, rtrSrr := true, ide := true, ext := some (extIdOf id), rtr := some rtr,
        r1 := some false, r0 := false, dlc := sentDlc rtr data, data := sentBytes rtr data, crc := 0 } :=
  if_neg (mt of_decide_eq_true (Nat.not_le.mpr h))

/-- Both formats have the same R0, DLC and data. 43_encoder.md R222, R224, R233. -/
theorem headerFields_common :
    (headerFields id rtr data).r0 = false ∧ (headerFields id rtr data).dlc = sentDlc rtr data ∧
      (headerFields id rtr data).data = sentBytes rtr data := by
  rcases Nat.lt_or_ge 0x7FF id.toNat with h | h
  · rw [headerFields_extended id rtr data h]; exact ⟨rfl, rfl, rfl⟩
  · rw [headerFields_standard id rtr data h]; exact ⟨rfl, rfl, rfl⟩

/-- The encoder writes the header's field values, and the CRC over them. 43_encoder.md R226. -/
theorem fields_encodeFrame :
    (encodeFrame id rtr data).fields =
      { headerFields id rtr data with crc := frameCrc (headerFields id rtr data).wire } := rfl

/-! ### The length of a frame -/

/-- The destuffed bits from SOF through the last data byte, counted. 30_encoding.md R78, R79. -/
theorem length_headerBits :
    (headerBits id rtr data).length =
      (if id.toNat ≤ 0x7FF then 19 else 39) + 8 * (sentBytes rtr data).length := by
  rw [headerBits, ← sentBytes]
  simp only [List.length_append, apply_ite List.length, length_flatMap_bitsMsb, length_bitsMsb, List.length_cons,
    List.length_nil]
  split <;> rfl

theorem length_sentBytes_le : (sentBytes rtr data).length ≤ data.length := by
  cases rtr
  · exact Nat.le_refl _
  · exact Nat.zero_le _

end

/-- The stuff bits that an engine has counted, of both polarities. 10_state.md R24. -/
def StuffState.stuffCount (s : StuffState) : Nat := s.tot0.toNat + s.tot1.toNat

/-- A stuff bit is counted, while neither total can wrap. 41_stuffing.md R148. -/
theorem stuffCount_bumpTot {s : StuffState} (h : s.stuffCount + 1 < 2 ^ 16) (b : Bit) :
    (s.bumpTot b).stuffCount = s.stuffCount + 1 := by
  simp only [StuffState.stuffCount] at h
  cases b
  · change (s.tot0 + 1#16).toNat + s.tot1.toNat = s.tot0.toNat + s.tot1.toNat + 1
    bv_omega
  · change s.tot0.toNat + (s.tot1 + 1#16).toNat = s.tot0.toNat + s.tot1.toNat + 1
    bv_omega

@[simp] theorem stuffCount_seed (s : StuffState) (b : Bit) : (s.seed b).stuffCount = s.stuffCount := by
  simp [StuffState.stuffCount]

@[simp] theorem stuffCount_setRun (s : StuffState) (b : Bit) (n : BitVec 3) :
    (s.setRun b n).stuffCount = s.stuffCount := by simp [StuffState.stuffCount]

/-- For one bit, the bit and what the totals gained are emitted. 41_stuffing.md R148. -/
theorem length_stfStuff {s : StuffState} (h : s.stuffCount + 1 < 2 ^ 16) (b : Bit) :
    (stfStuff s b).1.length + s.stuffCount = 1 + (stfStuff s b).2.stuffCount ∧
      (stfStuff s b).2.stuffCount ≤ s.stuffCount + 1 := by
  rcases stfStuff_cases s b with ⟨-, e⟩ | ⟨-, ⟨-, e⟩ | ⟨-, e⟩ | ⟨-, -, e⟩⟩ <;> rw [e]
  · simp
  · simp
  · rw [stuffCount_bumpTot (by simpa using h), stuffCount_seed]
    refine ⟨?_, Nat.le_refl _⟩
    simp only [List.length_cons, List.length_nil]
    omega
  · simp

/-- Over a sequence, its bits and what the totals gained are emitted, while the totals cannot wrap.
43_encoder.md R230. -/
theorem length_stuffBits {s : StuffState} {xs : List Bit} (h : s.stuffCount + xs.length < 2 ^ 16) :
    (stuffBits s xs).1.length + s.stuffCount = xs.length + (stuffBits s xs).2.stuffCount := by
  induction xs generalizing s with
  | nil => rfl
  | cons x xs ih =>
    rw [List.length_cons] at h
    obtain ⟨hlength, hcount⟩ := length_stfStuff (s := s) (by omega) x
    have hrest := ih (s := (stfStuff s x).2) (by omega)
    simp only [stuffBits, List.length_append, List.length_cons]
    omega

theorem length_stuffSeq {x : List Bit} (h : x.length < 2 ^ 16) :
    (stuffSeq x).length = x.length + (stuffBits .fresh x).2.stuffCount :=
  length_stuffBits (s := .fresh) (by simpa [StuffState.stuffCount, StuffState.fresh] using h)

/-- Field by field the stuffing pass leaves the engine that all the bits leave. 43_encoder.md R227. -/
theorem engine_stuffFields (s : StuffState) (fs : List WireField) :
    (stuffFields s fs).2 = (stuffBits s (fs.flatMap WireField.bits)).2 := by
  induction fs generalizing s with
  | nil => rfl
  | cons f fs ih => simp only [stuffFields, List.flatMap_cons, stuffBits_append, ih]

/-- The totals of a frame are those of the engine that has stuffed the header and the CRC. 43_encoder.md R227. -/
theorem totals_encodeFrame (id : BitVec 29) (rtr : Bool) (data : List Byte) :
    (encodeFrame id rtr data).tot0.toNat + (encodeFrame id rtr data).tot1.toNat =
      (stuffBits .fresh
        (headerBits id rtr data ++ bitsMsb (encodeFrame id rtr data).fields.crc 15)).2.stuffCount := by
  have hengine := engine_stuffFields .fresh
    ((headerFields id rtr data).wire ++ [wireField .crc (encodeFrame id rtr data).fields.crc])
  rw [List.flatMap_append, bits_wire, List.flatMap_singleton, bits_wireField _ _ (by decide)] at hengine
  rw [← hengine]
  rfl

end Sys2Proof.Machine

namespace Sys2Proof.Proofs

open Sys2Proof.Machine
open Sys2Proof.Claims (headerBits)

/-- Settles O48: the two cases of the length, and the byte at the index. -/
theorem stagingCommandsWriteTheirRegisters : Obligations.StagingCommandsWriteTheirRegisters :=
  ⟨fun id rtr _ s h => exec_encHdr_of_le h id rtr s, fun id rtr _ s h => exec_encHdr_of_gt h id rtr s,
    fun index byte s => ⟨(stageByte s.enc index byte).data, rfl, getElem_stageByte s.enc index byte⟩⟩

/-- Settles O49: the data answered are the staged message. -/
theorem encRunEncodesTheStagedMessage : Obligations.EncRunEncodesTheStagedMessage := fun s h =>
  ⟨s.enc.message, rfl, length_message h, fun _ hk hlen => getElem?_message s.enc hk hlen⟩

/-- Settles O50: the field values of each format. -/
theorem encoderWritesTheFieldValues : Obligations.EncoderWritesTheFieldValues := by
  intro id rtr data f bytes
  obtain ⟨hr0, hdlc, hdata⟩ := headerFields_common id rtr data
  refine ⟨hr0, hdlc.trans (sentDlc_eq rtr data), hdata, fun h => ?standard, fun h => ?extended⟩
  case standard =>
    have hbase : (id.setWidth 11).toNat = id.toNat := by
      rw [BitVec.toNat_setWidth, Nat.mod_eq_of_lt (Nat.lt_succ_of_le h)]
    simp only [f, fields_encodeFrame, headerFields_standard id rtr data h, hbase, and_self]
  case extended =>
    simp only [f, fields_encodeFrame, headerFields_extended id rtr data h, true_and]
    exact ⟨extIdOf id, rfl, toNat_join_baseIdOf_extIdOf id⟩

/-- Settles O52: the frame is a stuffed sequence and the tail, and so short a sequence cannot wrap the totals. -/
theorem encodedLengthCountsStuffBits : Obligations.EncodedLengthCountsStuffBits := by
  intro id rtr data hlen r
  obtain ⟨-, hbits, -⟩ := encodedFrameIsStuffedHeaderCrcAndTail id rtr data
  obtain ⟨-, -, hdata⟩ := headerFields_common id rtr data
  rw [show r.fields.data = sentBytes rtr data from hdata]
  have hsent := length_sentBytes_le rtr data
  have htotals : r.tot0.toNat + r.tot1.toNat =
      (stuffBits .fresh (headerBits id rtr data ++ bitsMsb r.fields.crc 15)).2.stuffCount :=
    totals_encodeFrame id rtr data
  have hlength : (headerBits id rtr data ++ bitsMsb r.fields.crc 15).length =
      (if id.toNat ≤ 0x7FF then 19 else 39) + 8 * (sentBytes rtr data).length + 15 := by
    rw [List.length_append, length_headerBits, length_bitsMsb]
  have hstuffed := length_stuffSeq (x := headerBits id rtr data ++ bitsMsb r.fields.crc 15)
    (by rw [hlength]; split <;> omega)
  rw [hbits, List.length_append, hstuffed, ← htotals, hlength, List.length_replicate]
  split <;> omega

end Sys2Proof.Proofs
end

section
/-! PROOFS. O40: the third recessive IFS bit ends the frame with its record (42_decoder.md R188, R190; 44_roundtrip.md
R246, R248; 60_exceptions.md R276, R277). -/

namespace Sys2Proof.Machine

open Sys2Proof.Claims (IsData DecBitGives received recordOf nextFrame Reencodes reencodedSegments)

/-- The third recessive IFS bit ends the frame. 42_decoder.md R188. -/
theorem stageAction_ifs_third {d : DecState} {p : Pos} (hs : d.stage = .ifs) (hn : d.fields.ifsN = 2) :
    stageAction d recessive p =
      ({ frameInit d with seq := d.seq + 1 },
        some (frameRecord { d with fields := { d.fields with ifsN := 3 }, stage := .ended })) := by
  have h3 : d.fields.ifsN + 1 = 3 := by rw [hn]; rfl
  simp only [stageAction, hs, stageIfs, h3, if_true]
  rfl

/-- Soft violations alone give `SoftFailure`. 60_exceptions.md R276. -/
theorem outcome_of_soft {viol : List Entry} (hsoft : ∀ x ∈ viol, x.code.cls = .soft) (hne : viol ≠ []) :
    outcomeOf viol = .softFailure := by
  have hany {k : EntryClass} (hk : k ≠ .soft) : viol.any (Entry.hasClass k) = false :=
    List.any_eq_false.mpr fun x hx => by simpa [Entry.hasClass, hsoft x hx] using hk.symm
  simp [outcomeOf, hany, hne]

section
variable {d : DecState} (hviol : d.viol = [])
include hviol

/-- A frame without violation is verified. 44_roundtrip.md R246 to R248. -/
theorem frameVerdict_of_no_violation :
    frameVerdict d =
      if (verify d.fields.message d.raw).1 then ([], .success, some (verify d.fields.message d.raw).2)
      else ([⟨.roundtripMismatch, .ended, d.last⟩], .internalError, none) := by
  simp only [frameVerdict, hviol, outcomeOf]
  rfl

/-- The record of a frame that passes the verifier. 44_roundtrip.md R248. -/
theorem frameRecord_of_reencodes (h : Reencodes d) :
    frameRecord d = recordOf d .success none [] (some (reencodedSegments d)) := by
  have hverify : (verify d.fields.message d.raw).1 = true := decide_eq_true h
  simp only [frameRecord, frameVerdict_of_no_violation hviol, hverify, if_true]
  rfl

/-- The record of a frame that the verifier finds altered. 44_roundtrip.md R248. -/
theorem frameRecord_of_mismatch (h : ¬ Reencodes d) :
    frameRecord d =
      recordOf d .internalError (some ⟨.roundtripMismatch, .ended, d.last⟩)
        [⟨.roundtripMismatch, .ended, d.last⟩] none := by
  have hverify : (verify d.fields.message d.raw).1 = false := decide_eq_false h
  simp only [frameRecord, frameVerdict_of_no_violation hviol, hverify, Bool.false_eq_true, if_false]
  rfl

end

end Sys2Proof.Machine

namespace Sys2Proof.Proofs

open Sys2Proof.Machine
open Sys2Proof.Claims (DecBitGives received nextFrame)

/-- Settles O40: the record is that of the decoder with its last bit counted; by the invariant its violations are
soft. -/
theorem thirdIfsBitEmitsTheRecord : Obligations.ThirdIfsBitEmitsTheRecord := by
  intro a p s hinv hs hn d mismatch
  obtain ⟨-, -, -, hen, hsoft⟩ := hinv.running (by simp [hs])
  have hoff : s.dec.stf.en = false := by rw [hen, hs]; rfl
  have hgives {r : FrameRecord} (hr : frameRecord { d with stage := .ended } = r) :
      DecBitGives s true a p (nextFrame (s.dec.seq + 1)) .data (some r) := by
    subst hr
    exact decBitGives_of_stageAction (.inl hoff) hs (by decide) fun hstage => stageAction_ifs_third hstage hn
  refine ⟨fun hviol hre => hgives ?_, fun hviol hre => hgives ?_, fun hviol => hgives ?_⟩
  · exact frameRecord_of_reencodes (d := { d with stage := .ended }) hviol hre
  · exact frameRecord_of_mismatch (d := { d with stage := .ended }) hviol hre
  · have ho := outcome_of_soft (cls_of_map_eq_softEntries hsoft) hviol
    exact frameRecord_of_outcome (d := { d with stage := .ended }) ho (by decide) rfl

end Sys2Proof.Proofs
end

section
/-! PROOFS. A frame as its destuffed bits: the field registers that hold them, the message read from them, and the
values sent for them (30_encoding.md R78 to R82; 42_decoder.md R191, R193; 43_encoder.md R226 to R228). -/

namespace Sys2Proof.Machine

open Sys2Proof.Claims (headerBits)

/-! ### Registers and their bits -/

/-- Equal field bits are equal bits of the values. 00_scope.md R12. -/
theorem getLsbD_eq_of_bitsMsb {w x n : Nat} {v : BitVec w} {u : BitVec x} (h : bitsMsb v n = bitsMsb u n) {k : Nat}
    (hk : k < n) : v.getLsbD k = u.getLsbD k := by
  have hv := getElem?_reverse_bitsMsb v n k hk
  rw [h, getElem?_reverse_bitsMsb u n k hk] at hv
  exact (Option.some.inj hv).symm

/-- A value is determined by its bits. 00_scope.md R12. -/
theorem eq_of_bitsMsb {w : Nat} {v u : BitVec w} (h : bitsMsb v w = bitsMsb u w) : v = u :=
  BitVec.eq_of_getLsbD_eq fun _ hk => getLsbD_eq_of_bitsMsb h hk

/-- The bit of a one-bit register that has received it. 10_state.md R35. -/
theorem bitsMsb_of_received {c : Nat} {r : FieldReg 1 c} (h : r.n.toNat = 1) : bitsMsb r.v r.n.toNat = [r.isOne] := by
  rw [h]; rfl

/-- A field's bits are its upper bits and then its lower ones. -/
theorem bitsMsb_add {w : Nat} (v : BitVec w) (m n : Nat) : bitsMsb v (m + n) = bitsMsb (v >>> n) m ++ bitsMsb v n := by
  induction m with
  | zero => simp [bitsMsb]
  | succ m ih => rw [Nat.succ_add_eq_add_succ, Nat.add_succ, bitsMsb, ih, bitsMsb]; simp [Nat.add_comm]

/-- Bits shifted into an empty register are its bits. 10_state.md R35. -/
theorem bitsMsb_foldl_shiftIn {w : Nat} {l : List Bit} (h : l.length ≤ w) :
    bitsMsb (l.foldl shiftIn (0 : BitVec w)) l.length = l := by
  induction l using List.reverseRecOn with
  | nil => rfl
  | append_singleton l b ih =>
    rw [List.length_append, List.length_singleton] at h ⊢
    rw [List.foldl_append, List.foldl_cons, List.foldl_nil, bitsMsb_shiftIn _ _ _ (by omega), ih (by omega)]

/-! ### Data bytes -/

theorem length_dataBytes (v : BitVec 64) (n : Nat) : (dataBytes v n).length = n / 8 := by simp [dataBytes]

/-- The complete bytes depend on the received bits alone. 42_decoder.md R191. -/
theorem dataBytes_congr {v u : BitVec 64} {n : Nat} (h : bitsMsb v n = bitsMsb u n) : dataBytes v n = dataBytes u n :=
  List.map_congr_left fun i hi => BitVec.eq_of_getLsbD_eq fun j hj => by
    have hlt : n % 8 + 8 * (n / 8 - 1 - i) + j < n := by
      have := List.mem_range.mp hi
      omega
    simp only [dataByte, BitVec.getLsbD_setWidth, BitVec.getLsbD_ushiftRight, getLsbD_eq_of_bitsMsb h hlt]

/-- The bits of complete bytes are the received bits. 42_decoder.md R191, 20_memory.md R64. -/
theorem bits_dataBytes (v : BitVec 64) (k : Nat) :
    ((dataBytes v (8 * k)).flatMap fun b => bitsMsb b 8) = bitsMsb v (8 * k) := by
  have hbytes (k : Nat) : dataBytes v (8 * k) = (List.range k).map (dataByte v k 0) := by simp [dataBytes]
  rw [hbytes]
  induction k with
  | zero => rfl
  | succ k ih =>
    have hfirst : bitsMsb (dataByte v (k + 1) 0 0) 8 = bitsMsb (v >>> (8 * k)) 8 :=
      bitsMsb_congr _ _ _ fun j hj => by simp [dataByte, hj]
    have hrest : dataByte v (k + 1) 0 ∘ Nat.succ = dataByte v k 0 := funext fun i => by
      have hshift : k + 1 - 1 - (i + 1) = k - 1 - i := by omega
      simp only [Function.comp_apply, dataByte, hshift]
    rw [List.range_succ_eq_map, List.map_cons, List.flatMap_cons, List.map_map, hrest, ih, hfirst,
      show 8 * (k + 1) = 8 + 8 * k by omega, bitsMsb_add]

/-! ### Identifiers -/

/-- Joining is concatenation. 42_decoder.md R191. -/
theorem joinId_eq_append (base : BitVec 11) (ext : BitVec 18) : joinId base ext = base ++ ext := by
  refine BitVec.eq_of_getLsbD_eq fun k hk => ?_
  rw [joinId, BitVec.getLsbD_or, BitVec.getLsbD_append, BitVec.getLsbD_shiftLeft]
  by_cases h : k < 18
  · simp [h, hk]
  · simp only [BitVec.getLsbD_setWidth, BitVec.getLsbD_of_ge ext k (by omega), h, hk, decide_true, decide_false,
      Bool.not_false, Bool.true_and, Bool.and_false, Bool.or_false, if_false]
    rw [decide_eq_true (by omega : k - 18 < 29), Bool.true_and]

theorem toNat_joinId (base : BitVec 11) (ext : BitVec 18) :
    (joinId base ext).toNat = base.toNat * 2 ^ 18 + ext.toNat := by
  rw [joinId_eq_append, BitVec.toNat_append, ← Nat.shiftLeft_add_eq_or_of_lt ext.isLt, Nat.shiftLeft_eq]

/-- The two parts of an identifier, joined. 20_memory.md R65. -/
theorem joinId_baseIdOf_extIdOf (id : BitVec 29) : joinId (baseIdOf id) (extIdOf id) = id :=
  BitVec.eq_of_toNat_eq ((toNat_joinId _ _).trans (toNat_join_baseIdOf_extIdOf id).symm)

theorem baseIdOf_joinId (base : BitVec 11) (ext : BitVec 18) : baseIdOf (joinId base ext) = base := by
  refine BitVec.eq_of_toNat_eq ?_
  have := ext.isLt
  rw [toNat_baseIdOf, toNat_joinId]
  omega

theorem extIdOf_joinId (base : BitVec 11) (ext : BitVec 18) : extIdOf (joinId base ext) = ext := by
  refine BitVec.eq_of_toNat_eq ?_
  have := ext.isLt
  rw [toNat_extIdOf, toNat_joinId]
  omega

/-- An identifier of the standard format is its lower eleven bits. 43_encoder.md R222. -/
theorem setWidth_baseId {id : BitVec 29} (h : id.toNat ≤ 0x7FF) : (id.setWidth 11).setWidth 29 = id := by
  refine BitVec.eq_of_toNat_eq ?_
  rw [BitVec.toNat_setWidth, BitVec.toNat_setWidth]
  omega

/-! ### Destuffed frames -/

/-- The CRC of the covered bits. 30_encoding.md R82, 40_crc.md R131. -/
def coveredCrc (header : List Bit) : BitVec 15 := (crcFinalize (crcFeed .fresh header)).value.setWidth 15

/-- The destuffed bits of a frame: header and data, their CRC, and the tail. 30_encoding.md R78, R79. -/
def destuffedFrame (header : List Bit) : List Bit :=
  header ++ bitsMsb (coveredCrc header) 15 ++ List.replicate 13 recessive

/-- The cached CRC is that of the header delivered, told by its length. 42_decoder.md R182. -/
theorem DecState.CrcCovers.crcCalc_eq {d : DecState} (h : d.CrcCovers) (hn : d.fields.crcRx.n.toNat = 15)
    {header tail : List Bit} (hdst : d.dst = header ++ tail)
    (hlen : header.length = (if d.fields.ide.isOne then 39 else 19) + 8 * dlcEff d.fields.dlc.v) :
    d.crcCalc = coveredCrc header := by
  obtain ⟨covered, rest, hcovers, hcovered, hcalc⟩ := h.2.2 fun h0 => by simp [h0] at hn
  rw [hcalc, List.append_inj_left (hdst.symm.trans hcovers) (hlen.trans hcovered.symm)]
  rfl

/-- The bits sent for a header and its data: stuffed through the CRC, then the tail. 43_encoder.md R227, R228. -/
def stuffedFrame (header : List Bit) : List StuffBit :=
  stuffSeq (header ++ bitsMsb (coveredCrc header) 15) ++ List.replicate 13 ⟨recessive, false⟩

theorem crc_encodeFrame (id : BitVec 29) (rtr : Bool) (data : List Byte) :
    (encodeFrame id rtr data).fields.crc = coveredCrc (headerBits id rtr data) := by
  rw [fields_encodeFrame, frameCrc, foldl_crcField, crcNew_can, bits_wire]
  rfl

theorem bits_encodeFrame (id : BitVec 29) (rtr : Bool) (data : List Byte) :
    (encodeFrame id rtr data).bits = stuffedFrame (headerBits id rtr data) := by
  obtain ⟨-, hbits, -⟩ := Proofs.encodedFrameIsStuffedHeaderCrcAndTail id rtr data
  rw [stuffedFrame, ← crc_encodeFrame]
  exact hbits

theorem values_stuffedFrame (header : List Bit) :
    (stuffedFrame header).map StuffBit.bit =
      (stuffSeq (header ++ bitsMsb (coveredCrc header) 15)).map StuffBit.bit ++ List.replicate 13 recessive := by
  rw [stuffedFrame, List.map_append, List.map_replicate]

/-- Frames of equal values have the same header and data. -/
theorem eq_of_values_stuffedFrame {g h : List Bit}
    (heq : (stuffedFrame g).map StuffBit.bit = (stuffedFrame h).map StuffBit.bit) : g = h := by
  rw [values_stuffedFrame, values_stuffedFrame] at heq
  have hseq := List.append_cancel_right heq
  obtain ⟨hg, -⟩ := Proofs.destuffingInvertsStuffing (g ++ bitsMsb (coveredCrc g) 15)
  obtain ⟨hh, -⟩ := Proofs.destuffingInvertsStuffing (h ++ bitsMsb (coveredCrc h) 15)
  rw [hseq, hh] at hg
  exact (List.append_inj_left' (Option.some.inj hg) (by rw [length_bitsMsb, length_bitsMsb])).symm

/-! ### The registers of a frame sent -/

/-- A one-bit register that has received `b`. -/
def bitReg (b : Bit) : FieldReg 1 1 := ⟨BitVec.ofBool b, 1⟩

/-- The registers of a decoder that has received the encoder's field values and the recessive tail; a field that
the format does not have is empty. 30_encoding.md R109, 43_encoder.md R228. -/
def FrameFields.regs (g : FrameFields) : FieldRegs :=
  { base := ⟨g.base, 11⟩, rtrSrr := bitReg g.rtrSrr, ide := bitReg g.ide
    ext := g.ext.elim .zero fun e => ⟨e, 18⟩, rtr := g.rtr.elim .zero bitReg, r1 := g.r1.elim .zero bitReg
    r0 := bitReg g.r0, dlc := ⟨g.dlc, 4⟩
    data := ⟨(g.data.flatMap fun b => bitsMsb b 8).foldl shiftIn 0, BitVec.ofNat 7 (8 * g.data.length)⟩
    crcRx := ⟨g.crc, 15⟩, crcDel := bitReg recessive, ack := bitReg recessive, ackDel := bitReg recessive
    eofN := 7, ifsN := 3 }

@[simp] theorem isOne_bitReg (b : Bit) : (bitReg b).isOne = b := by cases b <;> rfl

@[simp] theorem gotOne_bitReg (b : Bit) : (bitReg b).gotOne = b := by cases b <;> rfl

@[simp] theorem bits_bitReg (b : Bit) : bitsMsb (bitReg b).v (bitReg b).n.toNat = [b] := by cases b <;> rfl

/-- The stages whose fields the CRC covers, SOF apart. 30_encoding.md R82. -/
def headerStages : List Stage :=
  [.arbitrationId, .rtrOrSrr, .ide, .extendedId, .rtr, .r1, .r0, .dlc, .data]

theorem fieldStages_eq :
    fieldStages = headerStages ++ [.crc, .crcDelimiter, .ackSlot, .ackDelimiter, .eof, .ifs] := rfl

/-- The bits that the CRC covers, as the registers hold them. 30_encoding.md R82. -/
def FieldRegs.header (f : FieldRegs) : List Bit := dominant :: headerStages.flatMap f.bitsOf

section
variable (id : BitVec 29) (rtr : Bool) {data : List Byte} (hlen : data.length ≤ 8)
include hlen

/-- The data bits sent, in the data register. 20_memory.md R64. -/
theorem bits_regs_data :
    (encodeFrame id rtr data).fields.regs.bitsOf .data = (sentBytes rtr data).flatMap fun b => bitsMsb b 8 := by
  have hsent := length_sentBytes_le rtr data
  have hn : (BitVec.ofNat 7 (8 * (sentBytes rtr data).length)).toNat =
      ((sentBytes rtr data).flatMap fun b => bitsMsb b 8).length := by
    rw [length_flatMap_bitsMsb, BitVec.toNat_ofNat]
    omega
  obtain ⟨-, -, hdata⟩ := headerFields_common id rtr data
  simp only [FieldRegs.bitsOf, FrameFields.regs, fields_encodeFrame, hdata, hn]
  exact bitsMsb_foldl_shiftIn (by rw [length_flatMap_bitsMsb]; omega)

/-- The header's bits are those of its registers. 30_encoding.md R78, R79, R82. -/
theorem headerBits_eq_regs :
    headerBits id rtr data = (encodeFrame id rtr data).fields.regs.header := by
  have hdata := bits_regs_data id rtr hlen
  rw [FieldRegs.header, headerStages, List.flatMap_cons]
  simp only [List.flatMap_cons, hdata]
  rcases Nat.lt_or_ge 0x7FF id.toNat with h | h
  · simp [headerBits, Nat.not_le.mpr h, FieldRegs.bitsOf, FrameFields.regs, fields_encodeFrame,
      headerFields_extended id rtr data h, sentDlc_eq, sentBytes, bits_baseIdOf, bits_extIdOf]
  · simp [headerBits, h, FieldRegs.bitsOf, FrameFields.regs, fields_encodeFrame,
      headerFields_standard id rtr data h, sentDlc_eq, sentBytes, bits_baseId, FieldReg.zero, bitsMsb]

/-- The destuffed frame is SOF and the bits of its registers. -/
theorem destuffedFrame_eq_regs :
    destuffedFrame (headerBits id rtr data) = dominant :: (encodeFrame id rtr data).fields.regs.receivedBits := by
  have hcrc := crc_encodeFrame id rtr data
  rw [destuffedFrame, ← hcrc, headerBits_eq_regs id rtr hlen, FieldRegs.header, receivedBits_eq, fieldStages_eq,
    List.flatMap_append]
  simp [FieldRegs.bitsOf, FrameFields.regs]

/-- The DLC sent counts the bytes sent. 43_encoder.md R224. -/
theorem dlcEff_sentDlc : dlcEff (sentDlc rtr data) = (sentBytes rtr data).length := by
  have hsent := length_sentBytes_le rtr data
  rw [sentDlc_eq, dlcEff, BitVec.toNat_ofNat]
  simp only [Config.maxDataBytes]
  omega

/-- Every field of a frame sent is full. 42_decoder.md R193. -/
theorem regs_countsAt_ended : (encodeFrame id rtr data).fields.regs.CountsAt .ended := by
  have hdata := congrArg List.length (bits_regs_data id rtr hlen)
  rw [length_flatMap_bitsMsb, ← dlcEff_sentDlc rtr hlen] at hdata
  rw [countsAt_iff]
  suffices hfull : ∀ T ∈ fieldStages, ((encodeFrame id rtr data).fields.regs.bitsOf T).length =
      (encodeFrame id rtr data).fields.regs.full T from fun T hT =>
    (filled_of_after (by revert hT; cases T <;> decide)).mpr (hfull T hT)
  simp only [fieldStages, List.forall_mem_cons, hdata]
  rcases Nat.lt_or_ge 0x7FF id.toNat with h | h
  · simp [FieldRegs.bitsOf, FieldRegs.full, FrameFields.regs, fields_encodeFrame, length_bitsMsb,
      headerFields_extended id rtr data h]
  · simp [FieldRegs.bitsOf, FieldRegs.full, FrameFields.regs, fields_encodeFrame, length_bitsMsb, FieldReg.zero,
      headerFields_standard id rtr data h]

/-- The message read from the registers of a frame sent is the message sent. 42_decoder.md R191, 43_encoder.md R232. -/
theorem message_regs :
    (encodeFrame id rtr data).fields.regs.message =
      ⟨id, decide (0x7FF < id.toNat), rtr, if rtr then [] else data⟩ := by
  have hsent := length_sentBytes_le rtr data
  have hbytes : dataBytes (encodeFrame id rtr data).fields.regs.data.v
      (encodeFrame id rtr data).fields.regs.data.n.toNat = sentBytes rtr data := by
    obtain ⟨-, -, hdata⟩ := headerFields_common id rtr data
    have h := Proofs.completeDataBytesComeBackInOrder (sentBytes rtr data) [] (by decide) (by simp; omega)
    have hn : (BitVec.ofNat 7 (8 * (sentBytes rtr data).length)).toNat = 8 * (sentBytes rtr data).length := by
      rw [BitVec.toNat_ofNat]; omega
    simpa [FrameFields.regs, fields_encodeFrame, hdata, hn] using h
  rw [FieldRegs.message, hbytes]
  rcases Nat.lt_or_ge 0x7FF id.toNat with h | h
  · simp [FrameFields.regs, fields_encodeFrame, headerFields_extended id rtr data h, joinId_baseIdOf_extIdOf, h,
      sentBytes]
  · simp [FrameFields.regs, fields_encodeFrame, headerFields_standard id rtr data h, setWidth_baseId h,
      Nat.not_lt.mpr h, sentBytes]

end

/-- A remote request is sent without its data. 43_encoder.md R233. -/
theorem encodeFrame_sentBytes (id : BitVec 29) (rtr : Bool) (data : List Byte) :
    encodeFrame id rtr (if rtr then [] else data) = encodeFrame id rtr data := by
  cases rtr <;> rfl

/-! ### Registers that hold the bits of a frame -/

/-- In a complete frame every field is full. -/
theorem length_bitsOf_ended {F : FieldRegs} {T : Stage} (hF : F.CountsAt .ended) (hT : T ∈ fieldStages) :
    (F.bitsOf T).length = F.full T :=
  (filled_of_after (by revert hT; cases T <;> decide)).mp (countsAt_iff.mp hF T hT)

section
variable {f F : FieldRegs} {S : Stage} (h : f.CountsAt S) (hF : F.CountsAt .ended)
include h hF

/-- How many bits a field takes depends on the earlier fields alone: IDE and DLC. 42_decoder.md R178 to R181. -/
theorem full_eq_of_earlier {T : Stage} (hT : T.code.toNat ≤ S.code.toNat)
    (hearlier : ∀ U ∈ fieldStages, U.code.toNat < T.code.toNat → f.bitsOf U = F.bitsOf U) :
    f.full T = F.full T := by
  have hide (hlt : Stage.ide.code.toNat < T.code.toNat) : f.ide.isOne = F.ide.isOne := by
    have hf := (filled_of_after (Nat.lt_of_lt_of_le hlt hT)).mp h.ide
    have hF := (filled_of_after (by decide)).mp hF.ide
    have hbits : bitsMsb f.ide.v f.ide.n.toNat = bitsMsb F.ide.v F.ide.n.toNat := hearlier .ide (by decide) hlt
    rw [bitsMsb_of_received hf, bitsMsb_of_received hF] at hbits
    exact List.singleton_inj.mp hbits
  have hdlc (hlt : Stage.dlc.code.toNat < T.code.toNat) : f.dlc.v = F.dlc.v := by
    have hf := (filled_of_after (Nat.lt_of_lt_of_le hlt hT)).mp h.dlc
    have hF := (filled_of_after (by decide)).mp hF.dlc
    have hbits : bitsMsb f.dlc.v f.dlc.n.toNat = bitsMsb F.dlc.v F.dlc.n.toNat := hearlier .dlc (by decide) hlt
    rw [hf, hF] at hbits
    exact eq_of_bitsMsb hbits
  cases T with
  | extendedId | rtr | r1 => simp only [FieldRegs.full, hide (by decide)]
  | data => simp only [FieldRegs.full, hdlc (by decide)]
  | _ => rfl

variable {rest : List Bit} (hbits : f.receivedBits ++ rest = F.receivedBits)
include hbits

/-- Registers whose bits are those of a complete frame so far hold its fields: each field in its turn takes as many
bits as the frame's. -/
theorem bitsOf_eq_of_receivedBits :
    ∀ T ∈ fieldStages, T.code.toNat < S.code.toNat → f.bitsOf T = F.bitsOf T := by
  intro T hT hlt
  induction hk : T.code.toNat using Nat.strong_induction_on generalizing T with
  | _ k ih =>
    subst hk
    have hearlier : ∀ U ∈ fieldStages, U.code.toNat < T.code.toNat → f.bitsOf U = F.bitsOf U := fun U hU hUT =>
      ih _ hUT U hU (Nat.lt_trans hUT hlt) rfl
    obtain ⟨before, after, hsplit, hbefore, -⟩ := fieldStages_split hT
    have hb : before.flatMap f.bitsOf = before.flatMap F.bitsOf :=
      List.flatMap_congr fun U hU => hearlier U (hsplit ▸ by simp [hU]) (hbefore U hU)
    rw [receivedBits_eq, receivedBits_eq, hsplit, List.flatMap_append, List.flatMap_append, List.flatMap_cons,
      List.flatMap_cons, hb, List.append_assoc, List.append_cancel_left_eq, List.append_assoc] at hbits
    refine List.append_inj_left hbits ?_
    rw [(filled_of_after hlt).mp (countsAt_iff.mp h T hT), length_bitsOf_ended hF hT,
      full_eq_of_earlier h hF (Nat.le_of_lt hlt) hearlier]

end

end Sys2Proof.Machine
end

section
/-! PROOFS. Reading a frame: symbols that the decoder takes as data and stuff bits one after another, and what its
registers hold after each (42_decoder.md R172 to R176; 44_roundtrip.md R254). -/

namespace Sys2Proof.Machine

open Sys2Proof.Claims (IsData received runAll symbolInstr nextFrame)

/-! ### Symbols read one after another -/

/-- The decoder takes a symbol as a stuff bit or as data, without a record: it keeps the symbol, and finds no fault
with an annotation that agrees. 42_decoder.md R172, R174. -/
structure DecState.Reads (d : DecState) (x : RawSymbol) (isStuff : Bool) (d' : DecState) : Prop where
  notEnded : d.stage ≠ .ended
  decodes : ∀ c, decodeSymbol d x.value x.annot x.pos c = ⟨d', if isStuff then .stuff else .data, none⟩
  raw : d'.raw = d.raw ++ [x]
  seq : d'.seq = d.seq
  diag : x.annot = isStuff → d'.diag = d.diag

/-- Symbols read one after another, each as the bit sent for it. -/
inductive DecState.ReadsAll : DecState → List RawSymbol → List StuffBit → DecState → Prop where
  | nil (d : DecState) : ReadsAll d [] [] d
  | cons {d d₁ d₂ : DecState} {x : RawSymbol} {xs : List RawSymbol} {y : StuffBit} {ys : List StuffBit}
      (hx : d.Reads x y.isStuff d₁) (hxs : ReadsAll d₁ xs ys d₂) : ReadsAll d (x :: xs) (y :: ys) d₂

section
variable {d d₁ d' : DecState} {xs : List RawSymbol} {ys : List StuffBit}

theorem DecState.ReadsAll.append {xs' : List RawSymbol} {ys' : List StuffBit} (h : d.ReadsAll xs ys d₁)
    (h' : d₁.ReadsAll xs' ys' d') : d.ReadsAll (xs ++ xs') (ys ++ ys') d' := by
  induction h with
  | nil => exact h'
  | cons hx _ ih => exact .cons hx (ih h')

theorem DecState.ReadsAll.raw (h : d.ReadsAll xs ys d') : d'.raw = d.raw ++ xs := by
  induction h with
  | nil => rw [List.append_nil]
  | cons hx _ ih => rw [ih, hx.raw, List.append_assoc, List.singleton_append]

theorem DecState.ReadsAll.seq (h : d.ReadsAll xs ys d') : d'.seq = d.seq := by
  induction h with
  | nil => rfl
  | cons hx _ ih => rw [ih, hx.seq]

/-- Annotations that agree with the frame leave no diagnostic. 42_decoder.md R174. -/
theorem DecState.ReadsAll.diag (h : d.ReadsAll xs ys d') (ha : xs.map RawSymbol.annot = ys.map StuffBit.isStuff) :
    d'.diag = d.diag := by
  induction h with
  | nil => rfl
  | cons hx _ ih =>
    obtain ⟨hhead, htail⟩ := List.cons_eq_cons.mp ha
    rw [ih htail, hx.diag hhead]

/-- Commands one after another. -/
theorem runAll_append (is js : List Instr) (s : State) :
    runAll (is ++ js) s = (runAll is s).bind (runAll js) := by
  induction is generalizing s with
  | nil => rfl
  | cons i is ih =>
    simp only [List.cons_append, runAll]
    cases exec i s with
    | next t => exact ih t
    | fault r => rfl
    | refused r => rfl

theorem runAll_singleton {i : Instr} {s t : State} (h : exec i s = .next t) : runAll [i] s = some t := by
  simp only [runAll, h]

/-- The `DEC_BIT`s of symbols read answer one response each, without a record, and write the decoder alone.
42_decoder.md R172. -/
theorem DecState.ReadsAll.runAll_symbols (h : d.ReadsAll xs ys d') {s : State} (hs : s.dec = d) :
    ∃ answers : List Response, (∀ r ∈ answers, ∃ cls stage, r = ⟨.ok, .decBit cls stage none⟩) ∧
      runAll (xs.map symbolInstr) s = some { s with dec := d', responses := s.responses ++ answers } := by
  induction h generalizing s with
  | nil d => exact ⟨[], by simp, by subst hs; simp [runAll]⟩
  | @cons d d₁ d₂ x xs y ys hx _ ih =>
    subst hs
    let answer : Response := ⟨.ok, .decBit (if y.isStuff then .stuff else .data) d₁.stage none⟩
    have hexec : exec (symbolInstr x) s = .next { s with dec := d₁, responses := s.responses ++ [answer] } :=
      decBitGives_of_decodeSymbol hx.notEnded hx.decodes
    obtain ⟨answers, hanswers, hrun⟩ := ih (s := { s with dec := d₁, responses := s.responses ++ [answer] }) rfl
    refine ⟨answer :: answers, List.forall_mem_cons.mpr ⟨⟨_, _, rfl⟩, hanswers⟩, ?_⟩
    simp only [List.map_cons, runAll, hexec, hrun, List.append_assoc, List.singleton_append]

end

/-! ### The bits still to come -/

section
variable {f F : FieldRegs} {S : Stage} {rest : List Bit} (hS : S ∈ fieldStages) (h : f.CountsAt S)
  (hF : F.CountsAt .ended) (hbits : f.receivedBits ++ rest = F.receivedBits)
include hS h hF hbits

/-- What a stage's field still takes, and the later fields, are the bits to come. -/
theorem bitsOf_append_rest :
    f.full S = F.full S ∧
      f.bitsOf S ++ rest =
        F.bitsOf S ++ (fieldStages.filter fun T => S.code.toNat < T.code.toNat).flatMap F.bitsOf := by
  have hearlier := bitsOf_eq_of_receivedBits h hF hbits
  refine ⟨full_eq_of_earlier h hF (Nat.le_refl _) hearlier, ?_⟩
  have hsplit : fieldStages = (fieldStages.filter fun T => T.code.toNat < S.code.toNat) ++
      S :: fieldStages.filter fun T => S.code.toNat < T.code.toNat := by
    revert hS; cases S <;> decide
  have hb : (fieldStages.filter fun T => T.code.toNat < S.code.toNat).flatMap f.bitsOf =
      (fieldStages.filter fun T => T.code.toNat < S.code.toNat).flatMap F.bitsOf :=
    List.flatMap_congr fun T hT => by
      obtain ⟨hmem, hlt⟩ := List.mem_filter.mp hT
      exact hearlier T hmem (of_decide_eq_true hlt)
  have ha : (fieldStages.filter fun T => S.code.toNat < T.code.toNat).flatMap f.bitsOf = [] :=
    List.flatMap_eq_nil_iff.mpr fun T hT => by
      obtain ⟨hmem, hlt⟩ := List.mem_filter.mp hT
      exact h.bitsOf_after hmem (of_decide_eq_true hlt)
  rw [receivedBits_eq, receivedBits_eq, hsplit, List.flatMap_append, List.flatMap_append, List.flatMap_cons,
    List.flatMap_cons, hb, ha, List.append_nil, List.append_assoc, List.append_cancel_left_eq] at hbits
  exact hbits

/-- The bits to come, counted. -/
theorem length_rest :
    (f.bitsOf S).length + rest.length =
      F.full S + ((fieldStages.filter fun T => S.code.toNat < T.code.toNat).map F.full).sum := by
  obtain ⟨-, hrest⟩ := bitsOf_append_rest hS h hF hbits
  have hlen := congrArg List.length hrest
  rw [List.length_append, List.length_append, List.length_flatMap, length_bitsOf_ended hF hS] at hlen
  rw [hlen, List.map_congr_left fun T hT => length_bitsOf_ended hF (List.mem_filter.mp hT).1]

/-- Through the CRC delimiter more than the twelve bits after it are to come, afterwards no more than they, and
before IFS more than its three. 30_encoding.md R78, R79. -/
theorem rest_bounds :
    (S.code.toNat ≤ Stage.crcDelimiter.code.toNat ↔ 12 < rest.length) ∧ (S ≠ .ifs → 3 < rest.length) := by
  have hlen := length_rest hS h hF hbits
  have hshort := h.short hS
  rw [(bitsOf_append_rest hS h hF hbits).1] at hshort
  generalize (f.bitsOf S).length = n at hlen hshort
  cases S with
  | sof | ended | hardFail => simp [fieldStages] at hS
  | _ => simp [fieldStages, Stage.code, FieldRegs.full] at hlen hshort ⊢; omega

end

/-! ### A decoder in the middle of a frame -/

/-- A bit that the field takes is not answered with `HARD_FAIL`. 42_decoder.md R187, R188. -/
theorem stageAction_ne_hardFail {d : DecState} {v : Bit} (p : Pos) (hS : d.stage ∈ fieldStages)
    (hv : Receivable d.stage v) : (stageAction d v p).1.stage ≠ .hardFail := by
  cases hs : d.stage with
  | sof | ended | hardFail => simp [hs, fieldStages] at hS
  | eof =>
    obtain rfl := hv (.inl hs)
    simp only [stageAction, hs, stageEof, if_true]
    split <;> simp
  | ifs =>
    obtain rfl := hv (.inr hs)
    simp only [stageAction, hs, stageIfs, if_true]
    split
    · simp [finish]
    · simp
  | dlc =>
    simp only [stageAction, hs, stageDlc, violate_if]
    split
    · dsimp only; split <;> simp
    · simp
  | ide | arbitrationId | extendedId | data | crc =>
    simp only [stageAction, hs, stageIde, stageArbitrationId, stageExtendedId, stageData, stageCrc]
    split <;> simp
  | _ => simp [stageAction, hs, stageRtrOrSrr, stageRtr, stageR1, stageR0, stageCrcDelimiter, stageAckSlot,
      stageAckDelimiter]

/-- A bit that the field takes, short of the third IFS bit, advances the frame. 42_decoder.md R177 to R188. -/
theorem stageAction_advances {d : DecState} {v : Bit} (p : Pos) (hc : d.fields.CountsAt d.stage)
    (hS : d.stage ∈ fieldStages) (hv : Receivable d.stage v) (hlast : ¬ (d.stage = .ifs ∧ d.fields.ifsN = 2)) :
    ∃ d', stageAction d v p = (d', none) ∧ d.Advances v d' := by
  rcases stageAction_cases (v := v) p hc hS with ⟨code, -, e⟩ | ⟨r, e⟩ | h
  · exact absurd (congrArg (·.1.stage) e) (stageAction_ne_hardFail p hS hv)
  · obtain ⟨hs, -, hn, -⟩ := stageAction_ends d v p r (congrArg Prod.snd e)
    exact absurd ⟨hs, hn⟩ hlast
  · exact h

/-- A decoder in a frame whose registers will hold `F`, with the destuffed bits `rest` to come. -/
structure DecState.Tracks (F : FieldRegs) (rest : List Bit) (d : DecState) : Prop where
  running : d.Running
  crcCovers : d.CrcCovers
  bits : d.fields.receivedBits ++ rest = F.receivedBits

section
variable {F : FieldRegs} {rest : List Bit} {d : DecState} (hF : F.CountsAt .ended)
include hF

/-- Stuffing is on while the CRC delimiter is among the bits to come. 42_decoder.md R185. -/
theorem DecState.Tracks.stuffing (h : d.Tracks F rest) : d.stf.en = decide (12 < rest.length) := by
  rw [h.running.stuffing, decide_eq_decide]
  exact (rest_bounds h.running.stage h.running.counts hF h.bits).1

/-- The next bit is one that the stage's field takes: the EOF and IFS of a complete frame are recessive. -/
theorem DecState.Tracks.receivable {v : Bit} (h : d.Tracks F (v :: rest)) : Receivable d.stage v := by
  intro htail
  have hS := h.running.stage
  obtain ⟨hfull, hrest⟩ := bitsOf_append_rest hS h.running.counts hF h.bits
  have hshort := h.running.counts.short hS
  have hprefix : d.fields.bitsOf d.stage ++ [v] <+: F.bitsOf d.stage := by
    refine List.prefix_of_prefix_length_le (l₃ := d.fields.bitsOf d.stage ++ v :: rest) ⟨rest, by simp⟩
      (hrest ▸ List.prefix_append _ _) ?_
    rw [length_bitsOf_ended hF hS, List.length_append, ← hfull]
    exact hshort
  have hmem : v ∈ F.bitsOf d.stage := hprefix.subset (by simp)
  rcases htail with hs | hs <;> rw [hs] at hmem <;> exact List.eq_of_mem_replicate hmem

/-- A frame's last bit is the third of IFS. 30_encoding.md R78, R79. -/
theorem DecState.Tracks.last_iff {v : Bit} (h : d.Tracks F (v :: rest)) :
    d.stage = .ifs ∧ d.fields.ifsN = 2 ↔ rest = [] := by
  have hS := h.running.stage
  have hlen := length_rest hS h.running.counts hF h.bits
  have hifs (hs : d.stage = .ifs) : d.fields.ifsN.toNat + (rest.length + 1) = 3 := by
    simpa [hs, FieldRegs.bitsOf, fieldStages, Stage.code, FieldRegs.full] using hlen
  constructor
  · rintro ⟨hs, hn⟩
    have := hifs hs
    rw [hn] at this
    exact List.eq_nil_of_length_eq_zero (Nat.add_left_cancel (n := 2) (Nat.succ.inj this))
  · rintro rfl
    have hs : d.stage = .ifs := by
      by_contra hs
      have := (rest_bounds hS h.running.counts hF h.bits).2 hs
      simp at this
    have := hifs hs
    exact ⟨hs, BitVec.eq_of_toNat_eq (Nat.succ.inj this)⟩

/-- A symbol classed as data is read and is one of the bits to come. 42_decoder.md R174, R176. -/
theorem DecState.Tracks.reads_data {x : RawSymbol} (h : d.Tracks F (x.value :: rest)) (hrest : rest ≠ [])
    (hd : IsData d x.value) :
    ∃ d', d.Reads x false d' ∧ d'.Tracks F rest ∧
      d'.stf = { (stfDestuff d.stf x.value).2 with en := d'.stf.en } := by
  have hr := h.running
  obtain ⟨d', hact, ha⟩ := stageAction_advances (d := received d x.value x.annot x.pos) x.pos hr.counts hr.stage
    (h.receivable hF) (mt (h.last_iff hF).mp hrest)
  obtain ⟨hraw, -, hdiag, -, -, -, hseq⟩ := stageAction_kept _ _ _ (congrArg Prod.snd hact)
  rw [hact] at hraw hdiag hseq
  refine ⟨d', ⟨(mem_fieldStages.mp hr.stage).2.1, fun c => ?_, hraw, hseq, fun hannot => ?_⟩,
    ⟨hr.advance hd ha, h.crcCovers.advance hr ha, ?_⟩, ?_⟩
  · rw [decodeSymbol_isData x.annot x.pos c hr.stage hd, hact]
    rfl
  · rw [hdiag, received, hannot]
    rfl
  · have hbits : d'.fields.receivedBits = d.fields.receivedBits ++ [x.value] := by
      rw [ha.fields]
      exact receivedBits_receive hr.stage hr.counts ha.receivable
    rw [hbits, List.append_assoc, List.singleton_append, h.bits]
  · rw [ha.stf, received_stf]

omit hF in
/-- A stuff bit is read and is none of the bits to come. 42_decoder.md R174. -/
theorem DecState.Tracks.reads_stuff {x : RawSymbol} (h : d.Tracks F rest) (hen : d.stf.en = true)
    (hc : (stfDestuff d.stf x.value).1 = .stuff) :
    ∃ d', d.Reads x true d' ∧ d'.Tracks F rest ∧ d'.stf = (stfDestuff d.stf x.value).2 := by
  have hr := h.running
  obtain ⟨hs, he, hf⟩ := mem_fieldStages.mp hr.stage
  let diag := if x.annot then d.diag else d.diag ++ [⟨.stuffAnnotMissing, d.stage, some x.pos⟩]
  refine ⟨{ keepSymbol d x.value x.annot x.pos with stf := (stfDestuff d.stf x.value).2, diag := diag },
    ⟨he, fun c => ?_, rfl, rfl, fun hannot => if_pos hannot⟩,
    ⟨hr.stuff hc x.annot x.pos diag, h.crcCovers, h.bits⟩, rfl⟩
  rw [decodeSymbol_stuff x.value x.annot x.pos c hs he hf hen hc]
  cases hannot : x.annot <;> simp [diag, hannot, keepSymbol, diagnose]

/-! ### The parts of a frame -/

/-- The stuffed part of a frame is read bit by bit as the stuffing engine classes it. 42_decoder.md R174. -/
theorem DecState.Tracks.readsAll_stuffed {xs : List RawSymbol} {ys : List StuffBit} {tail : List Bit}
    (htail : tail.length = 13) (hvalues : xs.map RawSymbol.value = ys.map StuffBit.bit)
    (hcls : (destuffClasses d.stf (ys.map StuffBit.bit)).1 = ys.map StuffBit.cls)
    (h : d.Tracks F ((ys.filter fun y => !y.isStuff).map StuffBit.bit ++ tail)) :
    ∃ d', d.ReadsAll xs ys d' ∧ d'.Tracks F tail ∧ d'.stf = (destuffClasses d.stf (ys.map StuffBit.bit)).2 := by
  induction ys generalizing d xs with
  | nil =>
    obtain rfl := List.map_eq_nil_iff.mp hvalues
    exact ⟨d, .nil d, h, rfl⟩
  | cons y ys ih =>
    obtain ⟨x, xs, rfl, hx, hxs⟩ := List.map_eq_cons_iff.mp hvalues
    obtain ⟨hhead, hrest⟩ := List.cons_eq_cons.mp hcls
    have hen : d.stf.en = true := (h.stuffing hF).trans (decide_eq_true (by simp; omega))
    have hstep : ∃ d₁, d.Reads x y.isStuff d₁ ∧
        d₁.Tracks F ((ys.filter fun y => !y.isStuff).map StuffBit.bit ++ tail) ∧
        d₁.stf = (stfDestuff d.stf y.bit).2 := by
      rw [← hx] at hhead ⊢
      cases hy : y.isStuff with
      | true =>
        rw [List.filter_cons_of_neg (by simp [hy])] at h
        exact h.reads_stuff hen (hhead.trans (if_pos hy))
      | false =>
        rw [List.filter_cons_of_pos (by simp [hy]), List.map_cons, ← hx, List.cons_append] at h
        obtain ⟨d₁, hreads, htracks, hstf⟩ := h.reads_data hF (List.ne_nil_of_length_pos (by simp; omega))
          (.inr (hhead.trans (if_neg (by simp [hy]))))
        have hen₁ : d₁.stf.en = true := (htracks.stuffing hF).trans (decide_eq_true (by simp; omega))
        have hon : (stfDestuff d.stf x.value).2.en = true := (stfDestuff_en _ _).trans hen
        exact ⟨d₁, hreads, htracks, by rw [hstf, hen₁, ← hon]⟩
    obtain ⟨d₁, hreads, htracks, hstf⟩ := hstep
    obtain ⟨d', hall, htracks', hstf'⟩ := ih hxs (hstf ▸ hrest) htracks
    exact ⟨d', .cons hreads hall, htracks', by rw [hstf', hstf]; rfl⟩

/-- The bits after the CRC delimiter are read as data, up to the last one. 42_decoder.md R185. -/
theorem DecState.Tracks.readsAll_tail {xs : List RawSymbol} {bits : List Bit} {b : Bit} (hlen : bits.length < 12)
    (hvalues : xs.map RawSymbol.value = bits) (h : d.Tracks F (bits ++ [b])) :
    ∃ d', d.ReadsAll xs (bits.map (⟨·, false⟩)) d' ∧ d'.Tracks F [b] := by
  induction bits generalizing d xs with
  | nil =>
    obtain rfl := List.map_eq_nil_iff.mp hvalues
    exact ⟨d, .nil d, h⟩
  | cons v bits ih =>
    obtain ⟨x, xs, rfl, rfl, hxs⟩ := List.map_eq_cons_iff.mp hvalues
    have hoff : d.stf.en = false := (h.stuffing hF).trans (decide_eq_false (by simp at hlen ⊢; omega))
    obtain ⟨d₁, hreads, htracks, -⟩ := h.reads_data hF (by simp) (.inl hoff)
    obtain ⟨d', hall, htracks'⟩ := ih (Nat.lt_of_succ_lt hlen) hxs htracks
    exact ⟨d', .cons hreads hall, htracks'⟩

end

/-- The encode direction keeps its engine so, over a sequence. 41_stuffing.md R148. -/
theorem stuffBits_encoding {s : StuffState} (h : s.Encoding) (xs : List Bit) : (stuffBits s xs).2.Encoding := by
  induction xs generalizing s with
  | nil => exact h
  | cons x xs ih => exact ih (stfStuff_encoding h x)

/-- After stuffed bits the next bit is data. 41_stuffing.md R144. -/
theorem StuffState.Encoding.destuffs_data {s : StuffState} (h : s.Encoding) (b : Bit) :
    (stfDestuff s b).1 = .data := by
  have hfull (c : Bit) : s.full c = false := full_eq_false_iff.mpr (h.run_ne_five c)
  rcases stfDestuff_cases s b with
    ⟨-, e⟩ | ⟨-, hv, -⟩ | ⟨-, -, ⟨-, hf, -⟩ | ⟨-, -, e⟩ | ⟨-, hf, -⟩ | ⟨-, -, e⟩⟩
  · rw [e]
  · simp [h.viol] at hv
  · simp [hfull] at hf
  · rw [e]
  · simp [hfull] at hf
  · rw [e]

/-- A dominant symbol starts a frame on a fresh decoder. 42_decoder.md R173. -/
theorem reads_start (n : BitVec 32) {x : RawSymbol} (hx : x.value = dominant) :
    (nextFrame n).Reads x false (startedFrame (nextFrame n) x.annot x.pos) where
  notEnded := nofun
  decodes c := by
    rw [hx, decodeSymbol_start x.annot x.pos c rfl]
    cases x.annot <;> rfl
  raw := by rw [startedFrame, ← hx]; rfl
  seq := rfl
  diag ha := by rw [startedFrame, ha]; rfl

theorem startedFrame_tracks (d : DecState) (a : Bool) (p : Pos) (F : FieldRegs) :
    (startedFrame d a p).Tracks F F.receivedBits where
  running := startedFrame_running d a p
  crcCovers := startedFrame_crcCovers d a p
  bits := by
    have hzero : (startedFrame d a p).fields.receivedBits = [] := by rw [receivedBits_eq]; rfl
    rw [hzero, List.nil_append]

/-- After SOF, the bits of a frame are read up to its last: the stuffed ones, the CRC delimiter, and the unstuffed
ones. 42_decoder.md R174, R185. -/
theorem DecState.Tracks.readsAll_afterSof {F : FieldRegs} {d : DecState} {bits : List Bit} {xs : List RawSymbol}
    (hF : F.CountsAt .ended) (h : d.Tracks F (bits ++ List.replicate 13 recessive)) (henc : d.stf.Encoding)
    (hvalues : xs.map RawSymbol.value =
      (stuffBits d.stf bits).1.map StuffBit.bit ++ List.replicate 12 recessive) :
    ∃ d', d.ReadsAll xs ((stuffBits d.stf bits).1 ++ List.replicate 12 ⟨recessive, false⟩) d' ∧
      d'.Tracks F [recessive] := by
  obtain ⟨region, xs, rfl, hregion, hxs⟩ := List.map_eq_append_iff.mp hvalues
  obtain ⟨delimiter, tail, rfl, hdelimiter, htail⟩ := List.map_eq_cons_iff.mp hxs
  have hdestuffs := henc.destuffs_stuffBits bits
  rw [← stuffBits_data d.stf bits] at h
  obtain ⟨d₁, hall₁, htracks₁, hstf⟩ := h.readsAll_stuffed hF (by simp) hregion (congrArg Prod.fst hdestuffs)
  have hisData : (stfDestuff d₁.stf delimiter.value).1 = .data := by
    rw [hstf, hdestuffs]
    exact (stuffBits_encoding henc bits).destuffs_data _
  rw [show List.replicate 13 recessive = delimiter.value :: (List.replicate 11 recessive ++ [recessive]) by
    rw [hdelimiter]; rfl] at htracks₁
  obtain ⟨d₂, hreads, htracks₂, -⟩ := htracks₁.reads_data hF (by simp) (.inr hisData)
  obtain ⟨d', hall₂, htracks⟩ := htracks₂.readsAll_tail hF (by simp) htail
  refine ⟨d', hall₁.append (.cons (y := ⟨recessive, false⟩) hreads ?_), htracks⟩
  rwa [List.map_replicate] at hall₂

/-- A frame sent is its SOF, its bits up to the last, and the last. -/
theorem stuffedFrame_eq {header bits : List Bit}
    (h : header ++ bitsMsb (coveredCrc header) 15 = dominant :: bits) :
    stuffedFrame header =
      (⟨dominant, false⟩ :: ((stuffBits (StuffState.fresh.seed dominant) bits).1 ++
        List.replicate 12 ⟨recessive, false⟩)) ++ [⟨recessive, false⟩] := by
  have hfirst : stfStuff .fresh dominant = ([⟨dominant, false⟩], StuffState.fresh.seed dominant) := by decide
  rw [stuffedFrame, stuffSeq, h, stuffBits, hfirst, List.replicate_succ']
  simp only [List.cons_append, List.nil_append, List.append_assoc]

/-- All but the last symbol of a frame sent are read on a fresh decoder, whatever their annotations and positions.
44_roundtrip.md R254. -/
theorem readsAll_frame (n : BitVec 32) {F : FieldRegs} {header : List Bit} (hF : F.CountsAt .ended)
    (hframe : destuffedFrame header = dominant :: F.receivedBits) {xs : List RawSymbol}
    (hvalues : xs.map RawSymbol.value = (stuffedFrame header).map StuffBit.bit) :
    ∃ init last ys d, xs = init ++ [last] ∧ last.value = recessive ∧
      stuffedFrame header = ys ++ [⟨recessive, false⟩] ∧
      (nextFrame n).ReadsAll init ys d ∧ d.Tracks F [recessive] := by
  obtain ⟨b, bits, hbits⟩ := List.exists_cons_of_ne_nil (l := header ++ bitsMsb (coveredCrc header) 15)
    (by simp [bitsMsb])
  rw [destuffedFrame, hbits, List.cons_append] at hframe
  obtain ⟨rfl, hrest⟩ := List.cons_eq_cons.mp hframe
  have hstuffed := stuffedFrame_eq hbits
  rw [hstuffed, List.map_append, List.map_cons, List.map_append, List.map_replicate] at hvalues
  obtain ⟨init, lasts, rfl, hinit, hlasts⟩ := List.map_eq_append_iff.mp hvalues
  obtain ⟨last, rfl, hlast⟩ := List.map_eq_singleton_iff.mp hlasts
  obtain ⟨x, xs, rfl, hx, hxs⟩ := List.map_eq_cons_iff.mp hinit
  have hstart := startedFrame_tracks (nextFrame n) x.annot x.pos F
  rw [← hrest] at hstart
  obtain ⟨d, hall, htracks⟩ := hstart.readsAll_afterSof hF (StuffState.fresh_encoding.seed dominant) hxs
  exact ⟨x :: xs, last, _, d, rfl, hlast, hstuffed, .cons (reads_start n hx) hall, htracks⟩

end Sys2Proof.Machine
end

section
/-! PROOFS. O55: decoding the bits of an encoded message gives the message back (43_encoder.md R232, 44_roundtrip.md
R254). -/

namespace Sys2Proof.Machine

open Sys2Proof.Claims (received headerBits Reencodes reencodedSegments)

/-! ### Registers equal to those of a complete frame -/

/-- A register received in a stage already passed is that of a complete frame with the same bits. 10_state.md R35. -/
theorem reg_eq_of_filled {w c : Nat} {r q : FieldReg w c} {S T : Stage} (hT : T ∈ fieldStages)
    (hlt : T.code.toNat < S.code.toNat) (hr : filled S T w r.n.toNat) (hq : filled .ended T w q.n.toNat)
    (h : bitsMsb r.v r.n.toNat = bitsMsb q.v q.n.toNat) : r = q := by
  obtain ⟨v, n⟩ := r
  obtain ⟨u, m⟩ := q
  have hn : n.toNat = w := (filled_of_after hlt).mp hr
  have hm : m.toNat = w := (filled_of_after (by revert hT; cases T <;> decide)).mp hq
  dsimp only at h
  rw [hn, hm] at h
  rw [eq_of_bitsMsb h, BitVec.eq_of_toNat_eq (hn.trans hm.symm)]

/-- What the registers of the two decoders agree on once the data is received: every field of the format, and the
data bytes. -/
structure FieldRegs.SameHeader (f F : FieldRegs) : Prop where
  base : f.base = F.base
  rtrSrr : f.rtrSrr = F.rtrSrr
  ide : f.ide = F.ide
  extended : f.ide.isOne = true → f.ext = F.ext ∧ f.rtr = F.rtr
  dlc : f.dlc = F.dlc
  bytes : dataBytes f.data.v f.data.n.toNat = dataBytes F.data.v F.data.n.toNat

section
variable {f F : FieldRegs} {S : Stage} (h : f.CountsAt S) (hF : F.CountsAt .ended)
  (hbits : ∀ T ∈ fieldStages, T.code.toNat < S.code.toNat → f.bitsOf T = F.bitsOf T)
include h hF hbits

/-- Where the field of a stage has been received, its register is that of the frame. -/
theorem sameHeader_of_bitsOf (hS : Stage.data.code.toNat < S.code.toNat) : f.SameHeader F := by
  have hlt {T : Stage} (hT : T.code.toNat ≤ Stage.data.code.toNat) : T.code.toNat < S.code.toNat :=
    Nat.lt_of_le_of_lt hT hS
  have hide : f.ide = F.ide :=
    reg_eq_of_filled (by decide) (hlt (by decide)) h.ide hF.ide (hbits .ide (by decide) (hlt (by decide)))
  refine ⟨?_, ?_, hide, fun hi => ?_, ?_, ?_⟩
  · exact reg_eq_of_filled (by decide) (hlt (by decide)) h.base hF.base
      (hbits .arbitrationId (by decide) (hlt (by decide)))
  · exact reg_eq_of_filled (by decide) (hlt (by decide)) h.rtrSrr hF.rtrSrr
      (hbits .rtrOrSrr (by decide) (hlt (by decide)))
  · obtain ⟨hext, hrtr, -⟩ := h.extended hi
    obtain ⟨hext', hrtr', -⟩ := hF.extended (hide ▸ hi)
    exact ⟨reg_eq_of_filled (by decide) (hlt (by decide)) hext hext'
      (hbits .extendedId (by decide) (hlt (by decide))),
      reg_eq_of_filled (by decide) (hlt (by decide)) hrtr hrtr' (hbits .rtr (by decide) (hlt (by decide)))⟩
  · exact reg_eq_of_filled (by decide) (hlt (by decide)) h.dlc hF.dlc (hbits .dlc (by decide) (hlt (by decide)))
  · have hdata : bitsMsb f.data.v f.data.n.toNat = bitsMsb F.data.v F.data.n.toNat :=
      hbits .data (by decide) (hlt (by decide))
    have hn : f.data.n.toNat = F.data.n.toNat := by
      simpa only [length_bitsMsb] using congrArg List.length hdata
    rw [hn] at hdata ⊢
    exact dataBytes_congr hdata

end

section
variable {f F : FieldRegs} (h : f.SameHeader F)
include h

theorem FieldRegs.SameHeader.remote : f.remote = F.remote := by
  unfold FieldRegs.remote
  rw [← h.ide, h.rtrSrr]
  split
  next hi => rw [(h.extended hi).2]
  next => rfl

theorem FieldRegs.SameHeader.message : f.message = F.message := by
  have hgot (hi : f.ide.gotOne = true) : f.ext = F.ext ∧ f.rtr = F.rtr :=
    h.extended (Bool.and_eq_true_iff.mp hi).2
  simp only [FieldRegs.message, ← h.ide, h.base, h.rtrSrr, h.bytes]
  cases hi : f.ide.gotOne with
  | true => simp only [hgot hi]
  | false => rfl

end

/-! ### A frame sent, up to its last bit -/

section
variable {id : BitVec 29} {rtr : Bool} {data : List Byte} (hlen : data.length ≤ 8)

/-- The format bit sent. 43_encoder.md R222. -/
theorem ide_regs : (encodeFrame id rtr data).fields.regs.ide.isOne = decide (0x7FF < id.toNat) := by
  rcases Nat.lt_or_ge 0x7FF id.toNat with h | h
  · simp [FrameFields.regs, fields_encodeFrame, headerFields_extended id rtr data h, h]
  · simp [FrameFields.regs, fields_encodeFrame, headerFields_standard id rtr data h, Nat.not_lt.mpr h]

/-- The remote-request bit sent. 43_encoder.md R222. -/
theorem remote_regs : (encodeFrame id rtr data).fields.regs.remote = rtr := by
  rcases Nat.lt_or_ge 0x7FF id.toNat with h | h
  · simp [FieldRegs.remote, FrameFields.regs, fields_encodeFrame, headerFields_extended id rtr data h]
  · simp [FieldRegs.remote, FrameFields.regs, fields_encodeFrame, headerFields_standard id rtr data h]

theorem dlc_regs : (encodeFrame id rtr data).fields.regs.dlc.v = sentDlc rtr data :=
  (headerFields_common id rtr data).2.1

variable {d : DecState} (h : d.Tracks (encodeFrame id rtr data).fields.regs [recessive])
include hlen h

/-- At the last bit every field but IFS is that of the frame. -/
theorem DecState.Tracks.atLast :
    d.stage = .ifs ∧ d.fields.ifsN = 2 ∧
      ∀ T ∈ fieldStages, T.code.toNat < Stage.ifs.code.toNat →
        d.fields.bitsOf T = (encodeFrame id rtr data).fields.regs.bitsOf T := by
  have hF := regs_countsAt_ended id rtr hlen
  obtain ⟨hs, hn⟩ := (h.last_iff hF).mpr rfl
  exact ⟨hs, hn, hs ▸ bitsOf_eq_of_receivedBits h.running.counts hF h.bits⟩

theorem DecState.Tracks.sameHeader : d.fields.SameHeader (encodeFrame id rtr data).fields.regs := by
  obtain ⟨hs, -, hbits⟩ := h.atLast hlen
  exact sameHeader_of_bitsOf (hs ▸ h.running.counts) (regs_countsAt_ended id rtr hlen) hbits (by decide)

/-- The computed CRC is that of the header sent, and so the received one. 42_decoder.md R184. -/
theorem DecState.Tracks.crcCalc_eq : d.crcCalc = (encodeFrame id rtr data).fields.crc := by
  obtain ⟨hs, hn, hbits⟩ := h.atLast hlen
  have hsame := h.sameHeader hlen
  have hcounts : d.fields.CountsAt .ifs := hs ▸ h.running.counts
  have hrx : d.fields.crcRx.n.toNat = 15 := (filled_of_after (by decide)).mp hcounts.crcRx
  have hdst : d.dst ++ [recessive] = headerBits id rtr data ++ (bitsMsb (coveredCrc (headerBits id rtr data)) 15 ++
      List.replicate 12 recessive) ++ [recessive] := by
    rw [h.running.delivered, List.cons_append, h.bits, ← destuffedFrame_eq_regs id rtr hlen, destuffedFrame,
      List.replicate_succ', List.append_assoc, List.append_assoc, List.append_assoc]
  rw [h.crcCovers.crcCalc_eq hrx (List.append_cancel_right hdst), crc_encodeFrame]
  rw [hsame.ide, hsame.dlc, ide_regs, dlc_regs, dlcEff_sentDlc rtr hlen, length_headerBits]
  simp only [decide_eq_true_eq, ← Nat.not_le, ite_not]

/-- No check of a frame sent fails. 60_exceptions.md R271. -/
theorem DecState.Tracks.no_violation : d.viol = [] := by
  obtain ⟨hs, hn, hbits⟩ := h.atLast hlen
  have hsame := h.sameHeader hlen
  have hF := regs_countsAt_ended id rtr hlen
  have hcounts : d.fields.CountsAt .ifs := hs ▸ h.running.counts
  have hcrc : d.fields.crcRx = (encodeFrame id rtr data).fields.regs.crcRx :=
    reg_eq_of_filled (by decide) (by decide) hcounts.crcRx hF.crcRx (hbits .crc (by decide) (by decide))
  have hdel : d.fields.crcDel = bitReg recessive :=
    reg_eq_of_filled (by decide) (by decide) hcounts.crcDel hF.crcDel (hbits .crcDelimiter (by decide) (by decide))
  have hack : d.fields.ack = bitReg recessive :=
    reg_eq_of_filled (by decide) (by decide) hcounts.ack hF.ack (hbits .ackSlot (by decide) (by decide))
  have hackDel : d.fields.ackDel = bitReg recessive :=
    reg_eq_of_filled (by decide) (by decide) hcounts.ackDel hF.ackDel (hbits .ackDelimiter (by decide) (by decide))
  have hremote : ¬ (d.fields.remote = true ∧ 0 < d.fields.dlc.v.toNat) := by
    rw [hsame.remote, hsame.dlc, remote_regs, dlc_regs]
    rintro ⟨rfl, h0⟩
    exact absurd h0 (by simp [sentDlc])
  have hmatch : d.crcCalc = d.fields.crcRx.v := by rw [h.crcCalc_eq hlen, hcrc]; rfl
  refine List.map_eq_nil_iff.mp (h.running.viol.trans ?_)
  simp only [DecState.softEntries, hdel, hack, hackDel, hmatch, isOne_bitReg, hremote, recessive, Bool.true_eq_false,
    ne_eq, not_true_eq_false, and_false, if_false, List.append_nil]

end

/-- A decoder that has received a whole frame sent re-encodes its message to the symbols received.
44_roundtrip.md R247. -/
theorem reencodes_of_message {id : BitVec 29} {rtr ext : Bool} {data : List Byte} {d : DecState}
    (hmessage : d.fields.message = ⟨id, ext, rtr, if rtr then [] else data⟩)
    (hraw : d.raw.map RawSymbol.value = (encodeFrame id rtr data).bits.map StuffBit.bit) :
    Reencodes d ∧ reencodedSegments d = (encodeFrame id rtr data).segments := by
  rw [Reencodes, reencodedSegments, hmessage]
  simp only [encodeFrame_sentBytes]
  exact ⟨hraw.symm, trivial⟩

end Sys2Proof.Machine

namespace Sys2Proof.Proofs

open Sys2Proof.Machine
open Sys2Proof.Claims (received runAll symbolInstr nextFrame Reencodes reencodedSegments recordOf)

/-- Settles O55: all symbols but the last are read, each as the bit sent, which leaves the registers of the frame
sent; the last is the third IFS bit, and its record is that of a message that re-encodes to the frame. -/
theorem decodingAnEncodedFrameGivesTheMessage : Obligations.DecodingAnEncodedFrameGivesTheMessage := by
  intro id rtr data symbols s hlen hfresh hvalues
  rw [bits_encodeFrame] at hvalues
  obtain ⟨init, ⟨v, a, p⟩, ys, d, rfl, rfl, hys, hall, htracks⟩ :=
    readsAll_frame s.dec.seq (regs_countsAt_ended id rtr hlen) (destuffedFrame_eq_regs id rtr hlen) hvalues
  obtain ⟨answers, hanswers, hrun⟩ := hall.runAll_symbols hfresh
  obtain ⟨hs, hn, -⟩ := htracks.atLast hlen
  have hviol := htracks.no_violation hlen
  let e : DecState := { received d true a p with fields := { d.fields with ifsN := 3 } }
  have hmessage : e.fields.message = ⟨id, decide (0x7FF < id.toNat), rtr, if rtr then [] else data⟩ :=
    ((htracks.sameHeader hlen).message).trans (message_regs id rtr hlen)
  have hraw : e.raw = init ++ [⟨true, a, p⟩] := congrArg (· ++ [_]) hall.raw
  obtain ⟨hre, hsegments⟩ := reencodes_of_message hmessage (by rw [hraw, hvalues, bits_encodeFrame])
  let t : State := { s with dec := d, responses := s.responses ++ answers }
  obtain ⟨hgives, -, -⟩ := thirdIfsBitEmitsTheRecord a p t htracks.running.inv hs hn
  let record := recordOf e .success none [] (some (reencodedSegments e))
  have hseq : d.seq = s.dec.seq := hall.seq
  have hexec : exec (symbolInstr ⟨recessive, a, p⟩) t =
      .next { s with
        dec := nextFrame (s.dec.seq + 1)
        responses := s.responses ++ answers ++ [⟨.ok, .decBit .data .sof (some record)⟩] } := by
    rw [← hseq]
    exact hgives hviol hre
  refine ⟨answers, record, ?_, hanswers, rfl, rfl, congrArg (· + 1) hseq, hmessage, congrArg some hsegments,
    fun hannot => ?_⟩
  · rw [List.map_append, runAll_append, hrun]
    exact runAll_singleton hexec
  · rw [bits_encodeFrame, hys, List.map_append, List.map_append] at hannot
    obtain ⟨hinit, hlast⟩ := List.append_inj' hannot rfl
    obtain rfl : a = false := List.singleton_inj.mp hlast
    exact hall.diag hinit

end Sys2Proof.Proofs
end

section
/-! PROOFS. O56: a frame that ends without violation passes the verifier exactly when it is canonical (44_roundtrip.md
R247, R251). -/

namespace Sys2Proof.Machine

open Sys2Proof.Claims (received headerBits Reencodes)

/-! ### Stuffed bits are determined by the bits they destuff to -/

/-- Where a bit is a stuff bit, the other one is a violation. 41_stuffing.md R144. -/
theorem stfDestuff_not_of_stuff {s : StuffState} {b : Bit} (h : (stfDestuff s b).1 = .stuff) :
    (stfDestuff s (!b)).1 = .violation := by
  rcases stfDestuff_cases s b with
    ⟨-, e⟩ | ⟨-, -, e⟩ | ⟨hen, hv, ⟨-, hf, -⟩ | ⟨-, -, e⟩ | ⟨-, -, e⟩ | ⟨-, -, e⟩⟩
  case inr.inr.inl => rw [stfDestuff_violates hen hv (full_iff.mp hf)]
  all_goals simp [e] at h

/-- The first bit of a sequence that destuffs is data, which is kept, or a stuff bit, which is dropped.
41_stuffing.md R155. -/
theorem destuffBits_cons_eq_some {s : StuffState} {b : Bit} {bs xs : List Bit}
    (h : destuffBits s (b :: bs) = some xs) :
    ((stfDestuff s b).1 = .data ∧ ∃ xs', xs = b :: xs' ∧ destuffBits (stfDestuff s b).2 bs = some xs') ∨
      ((stfDestuff s b).1 = .stuff ∧ destuffBits (stfDestuff s b).2 bs = some xs) := by
  rcases hb : stfDestuff s b with ⟨cls, t⟩
  cases cls with
  | data =>
    simp only [destuffBits, hb, Option.map_eq_some_iff] at h
    obtain ⟨xs', hxs, rfl⟩ := h
    exact .inl ⟨rfl, xs', rfl, hxs⟩
  | stuff =>
    simp only [destuffBits, hb] at h
    exact .inr ⟨rfl, h⟩
  | violation => simp [destuffBits, hb] at h

/-- The sequence does not end in a stuff bit. -/
def EndsInData (s : StuffState) (ys : List Bit) : Prop := (destuffClasses s ys).1.getLast? ≠ some .stuff

theorem EndsInData.tail {s : StuffState} {y : Bit} {ys : List Bit} (h : EndsInData s (y :: ys)) :
    EndsInData (stfDestuff s y).2 ys := fun e => h (by rw [destuffClasses, List.getLast?_cons, e]; rfl)

/-- A sequence that leaves no bit, not even a stuff bit at its end, is empty. -/
theorem eq_nil_of_destuffBits {s : StuffState} {ys : List Bit} (h : destuffBits s ys = some [])
    (hend : EndsInData s ys) : ys = [] := by
  induction ys generalizing s with
  | nil => rfl
  | cons y ys ih =>
    rcases destuffBits_cons_eq_some h with ⟨-, xs', e, -⟩ | ⟨hc, hys⟩
    · cases e
    · obtain rfl := ih hys hend.tail
      exact absurd (congrArg some hc) hend

/-- Sequences that destuff to the same bits are equal, but for a stuff bit at the end. 41_stuffing.md R155. -/
theorem destuffBits_injective {s : StuffState} {ys zs xs : List Bit} (hy : destuffBits s ys = some xs)
    (hz : destuffBits s zs = some xs) (hye : EndsInData s ys) (hze : EndsInData s zs) : ys = zs := by
  induction ys generalizing s zs xs with
  | nil =>
    obtain rfl := Option.some.inj hy
    exact (eq_nil_of_destuffBits hz hze).symm
  | cons y ys ih =>
    cases zs with
    | nil =>
      obtain rfl := Option.some.inj hz
      exact eq_nil_of_destuffBits hy hye
    | cons z zs =>
      have hyz : y = z ∨ z = !y := by cases y <;> cases z <;> simp
      rcases destuffBits_cons_eq_some hy with ⟨hyc, xs', rfl, hys⟩ | ⟨hyc, hys⟩ <;>
        rcases destuffBits_cons_eq_some hz with ⟨hzc, xs'', e, hzs⟩ | ⟨hzc, hzs⟩
      · obtain ⟨rfl, rfl⟩ := List.cons_eq_cons.mp e
        rw [ih hys hzs hye.tail hze.tail]
      · rcases hyz with rfl | rfl
        · simp [hyc] at hzc
        · have := stfDestuff_not_of_stuff hzc
          simp [hyc] at this
      · rcases hyz with rfl | rfl
        · simp [hyc] at hzc
        · have := stfDestuff_not_of_stuff hyc
          simp [hzc] at this
      · rcases hyz with rfl | rfl
        · rw [ih hys hzs hye.tail hze.tail]
        · have := stfDestuff_not_of_stuff hyc
          simp [hzc] at this

/-- A sequence whose last bit is data is the stuffing of the bits before it, and that bit. 41_stuffing.md R157. -/
theorem eq_stuffSeq_of_destuffSeq {ys x : List Bit} {b : Bit} (h : destuffSeq ys = some (x ++ [b]))
    (hlast : (destuffClasses .fresh ys).1.getLast? = some .data) : ys = (stuffSeq x).map StuffBit.bit ++ [b] := by
  have hengine : (destuffClasses .fresh ((stuffSeq x).map StuffBit.bit)).2 = (stuffBits .fresh x).2 :=
    congrArg Prod.snd (StuffState.fresh_encoding.destuffs_stuffBits x)
  have hdata : (stfDestuff (destuffClasses .fresh ((stuffSeq x).map StuffBit.bit)).2 b).1 = .data := by
    rw [hengine]
    exact (stuffBits_encoding StuffState.fresh_encoding x).destuffs_data b
  obtain ⟨hstuffed, -⟩ := Proofs.destuffingInvertsStuffing x
  refine destuffBits_injective h (destuffBits_snoc_data hstuffed hdata) ?_ ?_
  · simp [EndsInData, hlast]
  · simp [EndsInData, destuffClasses_snoc, hdata]

/-! ### A frame without violation, up to its last bit -/

/-- In stage IFS the earlier fields are full. 42_decoder.md R193. -/
theorem full_at_ifs {T : Stage} {full n : Nat} (hT : T.code.toNat < Stage.ifs.code.toNat)
    (h : filled .ifs T full n) : n = full := (filled_of_after hT).mp h

/-- The decoder is at the last bit of a frame in which it has found no violation. -/
structure DecState.AtCleanEnd (d : DecState) : Prop where
  running : d.Running
  crcCovers : d.CrcCovers
  rawDestuffs : d.RawDestuffs
  stage : d.stage = .ifs
  ifsN : d.fields.ifsN = 2
  viol : d.viol = []

section
variable {d : DecState} (h : d.AtCleanEnd)
include h

theorem DecState.AtCleanEnd.counts : d.fields.CountsAt .ifs := h.stage ▸ h.running.counts

/-- No check has failed. 60_exceptions.md R271. -/
theorem DecState.AtCleanEnd.checks :
    ¬ (d.fields.remote = true ∧ 0 < d.fields.dlc.v.toNat) ∧ d.fields.crcDel.isOne = true ∧
      d.crcCalc = d.fields.crcRx.v ∧ d.fields.ack.isOne = true ∧ d.fields.ackDel.isOne = true := by
  have hsoft : d.softEntries .ifs = [] := by
    rw [← h.stage, ← h.running.viol, h.viol]; rfl
  have hpast {T : Stage} (hT : T.code.toNat < Stage.ifs.code.toNat) {P : Prop} [Decidable P]
      {x : EntryCode × Stage} (he : (if T.code.toNat < Stage.ifs.code.toNat ∧ P then [x] else []) = []) : ¬ P :=
    fun hP => by simp [hT, hP] at he
  simp only [DecState.softEntries, List.append_eq_nil_iff] at hsoft
  obtain ⟨⟨⟨⟨hremote, hdel⟩, hcrc⟩, hack⟩, hackDel⟩ := hsoft
  exact ⟨hpast (by decide) hremote, Bool.eq_true_of_not_eq_false (hpast (by decide) hdel),
    Decidable.not_not.mp (hpast (by decide) hcrc), Bool.eq_true_of_not_eq_false (hpast (by decide) hack),
    Bool.eq_true_of_not_eq_false (hpast (by decide) hackDel)⟩

theorem DecState.AtCleanEnd.length_header :
    d.fields.header.length = (if d.fields.ide.isOne then 39 else 19) + 8 * dlcEff d.fields.dlc.v := by
  have hfull : ∀ T ∈ headerStages, (d.fields.bitsOf T).length = d.fields.full T := fun T hT =>
    (filled_of_after (by revert hT; cases T <;> decide)).mp
      (countsAt_iff.mp h.counts T (by rw [fieldStages_eq]; exact List.mem_append_left _ hT))
  rw [FieldRegs.header, List.length_cons, List.length_flatMap, List.map_congr_left hfull]
  cases hi : d.fields.ide.isOne <;> simp [headerStages, FieldRegs.full, hi] <;> omega

/-- The destuffed bits are the header, the received CRC, and the tail less its last bit. -/
theorem DecState.AtCleanEnd.dst_eq :
    d.dst = d.fields.header ++ bitsMsb d.fields.crcRx.v 15 ++ List.replicate 12 recessive := by
  obtain ⟨-, hdel, -, hack, hackDel⟩ := h.checks
  rw [h.running.delivered, receivedBits_eq, fieldStages_eq, List.flatMap_append]
  simp [FieldRegs.header, FieldRegs.bitsOf, full_at_ifs (by decide) h.counts.crcRx,
    bitsMsb_of_received (full_at_ifs (by decide) h.counts.crcDel), hdel,
    bitsMsb_of_received (full_at_ifs (by decide) h.counts.ack), hack,
    bitsMsb_of_received (full_at_ifs (by decide) h.counts.ackDel), hackDel,
    full_at_ifs (by decide) h.counts.eof, h.ifsN]

/-- The received CRC is that of the header. 42_decoder.md R184. -/
theorem DecState.AtCleanEnd.crcRx_eq : d.fields.crcRx.v = coveredCrc d.fields.header := by
  obtain ⟨-, -, hmatch, -⟩ := h.checks
  have hdst := h.dst_eq
  rw [List.append_assoc] at hdst
  exact hmatch.symm.trans (h.crcCovers.crcCalc_eq (full_at_ifs (by decide) h.counts.crcRx) hdst h.length_header)

/-- With its last bit, the frame is the stuffing of the header and its CRC, and the tail. 42_decoder.md R174, R185. -/
theorem DecState.AtCleanEnd.raw_eq :
    d.raw.map RawSymbol.value ++ [recessive] = (stuffedFrame d.fields.header).map StuffBit.bit := by
  have hoff : d.stf.en = false := by rw [h.running.stuffing, h.stage]; rfl
  obtain ⟨region, bits, tail, hraw, hseq, hdst, -, -, hend⟩ := h.rawDestuffs (by simp [h.stage])
  obtain ⟨hlen, hlast⟩ := hend hoff
  have hsplit : bits ++ tail =
      (d.fields.header ++ bitsMsb (coveredCrc d.fields.header) 15 ++ [recessive]) ++ List.replicate 11 recessive := by
    rw [← hdst, h.dst_eq, h.crcRx_eq, List.append_assoc _ [recessive]]
    rfl
  obtain ⟨rfl, rfl⟩ := List.append_inj hsplit (by
    rw [hlen, List.length_append, List.length_append, h.length_header, length_bitsMsb, List.length_singleton]
    split <;> omega)
  rw [hraw, eq_stuffSeq_of_destuffSeq hseq hlast, values_stuffedFrame, List.append_assoc, List.append_assoc]
  rfl

/-- The verifier compares the header received with the header sent for its message. 44_roundtrip.md R247. -/
theorem DecState.AtCleanEnd.reencodes_iff (a : Bool) (p : Pos) :
    Reencodes (received d true a p) ↔
      headerBits d.fields.message.identifier d.fields.message.isRemoteRequest d.fields.message.data =
        d.fields.header := by
  have hraw : (received d true a p).raw.map RawSymbol.value = (stuffedFrame d.fields.header).map StuffBit.bit := by
    rw [← h.raw_eq]
    exact List.map_append
  rw [Reencodes, hraw, bits_encodeFrame]
  exact ⟨eq_of_values_stuffedFrame, fun e => congrArg _ (congrArg _ e)⟩

/-- The headers agree exactly as the registers do, field by field. -/
theorem DecState.AtCleanEnd.header_eq_iff (id : BitVec 29) (rtr : Bool) {data : List Byte} (hlen : data.length ≤ 8) :
    headerBits id rtr data = d.fields.header ↔
      ∀ T ∈ headerStages, d.fields.bitsOf T = (encodeFrame id rtr data).fields.regs.bitsOf T := by
  constructor
  · intro heq
    have hdst : d.dst ++ [recessive] = destuffedFrame d.fields.header := by
      rw [h.dst_eq, h.crcRx_eq, List.append_assoc]
      rfl
    rw [← heq, destuffedFrame_eq_regs id rtr hlen, h.running.delivered, List.cons_append] at hdst
    have hbits := bitsOf_eq_of_receivedBits h.counts (regs_countsAt_ended id rtr hlen) (List.cons_eq_cons.mp hdst).2
    exact fun T hT => hbits T (by rw [fieldStages_eq]; exact List.mem_append_left _ hT)
      (by revert hT; cases T <;> decide)
  · intro hbits
    rw [headerBits_eq_regs id rtr hlen, FieldRegs.header, FieldRegs.header, List.flatMap_congr hbits]

end

/-! ### Canonical frames -/

theorem isOne_eq_false_iff {c : Nat} (r : FieldReg 1 c) : r.isOne = false ↔ r.v = 0 := by
  rw [FieldReg.isOne]
  generalize r.v = x
  revert x; decide

theorem gotOne_of_received {r : FieldReg 1 1} (h : r.n.toNat = 1) : r.gotOne = r.isOne := by
  have hn : r.n = 1 := BitVec.eq_of_toNat_eq h
  rw [FieldReg.gotOne, hn]
  rfl

/-- A DLC is the number of bytes received exactly when it is at most 8. 30_encoding.md R83. -/
theorem dlc_eq_ofNat_dlcEff_iff (d : BitVec 4) : d = BitVec.ofNat 4 (dlcEff d) ↔ d.toNat ≤ 8 := by
  revert d; decide

/-- The header's stages whose fields the format decides. 30_encoding.md R78, R79. -/
def formatStages : List Stage := [.arbitrationId, .rtrOrSrr, .ide, .extendedId, .rtr, .r1]

section
variable {f : FieldRegs} (h : f.CountsAt .ifs)
include h

/-- The message of a frame received up to IFS. 42_decoder.md R191. -/
theorem message_of_countsAt_ifs :
    f.message =
      ⟨if f.ide.isOne then joinId f.base.v f.ext.v else f.base.v.setWidth 29, f.ide.isOne, f.remote,
        dataBytes f.data.v (8 * dlcEff f.dlc.v)⟩ := by
  simp only [FieldRegs.message, gotOne_of_received (full_at_ifs (by decide) h.ide),
    gotOne_of_received (full_at_ifs (by decide) h.rtrSrr), full_at_ifs (by decide) h.data, FieldRegs.remote]
  cases hi : f.ide.isOne with
  | true =>
    obtain ⟨-, hrtr, -⟩ := h.extended hi
    rw [gotOne_of_received (full_at_ifs (by decide) hrtr)]
  | false => rfl

/-- The format's fields are those sent for the message exactly when, in the extended format, the identifier needs
it, SRR is recessive and r1 dominant. 44_roundtrip.md R251. -/
theorem format_agrees_iff (data : List Byte) :
    (∀ T ∈ formatStages, f.bitsOf T =
      (encodeFrame (if f.ide.isOne then joinId f.base.v f.ext.v else f.base.v.setWidth 29) f.remote
        data).fields.regs.bitsOf T) ↔
      (f.ide.isOne = true →
        0x7FF < (joinId f.base.v f.ext.v).toNat ∧ f.rtrSrr.isOne = true ∧ f.r1.isOne = false) := by
  have hide := bitsMsb_of_received (full_at_ifs (by decide) h.ide)
  have hrtrSrr := bitsMsb_of_received (full_at_ifs (by decide) h.rtrSrr)
  simp only [formatStages, List.forall_mem_cons, FieldRegs.bitsOf, full_at_ifs (by decide) h.base, hide, hrtrSrr,
    FieldRegs.remote]
  cases hi : f.ide.isOne with
  | true =>
    obtain ⟨hext, hrtr, hr1⟩ := h.extended hi
    have hrtr := bitsMsb_of_received (full_at_ifs (by decide) hrtr)
    have hr1 := bitsMsb_of_received (full_at_ifs (by decide) hr1)
    simp only [full_at_ifs (by decide) hext, hrtr, hr1, if_true, fields_encodeFrame]
    rcases Nat.lt_or_ge 0x7FF (joinId f.base.v f.ext.v).toNat with hid | hid
    · simp [headerFields_extended _ _ _ hid, FrameFields.regs, baseIdOf_joinId, extIdOf_joinId, hid]
    · simp [headerFields_standard _ _ _ hid, FrameFields.regs, Nat.not_lt.mpr hid]
  | false =>
    obtain ⟨hext, hrtr, hr1, -⟩ := h.standard hi
    have hid : (f.base.v.setWidth 29).toNat ≤ 0x7FF := by
      have := f.base.v.isLt
      rw [BitVec.toNat_setWidth]
      omega
    simp only [hext, hrtr, hr1, Bool.false_eq_true, if_false, fields_encodeFrame, headerFields_standard _ _ _ hid]
    simp [FrameFields.regs, FieldReg.zero, bitsMsb]

/-- R0, DLC and data are those sent for the message exactly when r0 is dominant and a data frame's DLC is at most 8.
44_roundtrip.md R251. -/
theorem common_agrees_iff (hremote : ¬ (f.remote = true ∧ 0 < f.dlc.v.toNat)) (id : BitVec 29) :
    (∀ T ∈ [Stage.r0, .dlc, .data], f.bitsOf T =
      (encodeFrame id f.remote (dataBytes f.data.v (8 * dlcEff f.dlc.v))).fields.regs.bitsOf T) ↔
      f.r0.isOne = false ∧ (¬ f.remote = true → f.dlc.v.toNat ≤ 8) := by
  have hlength : (dataBytes f.data.v (8 * dlcEff f.dlc.v)).length = dlcEff f.dlc.v := by
    rw [length_dataBytes, Nat.mul_div_cancel_left _ (by decide)]
  have hdlc0 (hr : f.remote = true) : f.dlc.v.toNat = 0 := Nat.eq_zero_of_not_pos fun h0 => hremote ⟨hr, h0⟩
  have hsent : sentBytes f.remote (dataBytes f.data.v (8 * dlcEff f.dlc.v)) =
      dataBytes f.data.v (8 * dlcEff f.dlc.v) := by
    cases hr : f.remote with
    | false => rfl
    | true =>
      refine (List.eq_nil_of_length_eq_zero (hlength.trans ?_)).symm
      rw [dlcEff, hdlc0 hr]
      rfl
  have hdata : f.bitsOf .data =
      (encodeFrame id f.remote (dataBytes f.data.v (8 * dlcEff f.dlc.v))).fields.regs.bitsOf .data := by
    rw [bits_regs_data id f.remote (hlength.trans_le (dlcEff_le _)), hsent, bits_dataBytes, FieldRegs.bitsOf,
      full_at_ifs (by decide) h.data]
  obtain ⟨hr0, hdlc, -⟩ := headerFields_common id f.remote (dataBytes f.data.v (8 * dlcEff f.dlc.v))
  rw [sentDlc_eq, hsent, hlength] at hdlc
  have hdlcBits : bitsMsb f.dlc.v 4 = bitsMsb (BitVec.ofNat 4 (dlcEff f.dlc.v)) 4 ↔ f.dlc.v.toNat ≤ 8 :=
    ⟨fun e => (dlc_eq_ofNat_dlcEff_iff _).mp (eq_of_bitsMsb e),
      fun e => by rw [← (dlc_eq_ofNat_dlcEff_iff _).mpr e]⟩
  have hguard : (¬ f.remote = true → f.dlc.v.toNat ≤ 8) ↔ f.dlc.v.toNat ≤ 8 := by
    refine ⟨fun e => ?_, fun e _ => e⟩
    by_cases hr : f.remote = true
    · exact (hdlc0 hr).trans_le (Nat.zero_le _)
    · exact e hr
  simp only [List.forall_mem_cons, hdata, hguard]
  simp [FieldRegs.bitsOf, FrameFields.regs, fields_encodeFrame, hr0, hdlc, hdlcBits,
    full_at_ifs (by decide) h.dlc, bitsMsb_of_received (full_at_ifs (by decide) h.r0)]

end

end Sys2Proof.Machine

namespace Sys2Proof.Proofs

open Sys2Proof.Machine

/-- Settles O56: stuffing is one to one, so the verifier compares the header received with the header sent for its
message, and they agree field by field exactly when the frame is canonical. -/
theorem verifierPassesExactlyCanonicalFrames : Obligations.VerifierPassesExactlyCanonicalFrames := by
  intro a p s hinv hcrc hraw hs hn hviol f remote
  have hend : s.dec.AtCleanEnd := ⟨hinv.toRunning (hs ▸ by decide), hcrc, hraw, hs, hn, hviol⟩
  obtain ⟨hremote, -⟩ := hend.checks
  have hlen : (dataBytes f.data.v (8 * dlcEff f.dlc.v)).length ≤ 8 := by
    rw [length_dataBytes, Nat.mul_div_cancel_left _ (by decide)]
    exact dlcEff_le _
  have hsplit : headerStages = formatStages ++ [.r0, .dlc, .data] := rfl
  rw [hend.reencodes_iff, message_of_countsAt_ifs hend.counts, hend.header_eq_iff _ _ hlen, hsplit,
    List.forall_mem_append, format_agrees_iff hend.counts, common_agrees_iff hend.counts hremote]
  simp only [isOne_iff, isOne_eq_false_iff, joinId_eq_append, remote_iff]
  rfl

end Sys2Proof.Proofs
end

section
/-! PROOFS. O3, O13, O14 and O15: the words the spec prints, and what `NOP`, `RESET` and `STATUS` do
(30_encoding.md R95 to R102, 45_control.md R256 to R261). -/

namespace Sys2Proof

/-- A printed word is decoded by writing out the word of its command. 30_encoding.md R95. -/
theorem decode_of_encode_eq {w : Command} {i : Instr} (h : encode i = w) : decode w = .ok i :=
  h ▸ decode_encode i

end Sys2Proof

namespace Sys2Proof.Machine

/-- Only the sequence number survives the start of a frame, so with it cleared the decoder is the reset decoder.
42_decoder.md R170. -/
theorem frameInit_seq_zero (d : DecState) : { frameInit d with seq := 0 } = DecState.fresh := rfl

end Sys2Proof.Machine

namespace Sys2Proof.Proofs

open Sys2Proof.Machine

/-- Settles O3: each word printed is the word of its command, field by field. -/
theorem printedWordsDecode : Obligations.PrintedWordsDecode := by
  unfold Obligations.PrintedWordsDecode
  and_intros <;> exact decode_of_encode_eq (by decide)

/-- Settles O13: each unit that `RESET` writes is the one of the reset state. -/
theorem resetCommandRestoresResetState : Obligations.ResetCommandRestoresResetState := by
  intro s
  rw [exec, execReset, crcNew_can, frameInit_seq_zero]
  rfl

/-- Settles O14: the only effect is the empty response. -/
theorem nopChangesNothing : Obligations.NopChangesNothing := fun s => respond_eq .empty s

/-- Settles O15: the snapshot answered is read from the registers as they stand. -/
theorem statusReportsEveryRegister : Obligations.StatusReportsEveryRegister := by
  intro s
  refine ⟨snapshot s, respond_eq (.snapshot (snapshot s)) s, ?_⟩
  and_intros <;> rfl

end Sys2Proof.Proofs
end

section
/-! PROOFS. O4 and O6: the two checks of a command word before it is a command, and the answer to a word that fails
one (60_exceptions.md R266; 30_encoding.md R96 to R103). -/

namespace Sys2Proof

open Sys2Proof.Claims (legalOpcodes reservedRanges)

/-! ### The opcode byte -/

/-- The opcode byte is what stands above the 56 operand bits. 30_encoding.md R95. -/
theorem toNat_cmdField_opcode (w : Command) : (cmdField w 56 8).toNat = w.toNat / 2 ^ 56 := by
  rw [cmdField, BitVec.extractLsb'_toNat, Nat.shiftRight_eq_div_pow]
  exact Nat.mod_eq_of_lt (Nat.div_lt_of_lt_mul w.isLt)

theorem code_mem_legalOpcodes (op : Opcode) : op.code.toNat ∈ legalOpcodes := by
  cases op <;> decide

/-- Every legal opcode byte is in the opcode map. 30_encoding.md R96, R103. -/
theorem isSome_ofCode_of_mem {c : BitVec 8} (h : c.toNat ∈ legalOpcodes) : (Opcode.ofCode c).isSome := by
  have listed : ∀ n ∈ legalOpcodes, (Opcode.ofCode (BitVec.ofNat 8 n)).isSome := by decide
  simpa using listed c.toNat h

/-! ### The reserved bits -/

/-- The reserved bits of an opcode's format are those of its ranges. 30_encoding.md R97 to R101. -/
theorem getLsbD_reserved_iff (op : Opcode) (k : Nat) :
    op.format.reserved.getLsbD k = true ↔ ∃ r ∈ reservedRanges op.code.toNat, r.2 ≤ k ∧ k ≤ r.1 := by
  cases op <;>
    simp [Opcode.format, Format.reserved, Opcode.code, reservedRanges, getLsbD_bitRange, BitVec.getLsbD_or, or_assoc]

/-- A word has no bit of a mask exactly when each bit the mask holds is 0 in it. -/
theorem and_eq_zero_iff {n : Nat} (w m : BitVec n) :
    w &&& m = 0 ↔ ∀ k, m.getLsbD k = true → w.getLsbD k = false := by
  constructor
  · intro h k hm
    have hk : (w &&& m).getLsbD k = false := by rw [h]; exact BitVec.getLsbD_zero
    simpa [hm] using hk
  · refine fun h => BitVec.eq_of_getLsbD_eq fun k _ => ?_
    cases hm : m.getLsbD k with
    | false => simp [hm]
    | true => simp [h k hm]

/-! ### The two checks of a word -/

/-- Check 1: a byte outside the opcode map stops the word. 60_exceptions.md R266. -/
theorem decode_of_ofCode_none {w : Command} (h : Opcode.ofCode (cmdField w 56 8) = none) :
    decode w = .error .illegalOpcode := by
  simp only [decode, h]

/-- Check 2: with the opcode known, a reserved bit alone stops the word. 60_exceptions.md R266. -/
theorem decode_of_ofCode_some {w : Command} {op : Opcode} (h : Opcode.ofCode (cmdField w 56 8) = some op) :
    decode w = if w &&& op.format.reserved = 0 then .ok (op.operands w) else .error .reservedNonzero := by
  simp only [decode, h]

end Sys2Proof

namespace Sys2Proof.Machine

/-- A word that is no command is taken and rejected. 60_exceptions.md R266. -/
theorem step_of_decode_error {s : State} {w : Command} {rest : List Command} {e : DecodeError}
    (hs : s.cmds = w :: rest) (hw : decode w = .error e) :
    step s = reject (statusOfError e) { s with cmds := rest } := by
  simp only [step, takeCommand, hs, hw]

end Sys2Proof.Machine

namespace Sys2Proof.Proofs

open Sys2Proof.Machine

/-- Settles O4: the word's opcode byte is in the opcode map or not, and where it is, the format's mask holds exactly
the bits of the reserved ranges. -/
theorem opcodeIsCheckedBeforeReservedBits : Obligations.OpcodeIsCheckedBeforeReservedBits := by
  intro w
  rw [← toNat_cmdField_opcode]
  cases hop : Opcode.ofCode (cmdField w 56 8) with
  | none =>
    have hillegal : (cmdField w 56 8).toNat ∉ Claims.legalOpcodes := fun h => by
      simpa [hop] using isSome_ofCode_of_mem h
    exact ⟨fun _ => decode_of_ofCode_none hop, fun h => absurd h hillegal, fun h => absurd h hillegal⟩
  | some op =>
    rw [← code_of_ofCode hop, decode_of_ofCode_some hop]
    refine ⟨fun h => absurd (code_mem_legalOpcodes op) h, ?reserved, ?clear⟩
    case reserved =>
      rintro - ⟨r, hr, k, hlo, hhi, hbit⟩
      have hmask := (getLsbD_reserved_iff op k).mpr ⟨r, hr, hlo, hhi⟩
      exact if_neg fun hz => by simpa [hbit] using (and_eq_zero_iff _ _).mp hz k hmask
    case clear =>
      refine fun _ hclear => ⟨op.operands w, if_pos ((and_eq_zero_iff _ _).mpr fun k hmask => ?_)⟩
      obtain ⟨r, hr, hlo, hhi⟩ := (getLsbD_reserved_iff op k).mp hmask
      exact hclear r hr k hlo hhi

/-- Settles O6: the step is the rejection of the word taken, with the status of the check it failed. -/
theorem stepAnswersMalformedWords : Obligations.StepAnswersMalformedWords :=
  fun _ _ _ hs => ⟨step_of_decode_error hs, step_of_decode_error hs⟩

end Sys2Proof.Proofs
end

section
/-! PROOFS. O8 and O9: the operand check of every command (60_exceptions.md R266, R267, R268). -/

namespace Sys2Proof

/-- The three bad operands. 60_exceptions.md R267. -/
theorem wellFormed_eq_false_iff (i : Instr) :
    i.wellFormed = false ↔
      i = .crcInit 0 ∨
      (∃ width value, i = .crcField width value ∧ (width.toNat = 0 ∨ 32 < width.toNat)) ∨
      ∃ id rtr len, i = .encHdr id rtr len ∧ 8 < len.toNat := by
  cases i with
  | crcInit poly => simp [Instr.wellFormed, polyLegal]
  | crcField width value =>
    have hbad : widthLegal width = false ↔ width.toNat = 0 ∨ 32 < width.toNat := by
      rw [← Machine.badWidth_iff, Machine.badWidth_eq, Bool.not_eq_true']
    simp [Instr.wellFormed, hbad]
  | encHdr id rtr len =>
    have hbad : lenLegal len = false ↔ 8 < len.toNat := by
      rw [← Machine.badLen_iff, Machine.badLen_eq, Bool.not_eq_true']
    simp [Instr.wellFormed, hbad]
  | _ => simp [Instr.wellFormed]

end Sys2Proof

namespace Sys2Proof.Machine

/-- Check 3: a bad operand rejects the command. 60_exceptions.md R266. -/
theorem exec_of_not_wellFormed {i : Instr} (s : State) (h : i.wellFormed = false) :
    exec i s = reject .badOperand s := by
  cases i with
  | crcInit poly => exact if_pos ((badPoly_eq poly).trans (congrArg (! ·) h))
  | crcField width value => exact if_pos ((badWidth_eq width).trans (congrArg (! ·) h))
  | encHdr id rtr len => exact if_pos ((badLen_eq len).trans (congrArg (! ·) h))
  | _ => cases h

/-- A command with legal operands ends with status `OK`, the port kept. 60_exceptions.md R268. -/
theorem exec_of_wellFormed {i : Instr} (s : State) (h : i.wellFormed = true) :
    ∃ (payload : Payload) (u : State),
      exec i s = respond payload u ∧ u.cmds = s.cmds ∧ u.responses = s.responses := by
  cases i with
  | crcInit poly =>
    have hgood : badPoly poly = false := (badPoly_eq poly).trans (congrArg (! ·) h)
    exact ⟨_, _, if_neg (Bool.eq_false_iff.mp hgood), rfl, rfl⟩
  | crcField width value =>
    have hgood : badWidth width = false := (badWidth_eq width).trans (congrArg (! ·) h)
    exact ⟨_, _, if_neg (Bool.eq_false_iff.mp hgood), rfl, rfl⟩
  | encHdr id rtr len =>
    have hgood : badLen len = false := (badLen_eq len).trans (congrArg (! ·) h)
    exact ⟨_, _, if_neg (Bool.eq_false_iff.mp hgood), rfl, rfl⟩
  | _ => exact ⟨_, _, rfl, rfl, rfl⟩

end Sys2Proof.Machine

namespace Sys2Proof.Proofs

open Sys2Proof.Machine

/-- Settles O8: the command is answered `OK` or rejected as its operands are legal or not. -/
theorem everyCommandCompletesWithOneResponse : Obligations.EveryCommandCompletesWithOneResponse := by
  intro i s
  cases h : i.wellFormed with
  | true =>
    obtain ⟨payload, u, hexec, hcmds, hresp⟩ := exec_of_wellFormed s h
    refine ⟨u.answer ⟨.ok, payload⟩, ⟨.ok, payload⟩, hexec, ?_, hcmds, rfl, fun hne => absurd rfl hne⟩
    rw [answer_responses, hresp]
  | false =>
    exact ⟨s.answer ⟨.badOperand, .empty⟩, ⟨.badOperand, .empty⟩, exec_of_not_wellFormed s h, rfl, rfl, rfl,
      fun _ => rfl⟩

/-- Settles O9: the commands that are not well formed are the three, and every other one is answered `OK`. -/
theorem badOperandsAreRejected : Obligations.BadOperandsAreRejected := by
  refine ⟨fun s => ?poly, fun width value s hbad => ?width, fun id rtr len s hbad => ?len,
    fun i s t payload hexec hresp => ?only⟩
  case poly => exact exec_of_not_wellFormed s rfl
  case width =>
    exact exec_of_not_wellFormed s ((wellFormed_eq_false_iff _).mpr (.inr (.inl ⟨_, _, rfl, hbad⟩)))
  case len =>
    exact exec_of_not_wellFormed s ((wellFormed_eq_false_iff _).mpr (.inr (.inr ⟨_, _, _, rfl, hbad⟩)))
  case only =>
    rw [← wellFormed_eq_false_iff, Bool.eq_false_iff]
    intro hgood
    obtain ⟨payload', u, hok, -, hu⟩ := exec_of_wellFormed s hgood
    obtain rfl : t = u.answer ⟨.ok, payload'⟩ := Host.Outcome.next.inj (hexec.symm.trans hok)
    rw [answer_responses, hu] at hresp
    cases List.append_cancel_left hresp

end Sys2Proof.Proofs
end

section
/-! PROOFS. O45: the outcome of a violation list and its primary entry, read from the code numbers
(60_exceptions.md R275, R276, R277). -/

namespace Sys2Proof.Machine

/-! ### Classes as code ranges (60_exceptions.md R275) -/

/-- An entry is internal exactly in the range of internal codes. -/
theorem hasClass_internal_iff (e : Entry) :
    e.hasClass .internal = true ↔ 0x20 ≤ e.code.code.toNat ∧ e.code.code.toNat ≤ 0x2F := by
  rw [Entry.hasClass]
  cases e.code <;> decide

/-- An entry is fatal exactly in the range of fatal codes: no code is 0. -/
theorem hasClass_fatal_iff (e : Entry) :
    e.hasClass .fatal = true ↔ 0x01 ≤ e.code.code.toNat ∧ e.code.code.toNat ≤ 0x0F := by
  rw [Entry.hasClass]
  cases e.code <;> decide

theorem any_internal_iff (viol : List Entry) :
    viol.any (Entry.hasClass .internal) = true ↔
      ∃ e ∈ viol, 0x20 ≤ e.code.code.toNat ∧ e.code.code.toNat ≤ 0x2F := by
  simp only [List.any_eq_true, hasClass_internal_iff]

theorem any_fatal_iff (viol : List Entry) :
    viol.any (Entry.hasClass .fatal) = true ↔
      ∃ e ∈ viol, 0x01 ≤ e.code.code.toNat ∧ e.code.code.toNat ≤ 0x0F := by
  simp only [List.any_eq_true, hasClass_fatal_iff]

/-- The first entry of a class is found behind entries of other classes. 60_exceptions.md R277. -/
theorem find_hasClass_append {k : EntryClass} {e : Entry} {front : List Entry} (back : List Entry)
    (he : e.hasClass k = true) (hfront : ∀ e' ∈ front, ¬ e'.hasClass k = true) :
    (front ++ e :: back).find? (Entry.hasClass k) = some e := by
  rw [List.find?_append, List.find?_eq_none.mpr hfront, Option.none_or, List.find?_cons_of_pos he]

end Sys2Proof.Machine

namespace Sys2Proof.Proofs

open Sys2Proof.Machine

/-- Settles O45: the classes tested are the code ranges, in the order internal, fatal, soft; and the search for the
primary entry passes over every other class. -/
theorem outcomeFollowsTheWorstEntry : Obligations.OutcomeFollowsTheWorstEntry := by
  intro viol has
  have hint : viol.any (Entry.hasClass .internal) = true ↔ has 0x20 0x2F := any_internal_iff viol
  have hfat : viol.any (Entry.hasClass .fatal) = true ↔ has 0x01 0x0F := any_fatal_iff viol
  simp only [outcomeOf, hint, hfat]
  refine ⟨fun hi => if_pos hi, fun hi hf => ?fatal, fun hi hf hne => ?soft, ?success, rfl, rfl,
    ?primaryFatal, ?primaryInternal⟩
  case fatal => rw [if_neg hi, if_pos hf]
  case soft => rw [if_neg hi, if_neg hf, if_pos hne]
  case success =>
    rintro rfl
    simp [has]
  case primaryFatal =>
    rintro e front back rfl hlo hhi hfront
    refine find_hasClass_append back ((hasClass_fatal_iff e).mpr ⟨hlo, hhi⟩) fun e' he' hcls => ?_
    have habove := hfront e' he'
    have hbelow := ((hasClass_fatal_iff e').mp hcls).2
    omega
  case primaryInternal =>
    rintro e front back rfl hlo hhi hfront
    refine find_hasClass_append back ((hasClass_internal_iff e).mpr ⟨hlo, hhi⟩) fun e' he' hcls => ?_
    have houtside := hfront e' he'
    have hinside := (hasClass_internal_iff e').mp hcls
    omega

end Sys2Proof.Proofs
end

section
/-! PROOFS. O7, O12 and O57: the idle step, the reset values and the invariants at reset
(70_reset_and_hazards.md R291, R292, R296). -/

namespace Sys2Proof.Machine

/-- The port gives no word exactly where none is pending. 20_memory.md R69. -/
theorem takeCommand_eq_none_iff (s : State) : takeCommand s = none ↔ s.cmds = [] := by
  rw [takeCommand]
  cases s.cmds <;> simp

/-- A step that takes no word holds all state (log 1). -/
theorem step_of_takeCommand_none {s : State} (h : takeCommand s = none) : step s = .next s := by
  rw [step, h]

/-- The reset decoder is the one at the start of a frame, with sequence number 0. 42_decoder.md R170. -/
theorem reset_inv : State.reset.Inv where
  crcu := CrcState.fresh_inv
  stfu := (by decide : StuffState.fresh.Bounded)
  dec := frameInit_inv .fresh 0
  enc := Nat.zero_le _

end Sys2Proof.Machine

namespace Sys2Proof.Proofs

open Sys2Proof.Machine

/-- Settles O7: with no word pending the port gives none, and the step is the idle one. -/
theorem stepWithoutCommandHoldsState : Obligations.StepWithoutCommandHoldsState := fun s hs =>
  step_of_takeCommand_none ((takeCommand_eq_none_iff s).mpr hs)

/-- Settles O12: the power-on values are the definitions', and the state after `RESET` (O13) has the units of the
reset state. -/
theorem resetStateHoldsTheSpecValues : Obligations.ResetStateHoldsTheSpecValues := by
  refine ⟨rfl, rfl, rfl, rfl, rfl, rfl, rfl, fun s => ?resetCommand⟩
  case resetCommand => exact ⟨_, resetCommandRestoresResetState s, rfl, rfl, rfl, rfl⟩

/-- Settles O57: the decoder at reset is a fresh frame, and a fresh frame meets each decoder invariant. -/
theorem resetMeetsTheInvariants : Obligations.ResetMeetsTheInvariants :=
  ⟨reset_inv, frameInit_crcCovers .fresh 0, frameInit_rawDestuffs .fresh 0⟩

end Sys2Proof.Proofs
end
